-- ==== Sys2Proof/Word.lean ====
section
/-! DEFINITION. The machine's word types, by the widths of 00_scope rules R11 and R95. -/

namespace Sys2Proof

/-- A byte of `IBUF`, `BITS`, `OBUF` or a dictionary word. -/
abbrev Byte := BitVec 8

/-- One bit of the bitstream, and register `RBIT`. -/
abbrev Bit := BitVec 1

/-- A symbol id (R11, R91): 0 to 255 a raw byte, 256 + N dictionary entry N. -/
abbrev Sym := BitVec 32

/-- An interval bound or the code window (R7, R11): P = 24 bits. -/
abbrev Bound := BitVec 24

/-- A command word (R95). -/
abbrev Command := BitVec 32

end Sys2Proof
end

