-- ==== Sys2Proof/Syntax.lean ====
section
/-! DEFINITION. The 25 commands of rule R100 (command set ACW-CMD-1, R3), their names (R100) and script text (R102). -/

namespace Sys2Proof

/-- One constructor per row of spec/opcode_table.json. The symbol operand of `encSym` is the zero-extended 32-bit
value of rule R97; that it fits the word's 24 bits is `Instr.wf`. -/
inductive Instr where
  | nop
  | rst
  | encBegin
  | encSym (s : Sym)
  | encEnd
  | encRun
  | bwBit (b : Bit)
  | bwEmit (b : Bit)
  | bwDefer
  | decBegin
  | decSym
  | decEnd
  | decRun
  | brBit
  | fmBuild
  | fmCheck
  | dxFind
  | dxSub
  | dxExp
  | encode
  | decode
  | ser
  | des
  | compress
  | decompress
  deriving DecidableEq, Repr

/-- The mnemonic of rule R100. -/
def Instr.mnemonic : Instr → String
  | .nop => "NOP"
  | .rst => "RST"
  | .encBegin => "ENC.BEGIN"
  | .encSym _ => "ENC.SYM"
  | .encEnd => "ENC.END"
  | .encRun => "ENC.RUN"
  | .bwBit _ => "BW.BIT"
  | .bwEmit _ => "BW.EMIT"
  | .bwDefer => "BW.DEFER"
  | .decBegin => "DEC.BEGIN"
  | .decSym => "DEC.SYM"
  | .decEnd => "DEC.END"
  | .decRun => "DEC.RUN"
  | .brBit => "BR.BIT"
  | .fmBuild => "FM.BUILD"
  | .fmCheck => "FM.CHECK"
  | .dxFind => "DX.FIND"
  | .dxSub => "DX.SUB"
  | .dxExp => "DX.EXP"
  | .encode => "ENCODE"
  | .decode => "DECODE"
  | .ser => "SER"
  | .des => "DES"
  | .compress => "COMPRESS"
  | .decompress => "DECOMPRESS"

/-- A command line of a script (R102): the mnemonic, then the operand of formats B and S in decimal. -/
def Instr.asm (i : Instr) : String :=
  match i with
  | .encSym s => i.mnemonic ++ " " ++ toString s.toNat
  | .bwBit b => i.mnemonic ++ " " ++ toString b.toNat
  | .bwEmit b => i.mnemonic ++ " " ++ toString b.toNat
  | _ => i.mnemonic

end Sys2Proof
end

