-- ==== Sys2Proof/WellFormed.lean ====
section
/-! DEFINITION. Which commands a command word can carry (rule R97). -/

namespace Sys2Proof

/-- R97: "A symbol id `≥ 2^24` cannot be given to `ENC.SYM`". Every other operand fits its field by its type. -/
def Instr.wf : Instr → Bool
  | .encSym s => s.toNat < 2 ^ 24
  | _ => true

end Sys2Proof
end

