-- ==== Sys2Proof/Decode.lean ====
section
/-! DEFINITION. Command words (30_encoding, rules R95 to R100): the command list, the decoder, total on every 32-bit word
and rejecting by name, and after it the encoder. -/

namespace Sys2Proof

/-- R95: bits `[7:0]`. -/
def opcodeOf (w : Command) : Byte := w.extractLsb' 0 8

/-- R95: bits `[31:8]`. -/
def immOf (w : Command) : BitVec 24 := w.extractLsb' 8 24

/-- R97: `b = word[8]`. -/
def bitOperand (w : Command) : Bit := w.extractLsb' 8 1

/-- R97: `s = zext_32(word[31:8])`. -/
def symOperand (w : Command) : Sym := (immOf w).setWidth 32

/-- Why a word is no command (R98); either way it raises IllegalCommand. -/
inductive DecodeError where
  /-- One of the 231 opcodes rule R100 does not list. -/
  | reservedOpcode (op : Byte)
  /-- A listed opcode whose reserved `imm` bits are not zero. -/
  | reservedImm (op : Byte)
  deriving DecidableEq, Repr

/-- The mask of format Z (R100): the whole word is fixed. -/
def maskZ : Command := 0xFFFFFFFF

/-- The mask of format B (R100): all but word bit 8. -/
def maskB : Command := 0xFFFFFEFF

/-- The mask of format S (R100): the opcode only. -/
def maskS : Command := 0x000000FF

/-- One row of rule R100: a word `w` is the command iff `w AND mask = pattern`. -/
structure Row where
  mask : Command
  pattern : Command
  read : Command → Instr

/-- The command list of rule R100, in its order. -/
def rows : List Row :=
  [ ⟨maskZ, 0x00000000, fun _ => .nop⟩,
    ⟨maskZ, 0x00000001, fun _ => .rst⟩,
    ⟨maskZ, 0x00000010, fun _ => .encBegin⟩,
    ⟨maskS, 0x00000011, fun w => .encSym (symOperand w)⟩,
    ⟨maskZ, 0x00000012, fun _ => .encEnd⟩,
    ⟨maskZ, 0x00000013, fun _ => .encRun⟩,
    ⟨maskB, 0x00000014, fun w => .bwBit (bitOperand w)⟩,
    ⟨maskB, 0x00000015, fun w => .bwEmit (bitOperand w)⟩,
    ⟨maskZ, 0x00000016, fun _ => .bwDefer⟩,
    ⟨maskZ, 0x00000020, fun _ => .decBegin⟩,
    ⟨maskZ, 0x00000021, fun _ => .decSym⟩,
    ⟨maskZ, 0x00000022, fun _ => .decEnd⟩,
    ⟨maskZ, 0x00000023, fun _ => .decRun⟩,
    ⟨maskZ, 0x00000024, fun _ => .brBit⟩,
    ⟨maskZ, 0x00000030, fun _ => .fmBuild⟩,
    ⟨maskZ, 0x00000031, fun _ => .fmCheck⟩,
    ⟨maskZ, 0x00000040, fun _ => .dxFind⟩,
    ⟨maskZ, 0x00000041, fun _ => .dxSub⟩,
    ⟨maskZ, 0x00000042, fun _ => .dxExp⟩,
    ⟨maskZ, 0x00000050, fun _ => .encode⟩,
    ⟨maskZ, 0x00000051, fun _ => .decode⟩,
    ⟨maskZ, 0x00000052, fun _ => .ser⟩,
    ⟨maskZ, 0x00000053, fun _ => .des⟩,
    ⟨maskZ, 0x00000054, fun _ => .compress⟩,
    ⟨maskZ, 0x00000055, fun _ => .decompress⟩ ]

/-- R99: "the row of rule R100 with (w AND mask) = match". -/
def rowOf (w : Command) : Option Row := rows.find? fun r => w &&& r.mask == r.pattern

/-- The decoder (R99, R98). -/
def decodeWord (w : Command) : Except DecodeError Instr :=
  match rowOf w with
  | some r => .ok (r.read w)
  | none =>
    if rows.any fun r => opcodeOf r.pattern == opcodeOf w then .error (.reservedImm (opcodeOf w))
    else .error (.reservedOpcode (opcodeOf w))

/-- The opcode byte of rule R100. -/
def opcode : Instr → Byte
  | .nop => 0x00
  | .rst => 0x01
  | .encBegin => 0x10
  | .encSym _ => 0x11
  | .encEnd => 0x12
  | .encRun => 0x13
  | .bwBit _ => 0x14
  | .bwEmit _ => 0x15
  | .bwDefer => 0x16
  | .decBegin => 0x20
  | .decSym => 0x21
  | .decEnd => 0x22
  | .decRun => 0x23
  | .brBit => 0x24
  | .fmBuild => 0x30
  | .fmCheck => 0x31
  | .dxFind => 0x40
  | .dxSub => 0x41
  | .dxExp => 0x42
  | .encode => 0x50
  | .decode => 0x51
  | .ser => 0x52
  | .des => 0x53
  | .compress => 0x54
  | .decompress => 0x55

/-- The immediate of rules R96 and R97: 0 in format Z, `b` in bit 0 in format B, `s` in format S. -/
def immediate : Instr → BitVec 24
  | .encSym s => s.setWidth 24
  | .bwBit b => b.setWidth 24
  | .bwEmit b => b.setWidth 24
  | _ => 0

/-- The command word (R95): the immediate above the opcode. -/
def encodeWord (i : Instr) : Command := immediate i ++ opcode i

/-- The host's view of the decoder: a command word arrives whole (R61, "the command word arrives whole"), so the table's bit
0 is the word's bit 0. Bits above `nbits` are 0; a number that needs more than 32 bits is no command word (R95). -/
def decodeTableWord (nbits w : Nat) : Option Instr :=
  if w % 2 ^ nbits < 2 ^ 32 then (decodeWord (BitVec.ofNat 32 (w % 2 ^ nbits))).toOption else none

end Sys2Proof
end

