-- ==== Sys2Proof/Config.lean ====
section
/-! DEFINITION. The configuration record, fixed per instance of the hardware (rules R9, R10, R50), and the one free value. -/

namespace Sys2Proof

/-- The configuration record of rules R9 and R10. It is no state of the core (R50) and no command writes it; State carries
it unchanged, so that every statement about all states is a statement about every instance (log 3). -/
structure Config where
  /-- `DICT_MAX_WORDS` (R9). -/
  dictMaxWords : Nat := 25
  /-- `DICT_MIN_WORD_LEN` (R9). -/
  dictMinWordLen : Nat := 3
  /-- `DICT_MIN_FREQ_EXCL` (R9). -/
  dictMinFreqExcl : Nat := 3
  /-- `DICT_ENTRY_OVERHEAD` (R9). -/
  dictEntryOverhead : Nat := 4
  /-- `DICT_MIN_INPUT_BYTES`: OPEN (R9, D19). -/
  dictMinInputBytes : Nat
  /-- `CAP_IBUF`: OPEN (R10, D3), as are the capacities below. -/
  capIbuf : Nat
  capSym : Nat
  capDictWords : Nat
  capWordBytes : Nat
  capFtab : Nat
  capBits : Nat
  capObuf : Nat
  deriving DecidableEq, Repr

/-- The reference record: every capacity `2^32 − 1` (R10), the source's thresholds (R9), and for `DICT_MIN_INPUT_BYTES`,
which has no value in the source, the 0 that 95_test_vectors assumes. DESIGN CHOICE (log 3): no statement rests on it. -/
def Config.reference : Config where
  dictMinInputBytes := 0
  capIbuf := 2 ^ 32 - 1
  capSym := 2 ^ 32 - 1
  capDictWords := 2 ^ 32 - 1
  capWordBytes := 2 ^ 32 - 1
  capFtab := 2 ^ 32 - 1
  capBits := 2 ^ 32 - 1
  capObuf := 2 ^ 32 - 1

/-- FREE VALUE (log 5, DESIGN CHOICE): the symbol `DX.SUB` writes for dictionary word `k` where `256 + k` does not fit the
32 bits of a symbol (R36 admits up to 2^32 − 1 words, R236 appends `256 + k`, no rule states the result). It has no body: a
statement about it holds for every value. -/
opaque Config.symbolBeyondU32 : Nat → Sym

end Sys2Proof
end

