-- ==== Sys2Proof/Machine/State.lean ====
section
/-! DEFINITION. The architectural state (10_state), its reset value (R49), the host's transactions (20_memory) and the
reasons a step of the model can stop. -/

namespace Sys2Proof.Machine

/-- Register `STATE` (R32). -/
inductive RunState where
  | ready
  | fault
  deriving DecidableEq, Repr

/-- Register `MODE` (R31): which session is open. Value 3 never occurs and is left out (U16). -/
inductive Mode where
  | idle
  | enc
  | dec
  deriving DecidableEq, Repr

/-- Register `ERR` (R33, R310). Value 7 never occurs and is left out (U16). -/
inductive Cause where
  | none
  | formatError
  | corruptReference
  | precisionOverflow
  | modelError
  | illegalCommand
  | capacityFault
  deriving DecidableEq, Repr

/-- One entry of `FTAB` (R40, R44): (symbol, count, cumulative_start). -/
structure Entry where
  sym : Sym
  count : BitVec 64
  cum : BitVec 64
  deriving DecidableEq, Repr

/-- One transaction the host sends (R30, R70, R350). -/
inductive HostEvent where
  /-- A command word at the command port (R30, R99). -/
  | command (w : Command)
  /-- `HostLoad(IBUF, bytes)`; the next five are the other host loads of R70. -/
  | loadIbuf (bytes : List Byte)
  | loadSym (symbols : List Sym)
  | loadDict (words : List (List Byte))
  | loadFtab (entries : List Entry)
  | loadBits (bytes : List Byte)
  | loadTotal (v : BitVec 64)
  /-- Hardware reset (R350). -/
  | hardReset
  deriving DecidableEq, Repr

/-- The state of the core (R20) in the order of rule R38, then the buffers of rule R40. A length register is the length of its
buffer (R40) and has its accessor below; `cfg` and `port` are the model's own (log 3, log 1). -/
structure State where
  /-- `STATE` (R32). -/
  status : RunState
  /-- `ERR` (R33). -/
  err : Cause
  /-- `ERRINFO` (R34). -/
  errInfo : BitVec 64
  /-- `MODE` (R31). -/
  mode : Mode
  /-- `LOW` (R21). -/
  low : Bound
  /-- `HIGH` (R22), inclusive. -/
  high : Bound
  /-- `WINDOW` (R23). -/
  window : Bound
  /-- `ACC` (R24), low-aligned. -/
  acc : Byte
  /-- `NBITS` (R25). -/
  nbits : BitVec 3
  /-- `PENDING` (R26). -/
  pending : BitVec 32
  /-- `RPOS` (R27). -/
  rpos : BitVec 32
  /-- `RBIT` (R28). -/
  rbit : Bit
  /-- `TOTAL` (R37). -/
  total : BitVec 64
  /-- `IBUF[0..ILEN)` (R41). -/
  ibuf : List Byte
  /-- `SYM[0..SLEN)` (R42). -/
  sym : List Sym
  /-- `DICT[0..DCOUNT)`, word `k` of length `WLEN[k]` (R43). -/
  dict : List (List Byte)
  /-- `FTAB[0..FCOUNT)` (R44). -/
  ftab : List Entry
  /-- `BITS[0..BLEN)` (R45). -/
  bits : List Byte
  /-- `OBUF[0..OLEN)` (R46). -/
  obuf : List Byte
  /-- The configuration record (R9, R10, R50): no state of the core, written by nothing. -/
  cfg : Config
  /-- The host's transactions not yet performed, oldest first: the model's own. -/
  port : List HostEvent
  deriving DecidableEq, Repr

/-- The reset state (R49, R351). `cfg` and `port` are the model's own: DESIGN CHOICE (log 3, log 1). -/
def State.reset : State where
  status := .ready
  err := .none
  errInfo := 0
  mode := .idle
  low := 0
  high := 0xFFFFFF
  window := 0
  acc := 0
  nbits := 0
  pending := 0
  rpos := 0
  rbit := 0
  total := 0
  ibuf := []
  sym := []
  dict := []
  ftab := []
  bits := []
  obuf := []
  cfg := Config.reference
  port := []

/-- Why a step of the model stops. The core's own six fault causes are no constructor here: taking one is a next state
(R320). Each of these four is raised only in a state no run reaches, where a guarantee the rules state and rely on does
not hold, so that no rule gives a result (log 4). All four are safe. -/
inductive Fault where
  /-- Raised by a register write whose value does not fit ("a width is imposed only at a register write, and each register
  write states why the value fits", R12). Safe. -/
  | registerOverflow
  /-- Raised by a subtraction whose result is below zero (R12, R162). Safe. -/
  | negativeDifference
  /-- Raised by a division by `TOTAL = 0` ("Division by zero cannot occur", R162). Safe. -/
  | divisionByZero
  /-- Raised by a renormalization that does not end within 24 iterations (R180). Safe. -/
  | loopBound
  deriving DecidableEq, Repr

/-- Why an instruction has no meaning. -/
inductive Refusal where
  /-- Raised by an arm of `exec` that gives its instruction no meaning yet; safe. No arm of this model does. -/
  | notModelled (mnemonic : String)
  deriving DecidableEq, Repr

end Sys2Proof.Machine
end

