-- ==== Sys2Proof/Machine/Ops.lean ====
section
/-! DEFINITION. The named operations over registers and buffers: constants (R7, R8), register codes (R31 to R33, R38), length
registers (R36), capacities (R10), checked arithmetic (R12, R162), reset (R301), fault entry (R320), acceptance (R99) and the
host interface (R70 to R72). -/

namespace Sys2Proof.Machine

/-! ### Constants -/

/-- `PRECISION_LIMIT` (R7). -/
def precisionLimit : Nat := 2 ^ 24 - 1

/-- `FIRST_QTR` (R7). -/
def firstQtr : Nat := precisionLimit / 4 + 1

/-- `HALF` (R7). -/
def half : Nat := 2 * firstQtr

/-- `THIRD_QTR` (R7). -/
def thirdQtr : Nat := 3 * firstQtr

/-- `MAX_TOTAL` (R7), an exclusive bound. -/
def maxTotal : Nat := 2 ^ (24 - 2)

/-- `DICT_BASE` (R8). -/
def dictBase : Nat := 256

/-! ### Register codes and length registers -/

/-- The value of `STATE` (R32). -/
def RunState.code : RunState → Nat
  | .ready => 0
  | .fault => 1

/-- The value of `MODE` (R31). -/
def Mode.code : Mode → Nat
  | .idle => 0
  | .enc => 1
  | .dec => 2

/-- The value of `ERR` (R33, R310). -/
def Cause.code : Cause → Nat
  | .none => 0
  | .formatError => 1
  | .corruptReference => 2
  | .precisionOverflow => 3
  | .modelError => 4
  | .illegalCommand => 5
  | .capacityFault => 6

/-- `ILEN` (R36); the six below are the other length registers. -/
def State.ilen (s : State) : BitVec 32 := BitVec.ofNat 32 s.ibuf.length
def State.slen (s : State) : BitVec 32 := BitVec.ofNat 32 s.sym.length
def State.dcount (s : State) : BitVec 32 := BitVec.ofNat 32 s.dict.length
def State.fcount (s : State) : BitVec 32 := BitVec.ofNat 32 s.ftab.length
def State.blen (s : State) : BitVec 32 := BitVec.ofNat 32 s.bits.length
def State.olen (s : State) : BitVec 32 := BitVec.ofNat 32 s.obuf.length

/-- `WLEN[k]` (R36), which exists for `k < DCOUNT`. -/
def State.wlen (s : State) (k : Nat) : Option (BitVec 32) := (s.dict[k]?).map fun w => BitVec.ofNat 32 w.length

/-! ### Capacities -/

/-- The most elements a 32-bit length register counts (R10, R11). -/
def lengthLimit : Nat := 2 ^ 32 - 1

/-- `cap(X) = min(CAP_X, 2^32 − 1)` (40_bit_channel, R10). -/
def capOf (configured : Nat) : Nat := min configured lengthLimit

/-- `cap(IBUF)`. -/
def State.capIbuf (s : State) : Nat := capOf s.cfg.capIbuf
/-- `cap(SYM)`. -/
def State.capSym (s : State) : Nat := capOf s.cfg.capSym
/-- `cap(DICT words)`. -/
def State.capDictWords (s : State) : Nat := capOf s.cfg.capDictWords
/-- `CAP_WORD_BYTES`, the most bytes of one word. -/
def State.capWordBytes (s : State) : Nat := capOf s.cfg.capWordBytes
/-- `cap(FTAB)`. -/
def State.capFtab (s : State) : Nat := capOf s.cfg.capFtab
/-- `cap(BITS)`. -/
def State.capBits (s : State) : Nat := capOf s.cfg.capBits
/-- `cap(OBUF)`. -/
def State.capObuf (s : State) : Nat := capOf s.cfg.capObuf

/-- The words of a dictionary fit their capacities (R10). -/
def dictFits (s : State) (d : List (List Byte)) : Bool :=
  decide (d.length ≤ s.capDictWords) && d.all fun w => decide (w.length ≤ s.capWordBytes)

/-- The canonical form of the buffers (R40): a buffer is the list of its elements in index order, so equal buffers are equal
lists; the form says that its length register and capacity can hold its length. -/
def Memory.wf (s : State) : Bool :=
  decide (s.ibuf.length ≤ s.capIbuf) && decide (s.sym.length ≤ s.capSym) && dictFits s s.dict &&
  decide (s.ftab.length ≤ s.capFtab) && decide (s.bits.length ≤ s.capBits) && decide (s.obuf.length ≤ s.capObuf)

/-! ### How the body of a command ends -/

/-- How the body of a command ends early. -/
inductive Stop where
  /-- `raise X(info)` (R12). -/
  | raise (x : Cause) (info : Nat)
  /-- A guarantee of the rules does not hold (log 4). -/
  | broken (f : Fault)
  deriving DecidableEq, Repr

/-- The resources `CapacityFault` names in `ERRINFO` (R316). -/
def resSym : Nat := 2
def resDict : Nat := 3
def resFtab : Nat := 4
def resBits : Nat := 5
def resObuf : Nat := 6
def resPending : Nat := 16
def resRpos : Nat := 17

/-- A value written to a register of `w` bits (R12: "each register write states why the value fits"). -/
def fit (w n : Nat) : Except Stop (BitVec w) :=
  if n < 2 ^ w then .ok (BitVec.ofNat w n) else .error (.broken .registerOverflow)

/-- `a − b` (R12: "only ever written where the rules guarantee `a ≥ b`"). -/
def minus (a b : Nat) : Except Stop Nat :=
  if b ≤ a then .ok (a - b) else .error (.broken .negativeDifference)

/-- `a / b`, floor division (R12, R162: "Division by zero cannot occur"). -/
def divide (a b : Nat) : Except Stop Nat :=
  if b = 0 then .error (.broken .divisionByZero) else .ok (a / b)

/-! ### Transient registers and reset -/

/-- `TransientClear` (R51): every transient register at its reset value. -/
def transientClear (s : State) : State :=
  { s with
    low := 0, high := 0xFFFFFF, window := 0, acc := 0, nbits := 0, pending := 0, rpos := 0, rbit := 0 }

/-- The state after hardware reset and after `RST` (R49, R350, R301): every register and buffer at its reset value. The
configuration record is not changed by reset (R351), and the host's later transactions still come. -/
def resetState (s : State) : State := { State.reset with cfg := s.cfg, port := s.port }

/-! ### Fault entry and acceptance -/

/-- A destination set (R320): which buffers, with their length registers, and whether `TOTAL`. -/
structure Dest where
  sym : Bool := false
  dict : Bool := false
  ftab : Bool := false
  total : Bool := false
  bits : Bool := false
  obuf : Bool := false
  deriving DecidableEq, Repr

/-- The union of two destination sets (R320). -/
def destUnion (a b : Dest) : Dest where
  sym := a.sym || b.sym
  dict := a.dict || b.dict
  ftab := a.ftab || b.ftab
  total := a.total || b.total
  bits := a.bits || b.bits
  obuf := a.obuf || b.obuf

/-- `SessionDest(MODE)` (R320). -/
def sessionDest : Mode → Dest
  | .idle => {}
  | .enc => { bits := true }
  | .dec => { sym := true }

/-- The table of destination sets (R320). -/
def destOf : Instr → Dest
  | .nop => {}
  | .rst => {}
  | .encBegin => { bits := true }
  | .encSym _ => { bits := true }
  | .encEnd => { bits := true }
  | .encRun => { bits := true }
  | .bwBit _ => { bits := true }
  | .bwEmit _ => { bits := true }
  | .bwDefer => {}
  | .decBegin => { sym := true }
  | .decSym => { sym := true }
  | .decEnd => {}
  | .decRun => { sym := true }
  | .brBit => {}
  | .fmBuild => { ftab := true, total := true }
  | .fmCheck => {}
  | .dxFind => { dict := true }
  | .dxSub => { sym := true }
  | .dxExp => { obuf := true }
  | .encode => { dict := true, sym := true, ftab := true, total := true, bits := true }
  | .decode => { sym := true, obuf := true }
  | .ser => { obuf := true }
  | .des => { dict := true, ftab := true, total := true, bits := true }
  | .compress => { dict := true, sym := true, ftab := true, total := true, bits := true, obuf := true }
  | .decompress => { dict := true, ftab := true, total := true, bits := true, sym := true, obuf := true }

/-- Every buffer of the set becomes the empty sequence, and `TOTAL` zero if the set holds it (R320). -/
def clearDest (d : Dest) (s : State) : State :=
  { s with
    sym := if d.sym then [] else s.sym
    dict := if d.dict then [] else s.dict
    ftab := if d.ftab then [] else s.ftab
    total := if d.total then 0 else s.total
    bits := if d.bits then [] else s.bits
    obuf := if d.obuf then [] else s.obuf }

/-- `FaultEntry(X, info)` raised in a command whose destination set is `d` (R320). `s` is the state as the command was
accepted: "everything else keeps the value it had when `C` was accepted". -/
def faultEntry (x : Cause) (info : Nat) (d : Dest) (s : State) : State :=
  { transientClear (clearDest (destUnion d (sessionDest s.mode)) s) with
    status := .fault, err := x, errInfo := BitVec.ofNat 64 info, mode := .idle }

/-- The end of a command accepted in state `s`: its own effect, or fault entry with its destination set (R320), or the model
stops where no rule gives a result (log 4). -/
def finish (s : State) (d : Dest) : Except Stop State → Host.Outcome State Fault Refusal
  | .ok t => .next t
  | .error (.raise x info) => .next (faultEntry x info d s)
  | .error (.broken f) => .fault f

/-- The legal `MODE` of a command (R100); `none` is "any". -/
def legalMode : Instr → Option Mode
  | .nop => none
  | .rst => none
  | .encSym _ => some .enc
  | .encEnd => some .enc
  | .bwBit _ => some .enc
  | .bwEmit _ => some .enc
  | .bwDefer => some .enc
  | .decSym => some .dec
  | .decEnd => some .dec
  | .brBit => some .dec
  | .encBegin => some .idle
  | .encRun => some .idle
  | .decBegin => some .idle
  | .decRun => some .idle
  | .fmBuild => some .idle
  | .fmCheck => some .idle
  | .dxFind => some .idle
  | .dxSub => some .idle
  | .dxExp => some .idle
  | .encode => some .idle
  | .decode => some .idle
  | .ser => some .idle
  | .des => some .idle
  | .compress => some .idle
  | .decompress => some .idle

/-- Whether `MODE` is legal for the command (R99, R100). -/
def modeLegal (i : Instr) (m : Mode) : Bool :=
  match legalMode i with
  | none => true
  | some l => l == m

/-- `Accept` (R99) for a word that is the command `i`: ignored in the fault state (R321), `IllegalCommand(w)` in a `MODE` that
is not legal (R315) with the empty destination set, else the body. `RST` alone does not come through here. -/
def accept (i : Instr) (s : State) (body : State → Except Stop State) : Host.Outcome State Fault Refusal :=
  if s.status = .fault then .next s
  else if modeLegal i s.mode then finish s (destOf i) (body s)
  else .next (faultEntry .illegalCommand (encodeWord i).toNat {} s)

/-- `Accept` (R99) for a word that matches no row of rule R100 (R98). -/
def acceptIllegal (w : Command) (s : State) : State :=
  if s.status = .fault then s else faultEntry .illegalCommand w.toNat {} s

/-! ### The host interface -/

/-- A host load is accepted only in `READY` and `IDLE` and only within the capacity; otherwise nothing changes (R70, R72). -/
def hostLoad (s : State) (fits : Bool) (loaded : State) : State :=
  if s.status = .ready ∧ s.mode = .idle ∧ fits = true then loaded else s

/-- `HostLoad(IBUF, bytes)` (R70). -/
def hostLoadIbuf (bytes : List Byte) (s : State) : State :=
  hostLoad s (decide (bytes.length ≤ s.capIbuf)) { s with ibuf := bytes }

/-- `HostLoad(SYM, symbols)` (R70). -/
def hostLoadSym (symbols : List Sym) (s : State) : State :=
  hostLoad s (decide (symbols.length ≤ s.capSym)) { s with sym := symbols }

/-- `HostLoad(DICT, words)` (R70): `DCOUNT` and every `WLEN[k]` with it. -/
def hostLoadDict (words : List (List Byte)) (s : State) : State :=
  hostLoad s (dictFits s words) { s with dict := words }

/-- `HostLoad(FTAB, entries)` (R70). -/
def hostLoadFtab (entries : List Entry) (s : State) : State :=
  hostLoad s (decide (entries.length ≤ s.capFtab)) { s with ftab := entries }

/-- `HostLoad(BITS, bytes)` (R70). -/
def hostLoadBits (bytes : List Byte) (s : State) : State :=
  hostLoad s (decide (bytes.length ≤ s.capBits)) { s with bits := bytes }

/-- `HostLoadTotal(v)` (R70). -/
def hostLoadTotal (v : BitVec 64) (s : State) : State := hostLoad s true { s with total := v }

/-- `HostReadReg(n)` (R71, R38): zero-extended to 64 bits; no value above 18. A read changes no state. -/
def hostReadReg (s : State) (n : Nat) : Option (BitVec 64) :=
  match n with
  | 0 => some (BitVec.ofNat 64 s.status.code)
  | 1 => some (BitVec.ofNat 64 s.err.code)
  | 2 => some s.errInfo
  | 3 => some (BitVec.ofNat 64 s.mode.code)
  | 4 => some (s.low.setWidth 64)
  | 5 => some (s.high.setWidth 64)
  | 6 => some (s.window.setWidth 64)
  | 7 => some (s.acc.setWidth 64)
  | 8 => some (s.nbits.setWidth 64)
  | 9 => some (s.pending.setWidth 64)
  | 10 => some (s.rpos.setWidth 64)
  | 11 => some (s.rbit.setWidth 64)
  | 12 => some (s.ilen.setWidth 64)
  | 13 => some (s.slen.setWidth 64)
  | 14 => some (s.dcount.setWidth 64)
  | 15 => some (s.fcount.setWidth 64)
  | 16 => some s.total
  | 17 => some (s.blen.setWidth 64)
  | 18 => some (s.olen.setWidth 64)
  | _ => none

/-- A field of a table entry (R60). -/
inductive EntryField where
  | sym
  | count
  | cum
  deriving DecidableEq, Repr

/-- A place in one of the seven spaces (R60). -/
inductive Place where
  | reg (n : Nat)
  | ibuf (j : Nat)
  | sym (j : Nat)
  | dict (k j : Nat)
  | ftab (i : Nat) (f : EntryField)
  | bits (j : Nat)
  | obuf (j : Nat)
  deriving DecidableEq, Repr

/-- The space number (R60). -/
def Place.space : Place → Nat
  | .reg _ => 0
  | .ibuf _ => 1
  | .sym _ => 2
  | .dict _ _ => 3
  | .ftab _ _ => 4
  | .bits _ => 5
  | .obuf _ => 6

/-- `HostRead(space, index)` (R71): the element, zero-extended; no value at or beyond the length. A read changes no state and
is allowed in every `MODE` and in the fault state. -/
def hostRead (s : State) (p : Place) : Option (BitVec 64) :=
  match p with
  | .reg n => hostReadReg s n
  | .ibuf j => (s.ibuf[j]?).map (·.setWidth 64)
  | .sym j => (s.sym[j]?).map (·.setWidth 64)
  | .dict k j => (s.dict[k]?).bind fun w => (w[j]?).map (·.setWidth 64)
  | .ftab i .sym => (s.ftab[i]?).map (·.sym.setWidth 64)
  | .ftab i .count => (s.ftab[i]?).map (·.count)
  | .ftab i .cum => (s.ftab[i]?).map (·.cum)
  | .bits j => (s.bits[j]?).map (·.setWidth 64)
  | .obuf j => (s.obuf[j]?).map (·.setWidth 64)

end Sys2Proof.Machine
end

