-- ==== Sys2Proof/Machine/Operands.lean ====
section
/-! DEFINITION. The implicit operands of the commands (R272): a bit of the stream (R62, R79), a little-endian field (R12, R61),
a table entry found by symbol or by cumulative count (R203, R204), a dictionary word matched at a place (R236). -/

namespace Sys2Proof.Machine

/-- Stream bit `n` (R62): bit `7 − (n mod 8)` of byte `n / 8`; 0 at and past the end (R79). -/
def streamBit (bits : List Byte) (n : Nat) : Bit :=
  match bits[n / 8]? with
  | some byte => BitVec.ofNat 1 (byte.toNat / 2 ^ (7 - n % 8))
  | none => 0

/-- The value of a run of bytes, the lowest first (R12 `MemRead`, R61). -/
def leValue : List Byte → Nat
  | [] => 0
  | b :: bs => b.toNat + 256 * leValue bs

/-- `MemRead(B, a, n)` (R12). -/
def memRead (buf : List Byte) (a n : Nat) : Nat := leValue ((buf.drop a).take n)

/-- The `n` bytes `MemWrite` writes for `v`, the lowest first (R12, R61). -/
def leBytes : Nat → Nat → List Byte
  | 0, _ => []
  | n + 1, v => BitVec.ofNat 8 (v % 256) :: leBytes n (v / 256)

/-- `FindSym(s)` (R203): the entry with symbol `s`. -/
def findSym (ftab : List Entry) (s : Sym) : Option Entry := ftab.find? fun e => e.sym == s

/-- The range of an entry contains the target: `cum ≤ target < cum + count` (R204). -/
def inRange (e : Entry) (target : Nat) : Bool :=
  decide (e.cum.toNat ≤ target) && decide (target < e.cum.toNat + e.count.toNat)

/-- `FindCum(target)` (R204): the entry whose range contains the target ("The model may compute the same index any way it
likes"). -/
def findCum (ftab : List Entry) (target : Nat) : Option Entry := ftab.find? fun e => inRange e target

/-- The binary search of rule R204 on `FTAB[lo..hi)`, which answers an index; `fuel` bounds its rounds. -/
def findCumBinary (ftab : List Entry) (target : Nat) : (fuel lo hi : Nat) → Option Nat
  | 0, _, _ => none
  | fuel + 1, lo, hi =>
    if lo < hi then
      match ftab[(lo + hi) / 2]? with
      | none => none
      | some e =>
        if target < e.cum.toNat then findCumBinary ftab target fuel lo ((lo + hi) / 2)
        else if e.cum.toNat + e.count.toNat ≤ target then findCumBinary ftab target fuel ((lo + hi) / 2 + 1) hi
        else some ((lo + hi) / 2)
    else none

/-- `IsWord(c)` (R230): an ASCII letter or the apostrophe. -/
def isWord (c : Byte) : Bool :=
  (decide (0x41 ≤ c.toNat) && decide (c.toNat ≤ 0x5A)) ||
  (decide (0x61 ≤ c.toNat) && decide (c.toNat ≤ 0x7A)) || c.toNat == 0x27

/-- The next byte is no word character or the end of the input (R236). -/
def endsWord : List Byte → Bool
  | [] => true
  | c :: _ => !isWord c

/-- Word `w` matches at the place where the input goes on as `rest` (R236): a word of length 0 never does (D21). -/
def matchesAt (w rest : List Byte) : Bool :=
  decide (1 ≤ w.length) && w.isPrefixOf rest && endsWord (rest.drop w.length)

/-- The first word of the dictionary, tried in index order from `k`, that matches (R236): its index and its length. -/
def firstMatch : (k : Nat) → List (List Byte) → List Byte → Option (Nat × Nat)
  | _, [], _ => none
  | k, w :: ws, rest => if matchesAt w rest then some (k, w.length) else firstMatch (k + 1) ws rest

/-- The symbol `256 + k` of dictionary word `k` (R8, R91). Where it does not fit 32 bits no rule states the result: a free
value (log 5). -/
def dictSymbol (k : Nat) : Sym :=
  if dictBase + k < 2 ^ 32 then BitVec.ofNat 32 (dictBase + k) else Config.symbolBeyondU32 k

/-- The symbol of a raw byte (R91). -/
def rawSymbol (b : Byte) : Sym := b.setWidth 32

end Sys2Proof.Machine
end

