-- ==== Sys2Proof/Machine/Flags.lean ====
section
/-! DEFINITION. The tests that steer the core. It has no condition codes (R35): the comparisons of renormalization are
recomputed and stored nowhere, and the table's validity is tested before any coding. -/

namespace Sys2Proof.Machine

/-- The case of a renormalization iteration (R163). -/
inductive RenormCase where
  | e1
  | e2
  | e3
  | stop
  deriving DecidableEq, Repr

/-- The classification, tested in the order E1, E2, E3, the first that holds (R163, D9). -/
def classify (low high : Bound) : RenormCase :=
  if high.toNat < half then .e1
  else if half ≤ low.toNat then .e2
  else if firstQtr ≤ low.toNat ∧ high.toNat < thirdQtr then .e3
  else .stop

/-- The entries from index `i` on, with the expected cumulative start and the symbol before (R202): `cum`, then `count`, then
the symbol order. Answers the closing sum. -/
def checkEntries : (i expect : Nat) → (before : Option Sym) → List Entry → Except Stop Nat
  | _, expect, _, [] => .ok expect
  | i, expect, before, e :: es =>
    if e.cum.toNat ≠ expect then .error (.raise .modelError i)
    else if e.count.toNat = 0 then .error (.raise .modelError i)
    else if before.any (fun p => decide (e.sym.toNat ≤ p.toNat)) then .error (.raise .modelError i)
    else checkEntries (i + 1) (expect + e.count.toNat) (some e.sym) es

/-- `TableCheck` (R202): the precision bound first, then the entries, the closing sum last. -/
def tableCheck (s : State) : Except Stop Unit :=
  if maxTotal ≤ s.total.toNat then .error (.raise .precisionOverflow s.total.toNat)
  else
    match checkEntries 0 0 none s.ftab with
    | .error stop => .error stop
    | .ok sum => if sum ≠ s.total.toNat then .error (.raise .modelError s.ftab.length) else .ok ()

end Sys2Proof.Machine
end

