-- ==== Sys2Proof/Machine/FrequencyModel.lean ====
section
/-! DEFINITION. The frequency model builder (42_frequency_model): `FM.BUILD` and `FM.CHECK`. -/

namespace Sys2Proof.Machine

/-- Insertion into a list ordered by `before`; of two elements neither before the other, one stays. -/
def insertDistinct {α : Type} (before : α → α → Bool) (a : α) : List α → List α
  | [] => [a]
  | b :: bs =>
    if before a b then a :: b :: bs
    else if before b a then b :: insertDistinct before a bs
    else b :: bs

/-- The distinct elements of a list, in the order `before`. -/
def sortDistinct {α : Type} (before : α → α → Bool) (l : List α) : List α := l.foldr (insertDistinct before) []

/-- "the distinct values among SYM[0..SLEN), in ascending numeric order" (R201). -/
def distinctIds (syms : List Sym) : List Sym := sortDistinct (fun a b => decide (a.toNat < b.toNat)) syms

/-- The entries of the ids `ds`, from the cumulative start `running` on (R201). -/
def buildEntries (syms : List Sym) : (running : Nat) → List Sym → List Entry
  | _, [] => []
  | running, d :: ds =>
    ⟨d, BitVec.ofNat 64 (syms.count d), BitVec.ofNat 64 running⟩ :: buildEntries syms (running + syms.count d) ds

/-- The sum of the counts of the ids (R201): the last value of `running`. -/
def countSum (syms : List Sym) : List Sym → Nat
  | [] => 0
  | d :: ds => syms.count d + countSum syms ds

/-- The body of `FM.BUILD` (R201). -/
def fmBuildBody (s : State) : Except Stop State :=
  if maxTotal ≤ s.sym.length then .error (.raise .precisionOverflow s.sym.length)
  else if s.capFtab < (distinctIds s.sym).length then .error (.raise .capacityFault resFtab)
  else
    .ok { s with
      ftab := buildEntries s.sym 0 (distinctIds s.sym)
      total := BitVec.ofNat 64 (countSum s.sym (distinctIds s.sym)) }

/-- `FM.BUILD` (R201). -/
def execFmBuild (s : State) : Host.Outcome State Fault Refusal := accept .fmBuild s fmBuildBody

/-- The body of `FM.CHECK` (R202): nothing changes where the table passes. -/
def fmCheckBody (s : State) : Except Stop State := do
  tableCheck s
  .ok s

/-- `FM.CHECK` (R202). -/
def execFmCheck (s : State) : Host.Outcome State Fault Refusal := accept .fmCheck s fmCheckBody

end Sys2Proof.Machine
end

