-- ==== Sys2Proof/Machine/Dictionary.lean ====
section
/-! DEFINITION. The dictionary preprocessor (43_dictionary): `DX.FIND`, `DX.SUB`, `DX.EXP`. -/

namespace Sys2Proof.Machine

/-! ### Discovery, filter and ranking -/

/-- The maximal runs of word characters of the input, in order (R231); `run` is the run that is open. -/
def wordRuns : (run : List Byte) → List Byte → List (List Byte)
  | run, [] => if run.isEmpty then [] else [run]
  | run, c :: cs =>
    if isWord c then wordRuns (run ++ [c]) cs
    else if run.isEmpty then wordRuns [] cs
    else run :: wordRuns [] cs

/-- The counted tokens (R231): runs of at least `DICT_MIN_WORD_LEN` bytes. -/
def tokens (cfg : Config) (input : List Byte) : List (List Byte) :=
  (wordRuns [] input).filter fun w => decide (cfg.dictMinWordLen ≤ w.length)

/-- `L(w)·F(w)`, the estimated savings of a word (R232, R234). -/
def savings (toks : List (List Byte)) (w : List Byte) : Nat := w.length * toks.count w

/-- The profitability filter (R233). -/
def qualifies (cfg : Config) (toks : List (List Byte)) (w : List Byte) : Bool :=
  decide (cfg.dictMinFreqExcl < toks.count w) && decide (w.length + cfg.dictEntryOverhead < savings toks w)

/-- Lexicographically before, as unsigned bytes, a proper initial part before the longer word (R234). -/
def bytesBefore : List Byte → List Byte → Bool
  | [], [] => false
  | [], _ :: _ => true
  | _ :: _, [] => false
  | a :: as, b :: bs =>
    if a.toNat < b.toNat then true
    else if b.toNat < a.toNat then false
    else bytesBefore as bs

/-- The ranking (R234): savings descending, ties by bytes ascending. -/
def rankedBefore (toks : List (List Byte)) (a b : List Byte) : Bool :=
  decide (savings toks b < savings toks a) || (savings toks a == savings toks b && bytesBefore a b)

/-- The qualifying words in their order (R233, R234), each once. -/
def rankedWords (cfg : Config) (input : List Byte) : List (List Byte) :=
  sortDistinct (rankedBefore (tokens cfg input)) ((tokens cfg input).filter (qualifies cfg (tokens cfg input)))

/-- The dictionary `DX.FIND` builds (R234, R235): the first `DICT_MAX_WORDS` of the order; none below the input threshold. -/
def findDictionary (cfg : Config) (input : List Byte) : List (List Byte) :=
  if input.length < cfg.dictMinInputBytes then [] else (rankedWords cfg input).take cfg.dictMaxWords

/-- The body of `DX.FIND` (R235). -/
def dxFindBody (s : State) : Except Stop State :=
  if dictFits s (findDictionary s.cfg s.ibuf) then .ok { s with dict := findDictionary s.cfg s.ibuf }
  else .error (.raise .capacityFault resDict)

/-- `DX.FIND` (R235). -/
def execDxFind (s : State) : Host.Outcome State Fault Refusal := accept .dxFind s dxFindBody

/-! ### Substitution -/

/-- The scan of rule R236 over the rest of the input. `inRun`: the byte before is a word character; `skip`: how many bytes of
a matched word are still to be passed over. -/
def substScan (dict : List (List Byte)) : (inRun : Bool) → (skip : Nat) → List Byte → List Sym
  | _, _, [] => []
  | _, skip + 1, c :: cs => substScan dict (isWord c) skip cs
  | inRun, 0, c :: cs =>
    if isWord c && !inRun then
      match firstMatch 0 dict (c :: cs) with
      | some (k, len) => dictSymbol k :: substScan dict (isWord c) (len - 1) cs
      | none => rawSymbol c :: substScan dict (isWord c) 0 cs
    else rawSymbol c :: substScan dict (isWord c) 0 cs

/-- `Substitute` (R236). -/
def substitute (dict : List (List Byte)) (input : List Byte) : List Sym := substScan dict false 0 input

/-- The body of `DX.SUB` (R237). -/
def dxSubBody (s : State) : Except Stop State :=
  if s.capSym < (substitute s.dict s.ibuf).length then .error (.raise .capacityFault resSym)
  else .ok { s with sym := substitute s.dict s.ibuf }

/-- `DX.SUB` (R237). -/
def execDxSub (s : State) : Host.Outcome State Fault Refusal := accept .dxSub s dxSubBody

/-! ### Expansion -/

/-- What one symbol expands to (R238): its byte, or the word's bytes; `none` for a reference beyond the dictionary. -/
def expandSymbol (dict : List (List Byte)) (x : Sym) : Option (List Byte) :=
  if x.toNat < dictBase then some [x.setWidth 8] else dict[x.toNat - dictBase]?

/-- The loop of `DX.EXP` (R238): for each symbol the reference test before the capacity test (R319). -/
def expandFrom (dict : List (List Byte)) (cap : Nat) : (out : List Byte) → List Sym → Except Stop (List Byte)
  | out, [] => .ok out
  | out, x :: xs =>
    match expandSymbol dict x with
    | none => .error (.raise .corruptReference x.toNat)
    | some bytes =>
      if cap < (out ++ bytes).length then .error (.raise .capacityFault resObuf)
      else expandFrom dict cap (out ++ bytes) xs

/-- The body of `DX.EXP` (R238). -/
def dxExpBody (s : State) : Except Stop State := do
  let out ← expandFrom s.dict s.capObuf [] s.sym
  .ok { s with obuf := out }

/-- `DX.EXP` (R238). -/
def execDxExp (s : State) : Host.Outcome State Fault Refusal := accept .dxExp s dxExpBody

end Sys2Proof.Machine
end

