-- ==== Sys2Proof/Machine/BitChannel.lean ====
section
/-! DEFINITION. The bit channel (40_bit_channel): the writer with its pending-bit counter, the reader, and the commands
`BW.BIT`, `BW.EMIT`, `BW.DEFER`, `BR.BIT`. -/

namespace Sys2Proof.Machine

/-- `WriterInit` (R130). -/
def writerInit (s : State) : State := { s with acc := 0, nbits := 0, pending := 0, bits := [] }

/-- A byte appended to `BITS` (R131, R134): `CapacityFault(5)` at the capacity. -/
def appendByte (v : Nat) (s : State) : Except Stop State :=
  if s.bits.length = s.capBits then .error (.raise .capacityFault resBits)
  else do
    let byte ← fit 8 v
    .ok { s with bits := s.bits ++ [byte], acc := 0, nbits := 0 }

/-- `WriteBit(b)` (R131). -/
def writeBit (b : Bit) (s : State) : Except Stop State :=
  if s.nbits = 7 then appendByte (2 * s.acc.toNat + b.toNat) s
  else do
    let v ← fit 8 (2 * s.acc.toNat + b.toNat)
    .ok { s with acc := v, nbits := s.nbits + 1 }

/-- `n` times `WriteBit(b)`, the loop of `Emit` (R132). -/
def writeBits : (n : Nat) → Bit → State → Except Stop State
  | 0, _, s => .ok s
  | n + 1, b, s => do
    let s ← writeBit b s
    writeBits n b s

/-- `Emit(b)` (R132): `b`, then `1 − b` once per pending bit, then the counter is clear. -/
def emit (b : Bit) (s : State) : Except Stop State := do
  let s ← writeBit b s
  let s ← writeBits s.pending.toNat (~~~b) s
  .ok { s with pending := 0 }

/-- `Defer` (R133). -/
def defer (s : State) : Except Stop State :=
  if s.pending.toNat = 2 ^ 32 - 1 then .error (.raise .capacityFault resPending)
  else .ok { s with pending := s.pending + 1 }

/-- The zero padding of the last partial byte (R134). -/
def padByte (s : State) : Except Stop State :=
  if s.nbits.toNat = 0 then .ok s else appendByte (s.acc.toNat * 2 ^ (8 - s.nbits.toNat)) s

/-- `WriterFinish` (R134). -/
def writerFinish (s : State) : Except Stop State := do
  let s ← defer s
  let s ← emit 1 s
  padByte s

/-- `ReadBit` (R136): the bit, and the state with the cursor advanced. -/
def readBit (s : State) : Except Stop (Bit × State) :=
  if s.rpos.toNat = 2 ^ 32 - 1 then .error (.raise .capacityFault resRpos)
  else .ok (streamBit s.bits s.rpos.toNat, { s with rpos := s.rpos + 1 })

/-- `WINDOW <- 2·WINDOW + ReadBit()` (R135, R170). -/
def shiftWindow (s : State) : Except Stop State := do
  let (bit, s) ← readBit s
  let w ← fit 24 (2 * s.window.toNat + bit.toNat)
  .ok { s with window := w }

/-- `n` shifts of the window, the loop of `ReaderInit` (R135). -/
def shiftWindows : Nat → State → Except Stop State
  | 0, s => .ok s
  | n + 1, s => do
    let s ← shiftWindow s
    shiftWindows n s

/-- `ReaderInit` (R135): the window primed with the first 24 bits. -/
def readerInit (s : State) : Except Stop State := shiftWindows 24 { s with rpos := 0, window := 0 }

/-- `BW.BIT b` (R137). -/
def execBwBit (b : Bit) (s : State) : Host.Outcome State Fault Refusal := accept (.bwBit b) s (writeBit b)

/-- `BW.EMIT b` (R138). -/
def execBwEmit (b : Bit) (s : State) : Host.Outcome State Fault Refusal := accept (.bwEmit b) s (emit b)

/-- `BW.DEFER` (R139). -/
def execBwDefer (s : State) : Host.Outcome State Fault Refusal := accept .bwDefer s defer

/-- The body of `BR.BIT` (R140): the bit goes to `RBIT`, `WINDOW` is not changed. -/
def brBitBody (s : State) : Except Stop State := do
  let (bit, s) ← readBit s
  .ok { s with rbit := bit }

/-- `BR.BIT` (R140). -/
def execBrBit (s : State) : Host.Outcome State Fault Refusal := accept .brBit s brBitBody

end Sys2Proof.Machine
end

