-- ==== Sys2Proof/Machine/IntervalCodec.lean ====
section
/-! DEFINITION. The interval codec (41_interval_codec): narrowing, renormalization, and the commands `ENC.*` and `DEC.*`. -/

namespace Sys2Proof.Machine

/-! ### Micro-operations -/

/-- `IntervalInit` (R160). -/
def intervalInit (s : State) : State := { s with low := 0, high := BitVec.ofNat 24 precisionLimit }

/-- `range = HIGH − LOW + 1` (R161, R162): a 25-bit value. -/
def rangeOf (s : State) : Except Stop Nat := do
  let width ← minus s.high.toNat s.low.toNat
  .ok (width + 1)

/-- `Narrow(cs, ce, T)` (R161): both bounds from the old `LOW` and the old range (D10). -/
def narrow (cs ce T : Nat) (s : State) : Except Stop State := do
  let range ← rangeOf s
  let upper ← divide (range * ce) T
  let lower ← divide (range * cs) T
  let newHigh ← minus (s.low.toNat + upper) 1
  let high ← fit 24 newHigh
  let low ← fit 24 (s.low.toNat + lower)
  .ok { s with high := high, low := low }

/-- `Scale` (R168): `LOW` doubled, `HIGH` doubled and filled with 1 (D7). -/
def scale (s : State) : Except Stop State := do
  let low ← fit 24 (2 * s.low.toNat)
  let high ← fit 24 (2 * s.high.toNat + 1)
  .ok { s with low := low, high := high }

/-- `d` subtracted from both bounds (R165, R166). -/
def lowerBounds (d : Nat) (s : State) : Except Stop State := do
  let low ← minus s.low.toNat d
  let high ← minus s.high.toNat d
  .ok { s with low := BitVec.ofNat 24 low, high := BitVec.ofNat 24 high }

/-- `d` subtracted from the decoder's window as well (R170, D8). -/
def lowerWindow (d : Nat) (s : State) : Except Stop State := do
  let window ← minus s.window.toNat d
  .ok { s with window := BitVec.ofNat 24 window }

/-- One iteration of `RenormEnc` before its `Scale` (R164 to R166). -/
def encCase (c : RenormCase) (s : State) : Except Stop State :=
  match c with
  | .e1 => emit 0 s
  | .e2 => do
    let s ← emit 1 s
    lowerBounds half s
  | .e3 => do
    let s ← defer s
    lowerBounds firstQtr s
  | .stop => .ok s

/-- The loop of `RenormEnc` (R163) within `fuel` iterations. -/
def renormEncLoop : (fuel : Nat) → State → Except Stop State
  | 0, s => if classify s.low s.high = .stop then .ok s else .error (.broken .loopBound)
  | fuel + 1, s =>
    if classify s.low s.high = .stop then .ok s
    else do
      let s ← encCase (classify s.low s.high) s
      let s ← scale s
      renormEncLoop fuel s

/-- `RenormEnc` (R163): "at most 24 times per call" (R180). -/
def renormEnc (s : State) : Except Stop State := renormEncLoop 24 s

/-- One iteration of `RenormDec` before its `Scale` (R170): from `LOW` and `HIGH` alone. -/
def decCase (c : RenormCase) (s : State) : Except Stop State :=
  match c with
  | .e1 => .ok s
  | .e2 => do
    let s ← lowerBounds half s
    lowerWindow half s
  | .e3 => do
    let s ← lowerBounds firstQtr s
    lowerWindow firstQtr s
  | .stop => .ok s

/-- The loop of `RenormDec` (R170) within `fuel` iterations. -/
def renormDecLoop : (fuel : Nat) → State → Except Stop State
  | 0, s => if classify s.low s.high = .stop then .ok s else .error (.broken .loopBound)
  | fuel + 1, s =>
    if classify s.low s.high = .stop then .ok s
    else do
      let s ← decCase (classify s.low s.high) s
      let s ← scale s
      let s ← shiftWindow s
      renormDecLoop fuel s

/-- `RenormDec` (R170), at most 24 iterations (R180). -/
def renormDec (s : State) : Except Stop State := renormDecLoop 24 s

/-- `DecodeTarget(T)` (R169). -/
def decodeTarget (T : Nat) (s : State) : Except Stop Nat := do
  let range ← rangeOf s
  let offset ← minus s.window.toNat s.low.toNat
  let numerator ← minus ((offset + 1) * T) 1
  divide numerator range

/-! ### Encode commands -/

/-- The body of `ENC.BEGIN` (R171). -/
def encBeginBody (s : State) : Except Stop State := do
  tableCheck s
  .ok { intervalInit (writerInit s) with mode := .enc }

/-- `ENC.BEGIN` (R171). -/
def execEncBegin (s : State) : Host.Outcome State Fault Refusal := accept .encBegin s encBeginBody

/-- `EncodeSymbol(s)` (R172), for any 32-bit symbol. -/
def encodeSymbol (x : Sym) (s : State) : Except Stop State :=
  match findSym s.ftab x with
  | none => .error (.raise .modelError x.toNat)
  | some e => do
    let s ← narrow e.cum.toNat (e.cum.toNat + e.count.toNat) s.total.toNat s
    renormEnc s

/-- `ENC.SYM s` (R172). -/
def execEncSym (x : Sym) (s : State) : Host.Outcome State Fault Refusal := accept (.encSym x) s (encodeSymbol x)

/-- The body of `ENC.END` (R173). -/
def encEndBody (s : State) : Except Stop State := do
  let s ← writerFinish s
  .ok { transientClear s with mode := .idle }

/-- `ENC.END` (R173). -/
def execEncEnd (s : State) : Host.Outcome State Fault Refusal := accept .encEnd s encEndBody

/-- The symbols of a list coded in order (R174). -/
def encodeSymbols : List Sym → State → Except Stop State
  | [], s => .ok s
  | x :: xs, s => do
    let s ← encodeSymbol x s
    encodeSymbols xs s

/-- The body of `ENC.RUN` (R174): with no symbol, the empty stream and no session (D14). -/
def encRunBody (s : State) : Except Stop State :=
  if s.sym.length = 0 then .ok { s with bits := [] }
  else do
    let s ← encBeginBody s
    let s ← encodeSymbols s.sym s
    encEndBody s

/-- `ENC.RUN` (R174). -/
def execEncRun (s : State) : Host.Outcome State Fault Refusal := accept .encRun s encRunBody

/-! ### Decode commands -/

/-- The body of `DEC.BEGIN` (R175). -/
def decBeginBody (s : State) : Except Stop State := do
  tableCheck s
  let s ← readerInit { s with sym := [] }
  .ok { intervalInit s with mode := .dec }

/-- `DEC.BEGIN` (R175). -/
def execDecBegin (s : State) : Host.Outcome State Fault Refusal := accept .decBegin s decBeginBody

/-- `DecodeSymbol` (R176). -/
def decodeSymbol (s : State) : Except Stop State := do
  let target ← decodeTarget s.total.toNat s
  match findCum s.ftab target with
  | none => .error (.raise .modelError target)
  | some e =>
    if s.sym.length = s.capSym then .error (.raise .capacityFault resSym)
    else do
      let s ← narrow e.cum.toNat (e.cum.toNat + e.count.toNat) s.total.toNat { s with sym := s.sym ++ [e.sym] }
      renormDec s

/-- The body of `DEC.SYM` (R176): no symbol beyond `TOTAL`. -/
def decSymBody (s : State) : Except Stop State :=
  if s.total.toNat ≤ s.sym.length then .error (.raise .illegalCommand (encodeWord .decSym).toNat)
  else decodeSymbol s

/-- `DEC.SYM` (R176). -/
def execDecSym (s : State) : Host.Outcome State Fault Refusal := accept .decSym s decSymBody

/-- The body of `DEC.END` (R177). -/
def decEndBody (s : State) : Except Stop State := .ok { transientClear s with mode := .idle }

/-- `DEC.END` (R177). -/
def execDecEnd (s : State) : Host.Outcome State Fault Refusal := accept .decEnd s decEndBody

/-- `n` times `DecodeSymbol` (R178). -/
def decodeSymbols : Nat → State → Except Stop State
  | 0, s => .ok s
  | n + 1, s => do
    let s ← decodeSymbol s
    decodeSymbols n s

/-- The body of `DEC.RUN` (R178): with `TOTAL = 0`, no symbols and no session (D14). -/
def decRunBody (s : State) : Except Stop State := do
  tableCheck s
  if s.total.toNat = 0 then .ok { s with sym := [] }
  else do
    let s ← decBeginBody s
    let s ← decodeSymbols s.total.toNat s
    decEndBody s

/-- `DEC.RUN` (R178). -/
def execDecRun (s : State) : Host.Outcome State Fault Refusal := accept .decRun s decRunBody

end Sys2Proof.Machine
end

