-- ==== Sys2Proof/Machine/Artifact.lean ====
section
/-! DEFINITION. Orchestration and the artifact codec (44_orchestration_artifact): `ENCODE`, `DECODE`, `SER`, `DES`, `COMPRESS`,
`DECOMPRESS`. -/

namespace Sys2Proof.Machine

/-! ### Encoder and decoder -/

/-- The body of `ENCODE` (R260). -/
def encodeBody (s : State) : Except Stop State := do
  let s ← dxFindBody s
  let s ← dxSubBody s
  let s ← fmBuildBody s
  encRunBody s

/-- `ENCODE` (R260). -/
def execEncode (s : State) : Host.Outcome State Fault Refusal := accept .encode s encodeBody

/-- The body of `DECODE` (R261). -/
def decodeBody (s : State) : Except Stop State := do
  let s ← decRunBody s
  dxExpBody s

/-- `DECODE` (R261). -/
def execDecode (s : State) : Host.Outcome State Fault Refusal := accept .decode s decodeBody

/-! ### The flattened artifact -/

/-- One dictionary word of the layout (R92): `word_len`, then its bytes. -/
def serWord (w : List Byte) : List Byte := leBytes 4 w.length ++ w

/-- One table entry of the layout (R92): `symbol_id`, `count`, `cumulative_start`. -/
def serEntry (e : Entry) : List Byte := leBytes 4 e.sym.toNat ++ leBytes 8 e.count.toNat ++ leBytes 8 e.cum.toNat

/-- The flattened artifact (R92, R265, R266). -/
def serialize (dict : List (List Byte)) (ftab : List Entry) (total : BitVec 64) (bits : List Byte) : List Byte :=
  leBytes 4 dict.length ++ dict.flatMap serWord ++
  leBytes 4 ftab.length ++ ftab.flatMap serEntry ++
  leBytes 8 total.toNat ++ leBytes 4 bits.length ++ bits

/-- The size of the flattened artifact (R93). -/
def serSize (s : State) : Nat :=
  20 + (s.dict.map fun w => 4 + w.length).sum + 20 * s.ftab.length + s.bits.length

/-- The body of `SER` (R266). -/
def serBody (s : State) : Except Stop State :=
  if s.capObuf < serSize s then .error (.raise .capacityFault resObuf)
  else .ok { s with obuf := serialize s.dict s.ftab s.total s.bits }

/-- `SER` (R266). -/
def execSer (s : State) : Host.Outcome State Fault Refusal := accept .ser s serBody

/-- `Need(n)` at `pos` (R267). -/
def need (buf : List Byte) (pos n : Nat) : Except Stop Unit :=
  if buf.length < pos + n then .error (.raise .formatError pos) else .ok ()

/-- `Get32()` and `Get64()` at `pos` (R267): an `n`-byte field and the position after it. -/
def getField (buf : List Byte) (n pos : Nat) : Except Stop (Nat × Nat) := do
  need buf pos n
  .ok (memRead buf pos n, pos + n)

/-- `GetBytes(n)` at `pos` (R267). -/
def getBytes (buf : List Byte) (n pos : Nat) : Except Stop (List Byte × Nat) := do
  need buf pos n
  .ok ((buf.drop pos).take n, pos + n)

/-- The words of the dictionary (R267): for each its length, the capacity test, its bytes. -/
def getWords (buf : List Byte) (capWord : Nat) : (count pos : Nat) → Except Stop (List (List Byte) × Nat)
  | 0, pos => .ok ([], pos)
  | count + 1, pos => do
    let (len, pos) ← getField buf 4 pos
    if capWord < len then .error (.raise .capacityFault resDict)
    else do
      let (w, pos) ← getBytes buf len pos
      let (ws, pos) ← getWords buf capWord count pos
      .ok (w :: ws, pos)

/-- The entries of the table (R267): `sym`, `count`, `cum` in this order. -/
def getEntries (buf : List Byte) : (count pos : Nat) → Except Stop (List Entry × Nat)
  | 0, pos => .ok ([], pos)
  | count + 1, pos => do
    let (x, pos) ← getField buf 4 pos
    let (c, pos) ← getField buf 8 pos
    let (start, pos) ← getField buf 8 pos
    let (es, pos) ← getEntries buf count pos
    .ok (⟨BitVec.ofNat 32 x, BitVec.ofNat 64 c, BitVec.ofNat 64 start⟩ :: es, pos)

/-- The body of `DES` (R267): nothing is written until all of it is parsed; bytes after the bitstream are ignored. -/
def desBody (s : State) : Except Stop State := do
  let (D, pos) ← getField s.ibuf 4 0
  if s.capDictWords < D then .error (.raise .capacityFault resDict)
  else do
    let (words, pos) ← getWords s.ibuf s.capWordBytes D pos
    let (F, pos) ← getField s.ibuf 4 pos
    if s.capFtab < F then .error (.raise .capacityFault resFtab)
    else do
      let (entries, pos) ← getEntries s.ibuf F pos
      let (T, pos) ← getField s.ibuf 8 pos
      let (B, pos) ← getField s.ibuf 4 pos
      if s.capBits < B then .error (.raise .capacityFault resBits)
      else do
        let (bits, _) ← getBytes s.ibuf B pos
        .ok { s with dict := words, ftab := entries, total := BitVec.ofNat 64 T, bits := bits }

/-- `DES` (R267). -/
def execDes (s : State) : Host.Outcome State Fault Refusal := accept .des s desBody

/-! ### Compress and decompress -/

/-- The body of `COMPRESS` (R268). -/
def compressBody (s : State) : Except Stop State := do
  let s ← encodeBody s
  serBody s

/-- `COMPRESS` (R268). -/
def execCompress (s : State) : Host.Outcome State Fault Refusal := accept .compress s compressBody

/-- The body of `DECOMPRESS` (R269). -/
def decompressBody (s : State) : Except Stop State := do
  let s ← desBody s
  decodeBody s

/-- `DECOMPRESS` (R269). -/
def execDecompress (s : State) : Host.Outcome State Fault Refusal := accept .decompress s decompressBody

end Sys2Proof.Machine
end

