-- ==== Sys2Proof/Machine/System.lean ====
section
/-! DEFINITION. The system commands (45_system): `NOP` and `RST`. -/

namespace Sys2Proof.Machine

/-- `NOP` (R300): changes no register and no buffer; in the fault state it is ignored, which is the same. -/
def execNop (s : State) : Host.Outcome State Fault Refusal := accept .nop s fun s => .ok s

/-- `RST` (R301): legal in every `MODE` and both values of `STATE`, the reset state (R49). -/
def execRst (s : State) : Host.Outcome State Fault Refusal := .next (resetState s)

end Sys2Proof.Machine
end

