-- ==== Sys2Proof/Machine/Dispatch.lean ====
section
/-! DEFINITION. One arm per command, each one direct call of its meaning. -/

namespace Sys2Proof.Machine

def exec (i : Instr) (s : State) : Host.Outcome State Fault Refusal :=
  match i with
  | .nop => Sys2Proof.Machine.execNop s
  | .rst => Sys2Proof.Machine.execRst s
  | .encBegin => Sys2Proof.Machine.execEncBegin s
  | .encSym x => Sys2Proof.Machine.execEncSym x s
  | .encEnd => Sys2Proof.Machine.execEncEnd s
  | .encRun => Sys2Proof.Machine.execEncRun s
  | .bwBit b => Sys2Proof.Machine.execBwBit b s
  | .bwEmit b => Sys2Proof.Machine.execBwEmit b s
  | .bwDefer => Sys2Proof.Machine.execBwDefer s
  | .decBegin => Sys2Proof.Machine.execDecBegin s
  | .decSym => Sys2Proof.Machine.execDecSym s
  | .decEnd => Sys2Proof.Machine.execDecEnd s
  | .decRun => Sys2Proof.Machine.execDecRun s
  | .brBit => Sys2Proof.Machine.execBrBit s
  | .fmBuild => Sys2Proof.Machine.execFmBuild s
  | .fmCheck => Sys2Proof.Machine.execFmCheck s
  | .dxFind => Sys2Proof.Machine.execDxFind s
  | .dxSub => Sys2Proof.Machine.execDxSub s
  | .dxExp => Sys2Proof.Machine.execDxExp s
  | .encode => Sys2Proof.Machine.execEncode s
  | .decode => Sys2Proof.Machine.execDecode s
  | .ser => Sys2Proof.Machine.execSer s
  | .des => Sys2Proof.Machine.execDes s
  | .compress => Sys2Proof.Machine.execCompress s
  | .decompress => Sys2Proof.Machine.execDecompress s

end Sys2Proof.Machine
end

