-- ==== Sys2Proof/Machine/Port.lean ====
section
/-! DEFINITION. What one transaction of the host does (R30, R70, R99, R350). -/

namespace Sys2Proof.Machine

/-- A command word presented at the command port (R99). -/
def runCommand (w : Command) (s : State) : Host.Outcome State Fault Refusal :=
  match decodeWord w with
  | .ok i => exec i s
  | .error _ => .next (acceptIllegal w s)

/-- One transaction of the host: a command, a load, hardware reset. -/
def runEvent (e : HostEvent) (s : State) : Host.Outcome State Fault Refusal :=
  match e with
  | .command w => runCommand w s
  | .loadIbuf bytes => .next (hostLoadIbuf bytes s)
  | .loadSym symbols => .next (hostLoadSym symbols s)
  | .loadDict words => .next (hostLoadDict words s)
  | .loadFtab entries => .next (hostLoadFtab entries s)
  | .loadBits bytes => .next (hostLoadBits bytes s)
  | .loadTotal v => .next (hostLoadTotal v s)
  | .hardReset => .next (resetState s)

/-- The oldest transaction is performed; where the host sends none, nothing happens (log 1). -/
def runPort (s : State) : Host.Outcome State Fault Refusal :=
  match s.port with
  | [] => .next s
  | e :: rest => runEvent e { s with port := rest }

/-- A state whose next transaction is the command word `w`. -/
def presentWord (w : Command) (s : State) : State := { s with port := .command w :: s.port }

end Sys2Proof.Machine
end

