-- ==== Sys2Proof/Machine/Step.lean ====
section
/-! DEFINITION. One step of the machine: the oldest transaction of the host, performed whole (R68). -/

namespace Sys2Proof.Machine

/-- One step (R30, R68). -/
def step (s : State) : Host.Outcome State Fault Refusal := runPort s

/-- `s` with the word of `nbits` bits presented at the command port as the next transaction (R30, log 1). -/
def State.withFetchWord (s : State) (nbits w : Nat) : State := presentWord (BitVec.ofNat 32 (w % 2 ^ nbits)) s

end Sys2Proof.Machine
end

