-- ==== Sys2Proof/Safety.lean ====
section
/-! DEFINITION. What a safe run is: the invariant of the machine, a valid table (R200), and the terms the statements use. -/

namespace Sys2Proof.Safety

open Sys2Proof.Machine

/-- `STATE` and `MODE` at given values. -/
abbrev At (st : RunState) (m : Mode) (s : State) : Prop := s.status = st ∧ s.mode = m

/-- Every transient register at its reset value (R49, R51). -/
abbrev TransientsClear (s : State) : Prop :=
  s.low = 0 ∧ s.high = 0xFFFFFF ∧ s.window = 0 ∧ s.acc = 0 ∧ s.nbits = 0 ∧ s.pending = 0 ∧ s.rpos = 0 ∧ s.rbit = 0

/-- The values rule R49 gives after hardware reset and after `RST`. -/
abbrev AtReset (s : State) : Prop :=
  s.status.code = 0 ∧ s.err.code = 0 ∧ s.errInfo = 0 ∧ s.mode.code = 0 ∧ TransientsClear s ∧
  s.ilen = 0 ∧ s.slen = 0 ∧ s.dcount = 0 ∧ s.fcount = 0 ∧ s.blen = 0 ∧ s.olen = 0 ∧ s.total = 0 ∧
  s.ibuf = [] ∧ s.sym = [] ∧ s.dict = [] ∧ s.ftab = [] ∧ s.bits = [] ∧ s.obuf = []

/-- The accumulator holds `NBITS` bits (R24): so it is 0 where `NBITS = 0`. -/
abbrev WriterOk (s : State) : Prop := s.acc.toNat < 2 ^ s.nbits.toNat

/-- Where renormalization stops (R167). -/
abbrev Settled (low high : Nat) : Prop := low < half ∧ half ≤ high ∧ (low < firstQtr ∨ thirdQtr ≤ high)

/-- The table passes `TableCheck` (R202). -/
abbrev TablePasses (s : State) : Prop := tableCheck s = .ok ()

/-- A valid table (R200), item by item. -/
structure ValidTable (ftab : List Entry) (total : Nat) : Prop where
  /-- Item 1. -/
  ascending : ∀ i a b, ftab[i]? = some a → ftab[i + 1]? = some b → a.sym.toNat < b.sym.toNat
  /-- Item 2. -/
  positive : ∀ e ∈ ftab, 1 ≤ e.count.toNat
  /-- Item 3. -/
  first : ∀ e, ftab[0]? = some e → e.cum.toNat = 0
  next : ∀ i a b, ftab[i]? = some a → ftab[i + 1]? = some b → b.cum.toNat = a.cum.toNat + a.count.toNat
  /-- Item 4. -/
  closed : ∀ e, ftab.getLast? = some e → total = e.cum.toNat + e.count.toNat
  empty : ftab = [] → total = 0

/-- `STATE`, `ERR`, `ERRINFO` and `MODE` agree (R32 to R34, R320). -/
abbrev StatusOk (s : State) : Prop :=
  (s.status = .ready → s.err = .none ∧ s.errInfo = 0) ∧ (s.status = .fault → s.err ≠ .none ∧ s.mode = .idle)

/-- What an open session, or none, says of the registers (R51, R167, R179 (a) and (e)). -/
abbrev SessionOk (s : State) : Prop :=
  (s.mode = .idle → TransientsClear s) ∧
  (s.mode = .enc → TablePasses s ∧ Settled s.low.toNat s.high.toNat ∧ s.window = 0 ∧ s.rpos = 0 ∧ s.rbit = 0) ∧
  (s.mode = .dec → TablePasses s ∧ Settled s.low.toNat s.high.toNat ∧ s.low.toNat ≤ s.window.toNat ∧
    s.window.toNat ≤ s.high.toNat ∧ s.acc = 0 ∧ s.nbits = 0 ∧ s.pending = 0 ∧ 24 ≤ s.rpos.toNat ∧
    s.sym.length ≤ s.total.toNat)

/-- The invariant of the machine. -/
abbrev Inv (s : State) : Prop := Memory.wf s = true ∧ StatusOk s ∧ WriterOk s ∧ SessionOk s

/-- The reference capacities (R10). -/
abbrev ReferenceCaps (c : Config) : Prop :=
  c.capIbuf = lengthLimit ∧ c.capSym = lengthLimit ∧ c.capDictWords = lengthLimit ∧ c.capWordBytes = lengthLimit ∧
  c.capFtab = lengthLimit ∧ c.capBits = lengthLimit ∧ c.capObuf = lengthLimit

/-- The `n` low bits of a value, the highest first (R62). -/
def bitsOf (n v : Nat) : List Bit := (List.range n).map fun j => BitVec.ofNat 1 (v / 2 ^ (n - 1 - j))

/-- The bits of a run of bytes, MSB-first (R62). -/
def byteBits (l : List Byte) : List Bit := l.flatMap fun b => bitsOf 8 b.toNat

/-- The bits written so far in an encode session (R141 (a)). -/
def writtenBits (s : State) : List Bit := byteBits s.bits ++ bitsOf s.nbits.toNat s.acc.toNat

/-- How many bits are written so far (R141 (a)). -/
def writtenCount (s : State) : Nat := 8 * s.bits.length + s.nbits.toNat

/-- A list of bits read as a number, the first bit the highest. -/
def bitsValue (l : List Bit) : Nat := l.foldl (fun v b => 2 * v + b.toNat) 0

/-- Where the current 24-bit scale stands on the code line, in units of `HALF`: with the written bits read as the number `W`
and `p` pending bits, `2·W·2^p + 2^p − 1`. A case-E1 iteration doubles it, E2 doubles it and adds 2, E3 doubles it and adds 1
(R164 to R166; R141 (c): the pending bits stand for a value next to the midpoint). -/
def codeOffset (s : State) : Nat :=
  2 * bitsValue (writtenBits s) * 2 ^ s.pending.toNat + (2 ^ s.pending.toNat - 1)

/-- Stream bits `n`, `n + 1`, ... of a reader, `k` of them, read as a number. -/
def streamValue (bits : List Byte) (n k : Nat) : Nat := bitsValue ((List.range k).map fun j => streamBit bits (n + j))

/-- The new bounds of `Narrow(cs, ce, T)` by the formulas of rule R161. -/
def narrowLow (low high cs T : Nat) : Nat := low + (high - low + 1) * cs / T
def narrowHigh (low high ce T : Nat) : Nat := low + (high - low + 1) * ce / T - 1

/-- Entry `i` passes the three tests of rule R202, where the entries before it do: its start is the sum of their counts. -/
abbrev EntryOk (ftab : List Entry) (i : Nat) : Prop :=
  ∀ e ∈ ftab[i]?, e.cum.toNat = ((ftab.take i).map fun e => e.count.toNat).sum ∧ 1 ≤ e.count.toNat ∧
    (1 ≤ i → ∀ p ∈ ftab[i - 1]?, p.sym.toNat < e.sym.toNat)

/-- The closing sum of rule R202. -/
def countTotal (ftab : List Entry) : Nat := (ftab.map fun e => e.count.toNat).sum

/-- The byte before position `i` is no word character, or there is none (R231, R236). -/
def leftEdge (input : List Byte) (i : Nat) : Bool := i == 0 || (input[i - 1]?).all fun c => !isWord c

/-- The byte at position `i` is no word character, or there is none (R231, R236). -/
def rightEdge (input : List Byte) (i : Nat) : Bool := (input[i]?).all fun c => !isWord c

/-- The token at position `i` is `w` (R231). -/
def tokenAt (input : List Byte) (i : Nat) (w : List Byte) : Bool :=
  !w.isEmpty && w.all isWord && (input.drop i).take w.length == w && leftEdge input i && rightEdge input (i + w.length)

/-- `F(w)` by positions: how many tokens of the input equal `w` (R232). -/
def occurrences (input w : List Byte) : Nat := ((List.range input.length).filter fun i => tokenAt input i w).length

/-- `w` qualifies (R231 to R233), by positions. -/
abbrev Qualifies (c : Config) (input w : List Byte) : Prop :=
  c.dictMinWordLen ≤ w.length ∧ c.dictMinFreqExcl < occurrences input w ∧
  w.length + c.dictEntryOverhead < w.length * occurrences input w

/-- The order of rule R234, by positions: savings descending, then bytes ascending, an initial part before the longer word. -/
abbrev RankedBefore (input a b : List Byte) : Prop :=
  b.length * occurrences input b < a.length * occurrences input a ∨
  (a.length * occurrences input a = b.length * occurrences input b ∧ a.map (·.toNat) < b.map (·.toNat))

/-- The words of the dictionary that `DX.FIND` builds from the input (R233 to R235): the first `DICT_MAX_WORDS` of the qualifying
words in the ranking's order, none below the input threshold. -/
structure IsDictionary (c : Config) (input : List Byte) (Q : List (List Byte)) : Prop where
  skipped : input.length < c.dictMinInputBytes → Q = []
  few : Q.length ≤ c.dictMaxWords
  distinct : Q.Nodup
  qualifying : ∀ w ∈ Q, Qualifies c input w
  ranked : Q.Pairwise (RankedBefore input)
  /-- A qualifying word is left out only where the dictionary is full, and ranks after all of it. -/
  best : c.dictMinInputBytes ≤ input.length → ∀ w, Qualifies c input w → w ∉ Q →
    Q.length = c.dictMaxWords ∧ ∀ a ∈ Q, RankedBefore input a w

/-- Word `w` matches at position `i` of the input (R236). -/
def substAt (input : List Byte) (i : Nat) (w : List Byte) : Bool :=
  !w.isEmpty && leftEdge input i && (input[i]?).any isWord && (input.drop i).take w.length == w &&
  rightEdge input (i + w.length)

/-- Symbol `x` is in the range of the dictionary and stands for the bytes `w` (R238). -/
abbrev Expands (dict : List (List Byte)) (x : Sym) (w : List Byte) : Prop :=
  if x.toNat < 256 then w.map (·.toNat) = [x.toNat] else dict[x.toNat - 256]? = some w

/-- The offset just past the dictionary in the flattened artifact, `A` of rule R93; with `k`, the offset of word `k`. -/
def dictOffset (dict : List (List Byte)) (k : Nat) : Nat := 4 + ((dict.take k).map fun w => 4 + w.length).sum

/-- Commands one after another; the model's own stop ends the run. -/
def runAll : List Instr → State → Host.Outcome State Fault Refusal
  | [], s => .next s
  | i :: is, s =>
    match exec i s with
    | .next t => runAll is t
    | .fault f => .fault f
    | .refused r => .refused r

end Sys2Proof.Safety
end

