-- ==== Sys2Proof/Certificates/Slice0/Obligations.lean ====
section
/-! DEFINITION. The statements for the provers. Each docstring names the rules of spec/ it formalises. -/

open Sys2Proof Sys2Proof.Machine Sys2Proof.Safety

/-! ### System -/

/-- R49: the reset state, and the state after `RST` (R301: in every `MODE` and both values of `STATE`) and after hardware
reset (R350). The configuration record is not changed by reset (R351). -/
def Obligations.ResetValues : Prop :=
  AtReset State.reset ∧
  ∀ s : State, ∃ t, exec .rst s = .next t ∧ runEvent .hardReset s = .next t ∧ AtReset t ∧ t.cfg = s.cfg

/-- R300: `NOP` changes no register and no buffer, in every state. -/
def Obligations.NopChangesNothing : Prop := ∀ s : State, exec .nop s = .next s

/-- R320: what fault entry writes and what it keeps. -/
def Obligations.FaultEntryEffect : Prop :=
  ∀ (x : Cause) (info : Nat) (d : Dest) (s t : State), t = faultEntry x info d s →
    t.status = .fault ∧ t.err = x ∧ t.errInfo = BitVec.ofNat 64 info ∧ t.mode = .idle ∧ TransientsClear t ∧
    t.sym = (if d.sym = true ∨ s.mode = .dec then [] else s.sym) ∧
    t.bits = (if d.bits = true ∨ s.mode = .enc then [] else s.bits) ∧
    t.dict = (if d.dict = true then [] else s.dict) ∧ t.ftab = (if d.ftab = true then [] else s.ftab) ∧
    t.total = (if d.total = true then 0 else s.total) ∧ t.obuf = (if d.obuf = true then [] else s.obuf) ∧
    t.ibuf = s.ibuf ∧ t.cfg = s.cfg ∧ t.port = s.port

/-- R324, with the table of R320: a faulting command leaves nothing but fault entry from the state it was accepted in. The
destination set is that of the table where the fault is raised in the body, and empty where `MODE` is not legal. -/
def Obligations.FaultsArePrecise : Prop :=
  ∀ (i : Instr) (s t : State), s.status = .ready → exec i s = .next t → t.status = .fault →
    ∃ x info d, x ≠ .none ∧ t = faultEntry x info d s ∧ (modeLegal i s.mode = false → d = {}) ∧
      (modeLegal i s.mode = true → d =
        match i with
        | .encBegin | .encSym _ | .encEnd | .encRun | .bwBit _ | .bwEmit _ => { bits := true }
        | .decBegin | .decSym | .decRun => { sym := true }
        | .fmBuild => { ftab := true, total := true }
        | .dxFind => { dict := true }
        | .dxSub => { sym := true }
        | .dxExp | .ser => { obuf := true }
        | .encode => { dict := true, sym := true, ftab := true, total := true, bits := true }
        | .decode => { sym := true, obuf := true }
        | .des => { dict := true, ftab := true, total := true, bits := true }
        | .compress => { dict := true, sym := true, ftab := true, total := true, bits := true, obuf := true }
        | .decompress => { dict := true, ftab := true, total := true, bits := true, sym := true, obuf := true }
        | .nop | .rst | .fmCheck | .brBit | .bwDefer | .decEnd => {})

/-- R321: in the fault state every word but exactly `0x00000001` and every host load is ignored, host reads work as always,
and the core never leaves the state by itself: that a step with no transaction changes nothing is the model's own choice
(log 1). -/
def Obligations.FaultStateIsSticky : Prop :=
  ∀ s : State, s.status = .fault →
    (∀ i, i ≠ .rst → exec i s = .next s) ∧
    (∀ e, e ≠ .hardReset → e ≠ .command 0x00000001 → runEvent e s = .next s) ∧
    (s.port = [] → step s = .next s) ∧
    hostRead s (.reg 0) = some 1 ∧ (∀ p, p ≠ .reg 0 → hostRead s p = hostRead { s with status := .ready } p)

/-- R315: `IllegalCommand` for a word that matches no row, for a command in a `MODE` that is not legal, and for `DEC.SYM` when
all symbols are decoded; `ERRINFO` is the word. -/
def Obligations.IllegalCommandRaised : Prop :=
  ∀ (s : State) (w : Command), s.status = .ready →
    ((∀ r ∈ rows, w &&& r.mask ≠ r.pattern) →
      runEvent (.command w) s = .next (faultEntry .illegalCommand w.toNat {} s)) ∧
    (∀ i m, decodeWord w = .ok i → legalMode i = some m → s.mode ≠ m →
      runEvent (.command w) s = .next (faultEntry .illegalCommand w.toNat {} s)) ∧
    (w = 0x00000021 → s.mode = .dec → s.total.toNat ≤ s.sym.length →
      runEvent (.command w) s = .next (faultEntry .illegalCommand w.toNat { sym := true } s))

/-- R100 "Legal MODE" and "MODE after", R271's table: the mode a command that completes leaves, and IDLE after a fault. -/
def Obligations.ModeTransitions : Prop :=
  ∀ (i : Instr) (s t : State), s.status = .ready → exec i s = .next t →
    (t.status = .fault → t.mode = .idle) ∧
    (t.status = .ready →
      match i with
      | .nop => t.mode = s.mode
      | .rst => t.mode = .idle
      | .encBegin => s.mode = .idle ∧ t.mode = .enc
      | .decBegin => s.mode = .idle ∧ t.mode = .dec
      | .encSym _ | .bwBit _ | .bwEmit _ | .bwDefer => s.mode = .enc ∧ t.mode = .enc
      | .encEnd => s.mode = .enc ∧ t.mode = .idle
      | .decSym | .brBit => s.mode = .dec ∧ t.mode = .dec
      | .decEnd => s.mode = .dec ∧ t.mode = .idle
      | _ => s.mode = .idle ∧ t.mode = .idle)

/-- The frame of every command but `RST`. `IBUF` is written by no command and cleared by no fault (R41); in the fault state
nothing changes (R321); and a command that completes changes nothing but the registers and buffers its rule writes, named here
one by one. `ENC.END` and `DEC.END` clear the transient registers (R51), and so do the commands that run a whole session, unless
they have no symbol to code (R174, R178). -/
def Obligations.CommandFrame : Prop :=
  ∀ (i : Instr) (s t : State), i ≠ .rst → exec i s = .next t →
    t.ibuf = s.ibuf ∧ t.cfg = s.cfg ∧ t.port = s.port ∧ (s.status = .fault → t = s) ∧
    (s.status = .ready → t.status = .ready →
      match i with
      | .nop | .fmCheck => t = s
      | .encBegin => t = { s with
          low := t.low, high := t.high, acc := t.acc, nbits := t.nbits, pending := t.pending, bits := t.bits, mode := t.mode }
      | .encSym _ => t = { s with
          low := t.low, high := t.high, acc := t.acc, nbits := t.nbits, pending := t.pending, bits := t.bits }
      | .encEnd => t = { transientClear s with bits := t.bits, mode := t.mode }
      | .bwBit _ => t = { s with acc := t.acc, nbits := t.nbits, bits := t.bits }
      | .bwEmit _ => t = { s with acc := t.acc, nbits := t.nbits, pending := t.pending, bits := t.bits }
      | .bwDefer => t = { s with pending := t.pending }
      | .decBegin => t = { s with
          low := t.low, high := t.high, window := t.window, rpos := t.rpos, sym := t.sym, mode := t.mode }
      | .decSym => t = { s with low := t.low, high := t.high, window := t.window, rpos := t.rpos, sym := t.sym }
      | .decEnd => t = { transientClear s with mode := t.mode }
      | .brBit => t = { s with rbit := t.rbit, rpos := t.rpos }
      | .fmBuild => t = { s with ftab := t.ftab, total := t.total }
      | .dxFind => t = { s with dict := t.dict }
      | .dxSub => t = { s with sym := t.sym }
      | .dxExp | .ser => t = { s with obuf := t.obuf }
      | .des => t = { s with dict := t.dict, ftab := t.ftab, total := t.total, bits := t.bits }
      | .encRun => ∃ r, (r = s ∨ r = transientClear s) ∧ t = { r with bits := t.bits }
      | .decRun => ∃ r, (r = s ∨ r = transientClear s) ∧ t = { r with sym := t.sym }
      | .encode => ∃ r, (r = s ∨ r = transientClear s) ∧
          t = { r with dict := t.dict, sym := t.sym, ftab := t.ftab, total := t.total, bits := t.bits }
      | .decode => ∃ r, (r = s ∨ r = transientClear s) ∧ t = { r with sym := t.sym, obuf := t.obuf }
      | .compress => ∃ r, (r = s ∨ r = transientClear s) ∧
          t = { r with dict := t.dict, sym := t.sym, ftab := t.ftab, total := t.total, bits := t.bits, obuf := t.obuf }
      | .decompress => ∃ r, (r = s ∨ r = transientClear s) ∧
          t = { r with dict := t.dict, ftab := t.ftab, total := t.total, bits := t.bits, sym := t.sym, obuf := t.obuf }
      | .rst => True)

/-- R78: while `MODE = DEC` nothing writes `BITS`, `FTAB` or `TOTAL`, faults included; while `MODE = ENC` only the writer, through
`ENC.SYM`, `BW.BIT`, `BW.EMIT` and `ENC.END`, writes `BITS`, by appending, but for a fault, which empties it. In both, `DICT`,
`OBUF` and `IBUF` are written by nothing, and host loads are ignored. -/
def Obligations.SessionOwnership : Prop :=
  ∀ (s t : State) (e : HostEvent), s.status = .ready → s.mode ≠ .idle → runEvent e s = .next t →
    e ≠ .hardReset → e ≠ .command 0x00000001 →
    t.ftab = s.ftab ∧ t.total = s.total ∧ t.dict = s.dict ∧ t.obuf = s.obuf ∧ t.ibuf = s.ibuf ∧
    ((∀ w, e ≠ .command w) → t = s) ∧
    (s.mode = .dec → t.bits = s.bits) ∧
    (s.mode = .enc → t.sym = s.sym ∧ (t.status = .fault → t.bits = []) ∧
      (t.status = .ready → s.bits <+: t.bits ∧
        ((∀ w i, e = .command w → decodeWord w = .ok i → i ≠ .encEnd ∧ ∀ x b, i ≠ .encSym x ∧ i ≠ .bwBit b ∧ i ≠ .bwEmit b) →
          t.bits = s.bits)))

/-! ### Encodings and the step -/

/-- A step runs the decoded command (R30, R99): on the state with the command taken off the port, and nothing else changed; and
so it performs each other transaction. With no transaction it changes nothing. The port and the empty port are the model's own
choice (log 1). -/
def Obligations.StepRunsDecoded : Prop :=
  (∀ (s : State) (w : Command) (rest : List HostEvent) (i : Instr), s.port = .command w :: rest → decodeWord w = .ok i →
    step s = exec i { s with port := rest }) ∧
  (∀ (s : State) (e : HostEvent) (rest : List HostEvent), s.port = e :: rest → step s = runEvent e { s with port := rest }) ∧
  (∀ (s : State) (nbits w : Nat) (i : Instr), decodeTableWord nbits w = some i → step (s.withFetchWord nbits w) = exec i s) ∧
  (∀ s : State, s.port = [] → step s = .next s)

/-- R95 to R97, R100: decoding the word of a well-formed command gives the command. -/
def Obligations.DecodeEncode : Prop := ∀ i : Instr, i.wf = true → decodeWord (encodeWord i) = .ok i

/-- R99: each word has one meaning: the command a word decodes to is well formed and its word is that word. -/
def Obligations.EncodeDecode : Prop := ∀ (w : Command) (i : Instr), decodeWord w = .ok i → i.wf = true ∧ encodeWord i = w

/-- R96 to R98: the words that are commands, by opcode and reserved bits, and every other word is none; `b = word[8]`,
`s = zext_32(word[31:8])`, and no symbol id of `2^24` or more can be given. -/
def Obligations.WordsAndFields : Prop :=
  ∀ w : Command,
    ((∃ i, decodeWord w = .ok i) ↔
      (w.toNat % 256 ∈ [0x00, 0x01, 0x10, 0x12, 0x13, 0x16, 0x20, 0x21, 0x22, 0x23, 0x24, 0x30, 0x31, 0x40, 0x41, 0x42,
          0x50, 0x51, 0x52, 0x53, 0x54, 0x55] ∧ w.toNat / 256 = 0) ∨
      (w.toNat % 256 ∈ [0x14, 0x15] ∧ w.toNat / 256 < 2) ∨ w.toNat % 256 = 0x11) ∧
    (w.toNat % 256 = 0x11 → decodeWord w = .ok (.encSym (BitVec.ofNat 32 (w.toNat / 256)))) ∧
    (∀ b, decodeWord w = .ok (.bwBit b) ↔ w.toNat = 0x14 + 256 * b.toNat) ∧
    (∀ b, decodeWord w = .ok (.bwEmit b) ↔ w.toNat = 0x15 + 256 * b.toNat) ∧
    (∀ x, decodeWord w = .ok (.encSym x) → x.toNat < 2 ^ 24 ∧ w.toNat = 0x11 + 256 * x.toNat)

/-- Words of V30-1 and R100 decode to the commands they stand for. -/
def Obligations.WordsDecode : Prop :=
  decodeWord 0x00000000 = .ok .nop ∧ decodeWord 0x00004111 = .ok (.encSym 65) ∧ decodeWord 0x00000114 = .ok (.bwBit 1) ∧
  decodeWord 0x00000024 = .ok .brBit ∧ decodeWord 0x00000031 = .ok .fmCheck ∧ decodeWord 0x00000042 = .ok .dxExp ∧
  decodeWord 0x00000053 = .ok .des ∧ decodeWord 0x00000214 = .error (.reservedImm 0x14) ∧
  decodeWord 0x00000056 = .error (.reservedOpcode 0x56)

/-! ### Bit channel -/

/-- R131, R137: `BW.BIT b` appends the one bit `b` to the bits written; `PENDING` and everything else stays. The bit that
completes a byte needs room in `BITS`: at the capacity it raises `CapacityFault(5)`. -/
def Obligations.BwBitWrites : Prop :=
  ∀ (s : State) (b : Bit), At .ready .enc s →
    (WriterOk s → (writtenCount s + 1) / 8 ≤ s.capBits →
      ∃ t, exec (.bwBit b) s = .next t ∧ writtenBits t = writtenBits s ++ [b] ∧ WriterOk t ∧ s.bits <+: t.bits ∧
        t = { s with bits := t.bits, acc := t.acc, nbits := t.nbits }) ∧
    (s.nbits = 7 → s.bits.length = s.capBits →
      exec (.bwBit b) s = .next (faultEntry .capacityFault 5 { bits := true } s))

/-- R132, R138: `BW.EMIT b` writes `b`, then `1 − b` once per pending bit, and clears the counter. Where the bits complete more
bytes than `BITS` has room for it raises `CapacityFault(5)`. -/
def Obligations.BwEmitWrites : Prop :=
  ∀ (s : State) (b : Bit), At .ready .enc s → WriterOk s →
    ((writtenCount s + 1 + s.pending.toNat) / 8 ≤ s.capBits →
      ∃ t, exec (.bwEmit b) s = .next t ∧
        writtenBits t = writtenBits s ++ b :: List.replicate s.pending.toNat (~~~b) ∧ WriterOk t ∧ s.bits <+: t.bits ∧
        t = { s with bits := t.bits, acc := t.acc, nbits := t.nbits, pending := 0 }) ∧
    (s.bits.length ≤ s.capBits → s.capBits < (writtenCount s + 1 + s.pending.toNat) / 8 →
      exec (.bwEmit b) s = .next (faultEntry .capacityFault 5 { bits := true } s))

/-- R133, R139: `BW.DEFER` increments the counter and writes nothing; at `2^32 − 1` it raises `CapacityFault(16)`. -/
def Obligations.BwDeferCounts : Prop :=
  ∀ s : State, At .ready .enc s →
    (s.pending.toNat < 2 ^ 32 - 1 →
      ∃ t, exec .bwDefer s = .next t ∧ t = { s with pending := t.pending } ∧ t.pending.toNat = s.pending.toNat + 1) ∧
    (s.pending.toNat = 2 ^ 32 - 1 → exec .bwDefer s = .next (faultEntry .capacityFault 16 {} s))

/-- R134, R173: `ENC.END` closes the stream with `1`, then `PENDING + 1` zeros, then zeros to the byte boundary (none where the
closing bits end on one); then the transient registers are cleared and `MODE` is IDLE. Where `BITS` has no room for that it
raises `CapacityFault(5)`, and with `PENDING` at `2^32 − 1` `CapacityFault(16)`. -/
def Obligations.EncEndCloses : Prop :=
  ∀ s : State, At .ready .enc s → WriterOk s →
    (s.pending.toNat < 2 ^ 32 - 1 → (writtenCount s + s.pending.toNat + 9) / 8 ≤ s.capBits →
      ∃ t pad, exec .encEnd s = .next t ∧ pad < 8 ∧
        byteBits t.bits = writtenBits s ++ 1 :: List.replicate (s.pending.toNat + 1) 0 ++ List.replicate pad 0 ∧
        TransientsClear t ∧ t = { transientClear s with bits := t.bits, mode := .idle }) ∧
    (s.pending.toNat < 2 ^ 32 - 1 → s.bits.length ≤ s.capBits → s.capBits < (writtenCount s + s.pending.toNat + 9) / 8 →
      exec .encEnd s = .next (faultEntry .capacityFault 5 { bits := true } s)) ∧
    (s.pending.toNat = 2 ^ 32 - 1 → exec .encEnd s = .next (faultEntry .capacityFault 16 { bits := true } s))

/-- R131, R134, R316: the commands that write bits raise `CapacityFault(5)` exactly where `BITS` would pass its capacity. Where
the same command, with the capacity of another configuration, completes in `u`, it completes with the same result if the bytes
of `u` fit, and faults if they do not. -/
def Obligations.WriterCapacity : Prop :=
  ∀ (s u : State) (c : Config) (i : Instr),
    ((∃ x, i = .encSym x) ∨ (∃ b, i = .bwBit b) ∨ (∃ b, i = .bwEmit b) ∨ i = .encEnd ∨ i = .encRun) →
    s.status = .ready → s.bits.length ≤ s.capBits → exec i { s with cfg := c } = .next u → u.status = .ready →
    exec i s = .next (if u.bits.length ≤ s.capBits then { u with cfg := s.cfg }
      else faultEntry .capacityFault 5 { bits := true } s)

/-- R62, R79: stream bit `n` is bit `n` of the bytes MSB-first, and 0 at and past the end. -/
def Obligations.StreamBits : Prop :=
  ∀ (bits : List Byte) (n : Nat), streamBit bits n = ((byteBits bits)[n]?).getD 0

/-- R136, R140: `BR.BIT` puts the next stream bit into `RBIT` and advances `RPOS`, also past the end; `WINDOW` stays; at
`2^32 − 1` it raises `CapacityFault(17)`. -/
def Obligations.BrBitReads : Prop :=
  ∀ s : State, At .ready .dec s →
    (s.rpos.toNat < 2 ^ 32 - 1 →
      ∃ t, exec .brBit s = .next t ∧ t = { s with rbit := streamBit s.bits s.rpos.toNat, rpos := t.rpos } ∧
        t.rpos.toNat = s.rpos.toNat + 1) ∧
    (s.rpos.toNat = 2 ^ 32 - 1 → exec .brBit s = .next (faultEntry .capacityFault 17 {} s))

/-! ### Frequency model -/

/-- R202: `FM.CHECK` tests the precision bound, then the entries in ascending index, then the closing sum; where all hold it
changes nothing. -/
def Obligations.FmCheckTests : Prop :=
  ∀ s : State, At .ready .idle s →
    (maxTotal ≤ s.total.toNat → exec .fmCheck s = .next (faultEntry .precisionOverflow s.total.toNat {} s)) ∧
    (s.total.toNat < maxTotal →
      (∀ i, i < s.ftab.length → ¬ EntryOk s.ftab i → (∀ j < i, EntryOk s.ftab j) →
        exec .fmCheck s = .next (faultEntry .modelError i {} s)) ∧
      ((∀ j < s.ftab.length, EntryOk s.ftab j) → countTotal s.ftab ≠ s.total.toNat →
        exec .fmCheck s = .next (faultEntry .modelError s.ftab.length {} s)) ∧
      ((∀ j < s.ftab.length, EntryOk s.ftab j) → countTotal s.ftab = s.total.toNat → exec .fmCheck s = .next s))

/-- R200: the tables that pass the check are the valid ones with a total below the bound. -/
def Obligations.ValidTablesPass : Prop :=
  ∀ s : State, TablePasses s ↔ s.total.toNat < maxTotal ∧ ValidTable s.ftab s.total.toNat

/-- R201: `FM.BUILD` makes a valid table with `TOTAL = SLEN`: one entry for each symbol that occurs, with its number of
occurrences; nothing but the table and the total changes. -/
def Obligations.FmBuildBuilds : Prop :=
  ∀ s : State, At .ready .idle s → s.sym.length < maxTotal → s.sym.dedup.length ≤ s.capFtab →
    ∃ t, exec .fmBuild s = .next t ∧ t = { s with ftab := t.ftab, total := t.total } ∧
      t.total.toNat = s.sym.length ∧ ValidTable t.ftab t.total.toNat ∧
      (∀ e ∈ t.ftab, e.sym ∈ s.sym ∧ e.count.toNat = s.sym.count e.sym) ∧ (∀ x ∈ s.sym, ∃ e ∈ t.ftab, e.sym = x)

/-- R201, R313: from `4,194,304` symbols on, `FM.BUILD` raises `PrecisionOverflowError(SLEN)`; with more distinct symbols than
the table holds, `CapacityFault(4)`. -/
def Obligations.FmBuildRefuses : Prop :=
  ∀ s : State, At .ready .idle s →
    (4194304 ≤ s.sym.length →
      exec .fmBuild s = .next (faultEntry .precisionOverflow s.sym.length { ftab := true, total := true } s)) ∧
    (s.sym.length < 4194304 → s.capFtab < s.sym.dedup.length →
      exec .fmBuild s = .next (faultEntry .capacityFault 4 { ftab := true, total := true } s))

/-- R206: the table is a function of the multiset of symbols alone, whatever else the two states hold; with equal capacities both
builds complete or neither does. -/
def Obligations.FmBuildDeterministic : Prop :=
  ∀ s s' t t' : State, At .ready .idle s → At .ready .idle s' → s.sym.Perm s'.sym →
    exec .fmBuild s = .next t → exec .fmBuild s' = .next t' → t.status = .ready →
    (s.cfg = s'.cfg → t'.status = .ready) ∧ (t'.status = .ready → t.ftab = t'.ftab ∧ t.total = t'.total)

/-- R204: on a table that passes the check the binary search finds an entry for every target below `TOTAL`, the only one whose
range holds it, and it is the entry `FindCum` answers; for every other target both answer none. -/
def Obligations.BinarySearchAgrees : Prop :=
  ∀ (s : State) (target : Nat), TablePasses s →
    (target < s.total.toNat →
      ∃ k e, findCumBinary s.ftab target (s.ftab.length + 1) 0 s.ftab.length = some k ∧ s.ftab[k]? = some e ∧
        findCum s.ftab target = some e ∧ inRange e target = true ∧
        (∀ j f, s.ftab[j]? = some f → inRange f target = true → j = k)) ∧
    (s.total.toNat ≤ target →
      findCumBinary s.ftab target (s.ftab.length + 1) 0 s.ftab.length = none ∧ findCum s.ftab target = none)

/-! ### Interval codec -/

/-- R171: `ENC.BEGIN` checks the table, empties the writer and `BITS`, initialises the interval and opens the session. -/
def Obligations.EncBeginOpens : Prop :=
  ∀ s : State, At .ready .idle s → s.total.toNat < maxTotal → ValidTable s.ftab s.total.toNat →
    exec .encBegin s = .next { s with
      low := 0, high := 0xFFFFFF, acc := 0, nbits := 0, pending := 0, bits := [], mode := .enc }

/-- R175, R135: `DEC.BEGIN` checks the table, empties `SYM`, primes the window with the first three bytes (a missing byte counts
0), initialises the interval and opens the session. -/
def Obligations.DecBeginOpens : Prop :=
  ∀ s : State, At .ready .idle s → s.total.toNat < maxTotal → ValidTable s.ftab s.total.toNat →
    ∃ t, exec .decBegin s = .next t ∧
      t = { s with low := 0, high := 0xFFFFFF, window := t.window, rpos := 24, sym := [], mode := .dec } ∧
      t.window.toNat = (s.bits[0]?.getD 0).toNat * 2 ^ 16 + (s.bits[1]?.getD 0).toNat * 2 ^ 8 + (s.bits[2]?.getD 0).toNat

/-- R171, R175, R178, R202: the commands that code refuse a total at or above the bound and a table that is not valid; the
destination set is emptied. -/
def Obligations.CodingRefusesBadTables : Prop :=
  ∀ (s : State) (i : Instr) (d : Dest), At .ready .idle s →
    ((i = .encBegin ∧ d = { bits := true }) ∨ (i = .encRun ∧ s.sym ≠ [] ∧ d = { bits := true }) ∨
      (i = .decBegin ∧ d = { sym := true }) ∨ (i = .decRun ∧ d = { sym := true }) ∨
      (i = .decode ∧ d = { sym := true, obuf := true })) →
    (maxTotal ≤ s.total.toNat → exec i s = .next (faultEntry .precisionOverflow s.total.toNat d s)) ∧
    (s.total.toNat < maxTotal → ¬ ValidTable s.ftab s.total.toNat →
      ∃ k, k ≤ s.ftab.length ∧ exec i s = .next (faultEntry .modelError k d s))

/-- R161, R179 (b): `Narrow` writes the bounds of the source's formulas, inside the old interval and not empty. -/
def Obligations.NarrowNests : Prop :=
  ∀ (s : State) (cs ce T : Nat), cs < ce → ce ≤ T → s.low.toNat ≤ s.high.toNat → T < s.high.toNat - s.low.toNat + 1 →
    ∃ t, narrow cs ce T s = .ok t ∧ t = { s with low := t.low, high := t.high } ∧
      t.low.toNat = narrowLow s.low.toNat s.high.toNat cs T ∧ t.high.toNat = narrowHigh s.low.toNat s.high.toNat ce T ∧
      s.low.toNat ≤ t.low.toNat ∧ t.low.toNat ≤ t.high.toNat ∧ t.high.toNat ≤ s.high.toNat

/-- R172, R161, R163 to R168, R179 (a), R180: `ENC.SYM` completes for a symbol of the table where the writer has room. The
interval narrowed by R161's formulas is scaled up `k ≤ 24` times, what is subtracted from it is written or pending, and it ends
where renormalization stops. A symbol the table does not hold raises `ModelError(s)`, and `BITS` is emptied. -/
def Obligations.EncSymCodes : Prop :=
  (∀ (s : State) (x : Sym) (e : Entry), Inv s → At .ready .enc s → e ∈ s.ftab → e.sym = x →
    (writtenCount s + s.pending.toNat + 24) / 8 ≤ s.capBits → s.pending.toNat + 24 < 2 ^ 32 →
    ∃ t k, exec (.encSym x) s = .next t ∧ k ≤ 24 ∧
      t = { s with low := t.low, high := t.high, acc := t.acc, nbits := t.nbits, pending := t.pending, bits := t.bits } ∧
      writtenBits s <+: writtenBits t ∧ WriterOk t ∧
      writtenCount t + t.pending.toNat = writtenCount s + s.pending.toNat + k ∧
      Settled t.low.toNat t.high.toNat ∧
      t.low.toNat + half * codeOffset t =
        2 ^ k * (narrowLow s.low.toNat s.high.toNat e.cum.toNat s.total.toNat + half * codeOffset s) ∧
      t.high.toNat + 1 + half * codeOffset t =
        2 ^ k * (narrowHigh s.low.toNat s.high.toNat (e.cum.toNat + e.count.toNat) s.total.toNat + 1 +
          half * codeOffset s)) ∧
  (∀ (s : State) (x : Sym), At .ready .enc s → (∀ e ∈ s.ftab, e.sym ≠ x) →
    exec (.encSym x) s = .next (faultEntry .modelError x.toNat { bits := true } s))

/-- R176, R169, R161, R170, R179 (e), (f): `DEC.SYM` completes while fewer than `TOTAL` symbols are decoded. It appends the symbol
of the entry whose range holds the target, narrows to that entry, and scales interval and window up `k ≤ 24` times, the window
taking in the next `k` stream bits; the window stays inside the interval. With no room for the symbol it raises
`CapacityFault(2)`. -/
def Obligations.DecSymDecodes : Prop :=
  ∀ s : State, Inv s → At .ready .dec s → s.sym.length < s.total.toNat →
    (s.sym.length < s.capSym → s.rpos.toNat + 24 < 2 ^ 32 →
      ∃ t k D e, exec .decSym s = .next t ∧ k ≤ 24 ∧ e ∈ s.ftab ∧
        inRange e (((s.window.toNat - s.low.toNat + 1) * s.total.toNat - 1) / (s.high.toNat - s.low.toNat + 1)) = true ∧
        t = { s with low := t.low, high := t.high, window := t.window, rpos := t.rpos, sym := s.sym ++ [e.sym] } ∧
        t.rpos.toNat = s.rpos.toNat + k ∧ Settled t.low.toNat t.high.toNat ∧
        t.low.toNat + D = 2 ^ k * narrowLow s.low.toNat s.high.toNat e.cum.toNat s.total.toNat ∧
        t.high.toNat + 1 + D =
          2 ^ k * (narrowHigh s.low.toNat s.high.toNat (e.cum.toNat + e.count.toNat) s.total.toNat + 1) ∧
        t.window.toNat + D = 2 ^ k * s.window.toNat + streamValue s.bits s.rpos.toNat k ∧
        t.low.toNat ≤ t.window.toNat ∧ t.window.toNat ≤ t.high.toNat) ∧
    (s.sym.length = s.capSym → exec .decSym s = .next (faultEntry .capacityFault 2 { sym := true } s))

/-- R177: `DEC.END` clears the transient registers and closes the session; the symbols stay. -/
def Obligations.DecEndCloses : Prop :=
  ∀ s : State, At .ready .dec s → exec .decEnd s = .next { s with
    low := 0, high := 0xFFFFFF, window := 0, acc := 0, nbits := 0, pending := 0, rpos := 0, rbit := 0, mode := .idle }

/-- R170: "It classifies exactly as `RenormEnc` does, from `LOW` and `HIGH` alone": from equal bounds both end with equal bounds. -/
def Obligations.RenormalizationsAgree : Prop :=
  ∀ s s' t t' : State, s.low = s'.low → s.high = s'.high → renormEnc s = .ok t → renormDec s' = .ok t' →
    t.low = t'.low ∧ t.high = t'.high

/-- R174, R103: with at least one symbol `ENC.RUN` equals the stepwise commands, faults included. -/
def Obligations.EncRunIsStepwise : Prop :=
  ∀ s : State, At .ready .idle s → s.sym ≠ [] →
    exec .encRun s = runAll ([.encBegin] ++ s.sym.map .encSym ++ [.encEnd]) s

/-- R178, R103: with at least one symbol to decode `DEC.RUN` equals the stepwise commands, faults included. -/
def Obligations.DecRunIsStepwise : Prop :=
  ∀ s : State, At .ready .idle s → s.total.toNat ≠ 0 →
    exec .decRun s = runAll ([.decBegin] ++ List.replicate s.total.toNat .decSym ++ [.decEnd]) s

/-- R174, R181: `ENC.RUN` completes where the table is valid and holds every symbol and the writer has room for 24 bits a symbol;
with no symbols it leaves the empty stream and reads no table. Nothing but `BITS` changes. -/
def Obligations.EncRunCompletes : Prop :=
  ∀ s : State, At .ready .idle s → TransientsClear s →
    (s.sym = [] → exec .encRun s = .next { s with bits := [] }) ∧
    (s.sym ≠ [] → s.total.toNat < maxTotal → ValidTable s.ftab s.total.toNat → (∀ x ∈ s.sym, ∃ e ∈ s.ftab, e.sym = x) →
      24 * s.sym.length < 2 ^ 32 - 1 → (24 * s.sym.length + 9) / 8 ≤ s.capBits →
      ∃ t, exec .encRun s = .next t ∧ t = { s with bits := t.bits } ∧
        1 ≤ t.bits.length ∧ t.bits.length ≤ (24 * s.sym.length + 9) / 8)

/-- R178, R179 (e): `DEC.RUN` completes for any content of `BITS` where the table is valid: it leaves exactly `TOTAL` symbols,
all of the table. Nothing but `SYM` changes. With room for fewer it raises `CapacityFault(2)`. -/
def Obligations.DecRunCompletes : Prop :=
  ∀ s : State, At .ready .idle s → TransientsClear s → s.total.toNat < maxTotal → ValidTable s.ftab s.total.toNat →
    (s.total.toNat ≤ s.capSym →
      ∃ t, exec .decRun s = .next t ∧ t = { s with sym := t.sym } ∧ t.sym.length = s.total.toNat ∧
        ∀ x ∈ t.sym, ∃ e ∈ s.ftab, e.sym = x) ∧
    (s.capSym < s.total.toNat → exec .decRun s = .next (faultEntry .capacityFault 2 { sym := true } s))

/-- R179 (g): `DEC.RUN` inverts `ENC.RUN`: "decode must be the bit-for-bit mathematical inverse of encode". -/
def Obligations.DecRunInvertsEncRun : Prop :=
  ∀ s : State, At .ready .idle s → TransientsClear s → s.total.toNat < maxTotal → ValidTable s.ftab s.total.toNat →
    s.sym.length = s.total.toNat → (∀ x ∈ s.sym, ∃ e ∈ s.ftab, e.sym = x) →
    (24 * s.sym.length + 9) / 8 ≤ s.capBits → s.sym.length ≤ s.capSym →
    ∃ t u, exec .encRun s = .next t ∧ t.status = .ready ∧ exec .decRun t = .next u ∧ u.status = .ready ∧ u.sym = s.sym

/-! ### Dictionary -/

/-- R231, R232: the tokens `DX.FIND` counts are the maximal runs, counted by position. -/
def Obligations.TokenCounts : Prop :=
  ∀ (c : Config) (input w : List Byte),
    (tokens c input).count w = if c.dictMinWordLen ≤ w.length then occurrences input w else 0

/-- R231 to R235: `DX.FIND` completes where the words it finds fit, and leaves them in `DICT`; nothing else changes. Where they are
more than the dictionary holds or one is too long it raises `CapacityFault(3)`. With the last clause it completes wherever the
most words there can be, of the most bytes, fit. -/
def Obligations.DxFindBuilds : Prop :=
  ∀ s : State, At .ready .idle s → ∃ Q : List (List Byte), IsDictionary s.cfg s.ibuf Q ∧
    (Q.length ≤ s.capDictWords → (∀ w ∈ Q, w.length ≤ s.capWordBytes) → exec .dxFind s = .next { s with dict := Q }) ∧
    ((s.capDictWords < Q.length ∨ ∃ w ∈ Q, s.capWordBytes < w.length) →
      exec .dxFind s = .next (faultEntry .capacityFault 3 { dict := true } s)) ∧
    (s.cfg.dictMaxWords ≤ s.capDictWords → s.ibuf.length ≤ s.capWordBytes → exec .dxFind s = .next { s with dict := Q })

/-- R236, R237: the input is cut into pieces, each a dictionary word where the first matching word is that one, or a single byte
where none matches. `DX.SUB` completes where `SYM` has room for their symbols, so wherever it has room for the input's bytes, and
nothing but `SYM` changes; else it raises `CapacityFault(2)`. The symbol of a word whose number does not fit is a free value
(log 5), and the statement holds whatever it is. -/
def Obligations.DxSubScans : Prop :=
  ∀ s : State, At .ready .idle s → ∃ pieces : List (Sym × List Byte),
    s.ibuf = (pieces.map Prod.snd).flatten ∧ pieces.length ≤ s.ibuf.length ∧
    (∀ j p, pieces[j]? = some p →
      (∃ k w, s.dict[k]? = some w ∧ p = (dictSymbol k, w) ∧
        substAt s.ibuf ((pieces.take j).map Prod.snd).flatten.length w = true ∧
        ∀ m < k, ∀ v, s.dict[m]? = some v → substAt s.ibuf ((pieces.take j).map Prod.snd).flatten.length v = false) ∨
      (∃ b, p = (rawSymbol b, [b]) ∧
        ∀ v ∈ s.dict, substAt s.ibuf ((pieces.take j).map Prod.snd).flatten.length v = false)) ∧
    (pieces.length ≤ s.capSym → exec .dxSub s = .next { s with sym := pieces.map Prod.fst }) ∧
    (s.capSym < pieces.length → exec .dxSub s = .next (faultEntry .capacityFault 2 { sym := true } s)) ∧
    (s.ibuf.length ≤ s.capSym → exec .dxSub s = .next { s with sym := pieces.map Prod.fst })

/-- R238, R319: `DX.EXP` completes where every reference is in the dictionary and the bytes fit: raw symbols give their byte, others
the word's bytes. Nothing but `OBUF` changes. Where the first symbols, all in range, already give more bytes than `OBUF` holds, it
raises `CapacityFault(6)`, whatever follows them. -/
def Obligations.DxExpExpands : Prop :=
  ∀ (s : State) (good rest : List Sym) (words : List (List Byte)), At .ready .idle s → s.sym = good ++ rest →
    List.Forall₂ (Expands s.dict) good words →
    (rest = [] → words.flatten.length ≤ s.capObuf → exec .dxExp s = .next { s with obuf := words.flatten }) ∧
    (s.capObuf < words.flatten.length → exec .dxExp s = .next (faultEntry .capacityFault 6 { obuf := true } s))

/-- R238, R312: the first symbol beyond the dictionary raises `CorruptReferenceError(s)`; no partial output stays. -/
def Obligations.DxExpCorrupt : Prop :=
  ∀ (s : State) (good rest : List Sym) (x : Sym), At .ready .idle s → s.sym = good ++ x :: rest →
    (∀ y ∈ good, y.toNat < 256 + s.dict.length) → 256 + s.dict.length ≤ x.toNat →
    (good.map fun y => if y.toNat < 256 then 1 else ((s.dict[y.toNat - 256]?).getD []).length).sum ≤ s.capObuf →
    exec .dxExp s = .next (faultEntry .corruptReference x.toNat { obuf := true } s)

/-- R240: `DX.EXP` inverts `DX.SUB`, for every input and every dictionary whose symbols fit 32 bits. -/
def Obligations.DxExpInvertsDxSub : Prop :=
  ∀ s : State, At .ready .idle s → s.dict.length + 256 ≤ 2 ^ 32 → s.ibuf.length ≤ s.capSym → s.ibuf.length ≤ s.capObuf →
    ∃ t u, exec .dxSub s = .next t ∧ t.status = .ready ∧ exec .dxExp t = .next u ∧ u.status = .ready ∧ u.obuf = s.ibuf

/-! ### Artifact and orchestration -/

/-- R93, R266: `SER` completes where the artifact fits; every field stands at its offset, little-endian, and the size is the sum of
the fields. Nothing but `OBUF` changes. Where the artifact does not fit it raises `CapacityFault(6)`. -/
def Obligations.SerLayout : Prop :=
  ∀ s : State, At .ready .idle s → Memory.wf s = true →
    (20 + (s.dict.map fun w => 4 + w.length).sum + 20 * s.ftab.length + s.bits.length ≤ s.capObuf →
      ∃ t A, exec .ser s = .next t ∧ t = { s with obuf := t.obuf } ∧ A = dictOffset s.dict s.dict.length ∧
        t.obuf.length = A + 16 + 20 * s.ftab.length + s.bits.length ∧
        memRead t.obuf 0 4 = s.dict.length ∧
        (∀ k w, s.dict[k]? = some w → memRead t.obuf (dictOffset s.dict k) 4 = w.length ∧
          (t.obuf.drop (dictOffset s.dict k + 4)).take w.length = w) ∧
        memRead t.obuf A 4 = s.ftab.length ∧
        (∀ i e, s.ftab[i]? = some e → memRead t.obuf (A + 4 + 20 * i) 4 = e.sym.toNat ∧
          memRead t.obuf (A + 8 + 20 * i) 8 = e.count.toNat ∧ memRead t.obuf (A + 16 + 20 * i) 8 = e.cum.toNat) ∧
        memRead t.obuf (A + 4 + 20 * s.ftab.length) 8 = s.total.toNat ∧
        memRead t.obuf (A + 12 + 20 * s.ftab.length) 4 = s.bits.length ∧
        t.obuf.drop (A + 16 + 20 * s.ftab.length) = s.bits) ∧
    (s.capObuf < 20 + (s.dict.map fun w => 4 + w.length).sum + 20 * s.ftab.length + s.bits.length →
      exec .ser s = .next (faultEntry .capacityFault 6 { obuf := true } s))

/-- R266, R267, R270: `SER` writes the flattened artifact, and `DES` of it, with any bytes after it, gives back dictionary, table,
total and bitstream exactly, and changes nothing else. -/
def Obligations.DesInvertsSer : Prop :=
  ∀ (s u : State) (trailing : List Byte), At .ready .idle s → Memory.wf s = true → serSize s ≤ s.capObuf →
    At .ready .idle u → u.cfg = s.cfg → u.ibuf = serialize s.dict s.ftab s.total s.bits ++ trailing →
    exec .ser s = .next { s with obuf := serialize s.dict s.ftab s.total s.bits } ∧
    exec .des u = .next { u with dict := s.dict, ftab := s.ftab, total := s.total, bits := s.bits }

/-- R267, R311, R316, R317: `DES` checks every length against its input and the capacities. What it accepts is a whole artifact
that stands at the start of its input; every proper initial part of an artifact raises `FormatError(pos)` with `pos` at or below
`ILEN`, the start of the bitstream where that is what is cut; a part beyond its capacity raises `CapacityFault` with the part's
number. Fewer than 20 bytes always fault, fewer than 4 with `FormatError(0)`. The whole destination set is emptied, so that no
partial artifact stays. -/
def Obligations.DesBounds : Prop :=
  ∀ (s : State) (d : Dest), At .ready .idle s → d = { dict := true, ftab := true, total := true, bits := true } →
    (∀ t, exec .des s = .next t → t.status = .ready →
      ∃ trailing, s.ibuf = serialize t.dict t.ftab t.total t.bits ++ trailing) ∧
    (∀ dict ftab total bits n, dictFits s dict = true → ftab.length ≤ s.capFtab → bits.length ≤ s.capBits →
      n < (serialize dict ftab total bits).length → s.ibuf = (serialize dict ftab total bits).take n →
      ∃ pos, pos ≤ s.ibuf.length ∧ exec .des s = .next (faultEntry .formatError pos d s) ∧
        ((serialize dict ftab total bits).length - bits.length ≤ n →
          pos = (serialize dict ftab total bits).length - bits.length)) ∧
    (∀ dict ftab total bits trailing, dict.length < 2 ^ 32 → (∀ w ∈ dict, w.length < 2 ^ 32) → ftab.length < 2 ^ 32 →
      bits.length < 2 ^ 32 → s.ibuf = serialize dict ftab total bits ++ trailing →
      (dictFits s dict = false → exec .des s = .next (faultEntry .capacityFault 3 d s)) ∧
      (dictFits s dict = true → s.capFtab < ftab.length → exec .des s = .next (faultEntry .capacityFault 4 d s)) ∧
      (dictFits s dict = true → ftab.length ≤ s.capFtab → s.capBits < bits.length →
        exec .des s = .next (faultEntry .capacityFault 5 d s))) ∧
    (s.ibuf.length < 20 → ∃ x info, (x = .formatError ∨ x = .capacityFault) ∧
      exec .des s = .next (faultEntry x info d s)) ∧
    (s.ibuf.length < 4 → exec .des s = .next (faultEntry .formatError 0 d s)) ∧
    (∀ t, exec .des s = .next t → t.status = .fault → t.err = .formatError →
      ∃ pos, pos ≤ s.ibuf.length ∧ t = faultEntry .formatError pos d s)

/-- R261, R269: `DECODE` completes for any content of `BITS` where the table is valid, its symbols are bytes or words of the
dictionary, and the result fits: `TOTAL` symbols, expanded in order. `DECOMPRESS` of the same artifact in `IBUF` completes with
the same symbols and bytes. -/
def Obligations.DecodeCompletes : Prop :=
  ∀ (s u : State) (m : Nat) (trailing : List Byte), At .ready .idle s → TransientsClear s → Memory.wf s = true →
    s.total.toNat < maxTotal → ValidTable s.ftab s.total.toNat → s.total.toNat ≤ s.capSym →
    (∀ e ∈ s.ftab, e.sym.toNat < 256 + s.dict.length) → 1 ≤ m → (∀ w ∈ s.dict, w.length ≤ m) →
    s.total.toNat * m ≤ s.capObuf →
    At .ready .idle u → TransientsClear u → u.cfg = s.cfg →
    u.ibuf = serialize s.dict s.ftab s.total s.bits ++ trailing →
    ∃ t v, exec .decode s = .next t ∧ t = { s with sym := t.sym, obuf := t.obuf } ∧ t.sym.length = s.total.toNat ∧
      t.obuf = (t.sym.map fun x => if x.toNat < 256 then [BitVec.ofNat 8 x.toNat] else (s.dict[x.toNat - 256]?).getD []).flatten ∧
      exec .decompress u = .next v ∧
      v = { u with dict := s.dict, ftab := s.ftab, total := s.total, bits := s.bits, sym := t.sym, obuf := t.obuf }

/-- R260, R261, R268, R269: a macro command completes where and as the commands it is made of do, one after another, and where one
of them faults it raises the same fault, from the state it was accepted in. -/
def Obligations.MacrosAreChains : Prop :=
  ∀ (s : State) (m : Instr) (parts : List Instr), At .ready .idle s →
    ((m = .encode ∧ parts = [.dxFind, .dxSub, .fmBuild, .encRun]) ∨ (m = .decode ∧ parts = [.decRun, .dxExp]) ∨
      (m = .compress ∧ parts = [.encode, .ser]) ∨ (m = .decompress ∧ parts = [.des, .decode])) →
    (∀ t, t.status = .ready → (exec m s = .next t ↔ runAll parts s = .next t)) ∧
    (∀ u, runAll parts s = .next u → u.status = .fault →
      exec m s = .next (faultEntry u.err u.errInfo.toNat (destOf m) s))

/-- R262: the contract. For every input of fewer than `MAX_TOTAL` bytes, with the reference capacities, `ENCODE` completes, keeps
`IBUF` and `OBUF`, leaves a valid table with `TOTAL = SLEN`, and a following `DECODE` completes with the input in `OBUF`. -/
def Obligations.DecodeInvertsEncode : Prop :=
  ∀ s : State, At .ready .idle s → TransientsClear s → ReferenceCaps s.cfg → s.ibuf.length < maxTotal →
    ∃ t u, exec .encode s = .next t ∧ t.status = .ready ∧ t.ibuf = s.ibuf ∧ t.obuf = s.obuf ∧
      t.total.toNat = t.sym.length ∧ t.sym.length ≤ s.ibuf.length ∧ ValidTable t.ftab t.total.toNat ∧
      exec .decode t = .next u ∧ u.status = .ready ∧ u.obuf = s.ibuf ∧ u.sym = t.sym

/-- R268, R269, R262, R270: for every input of fewer than `MAX_TOTAL` bytes `COMPRESS` completes, and `DECOMPRESS` of its output,
copied into `IBUF` by the host, completes with the input in `OBUF`. -/
def Obligations.DecompressInvertsCompress : Prop :=
  ∀ s : State, At .ready .idle s → TransientsClear s → ReferenceCaps s.cfg → s.cfg.dictMaxWords = 25 →
    s.ibuf.length < maxTotal →
    ∃ t u, exec .compress s = .next t ∧ t.status = .ready ∧
      exec .decompress { t with ibuf := t.obuf } = .next u ∧ u.status = .ready ∧ u.obuf = s.ibuf

/-- R263: two runs of `COMPRESS` on equal `IBUF` and configuration, from any two READY, IDLE states, give equal `OBUF`, and with
it the same bitstream, dictionary and outcome. -/
def Obligations.CompressDeterministic : Prop :=
  ∀ s s' t t' : State, At .ready .idle s → At .ready .idle s' → s.ibuf = s'.ibuf → s.cfg = s'.cfg →
    exec .compress s = .next t → exec .compress s' = .next t' →
    t.status = t'.status ∧ t.obuf = t'.obuf ∧ t.bits = t'.bits ∧ t.dict = t'.dict

/-! ### Host interface -/

/-- R70, R72: a host load is accepted only in READY and IDLE and within the capacity, replaces the whole buffer with its length,
and otherwise changes nothing. -/
def Obligations.HostLoads : Prop :=
  ∀ (s : State) (e : HostEvent) (fits : Bool) (loaded : State),
    ((∃ b, e = .loadIbuf b ∧ fits = decide (b.length ≤ s.capIbuf) ∧ loaded = { s with ibuf := b }) ∨
      (∃ x, e = .loadSym x ∧ fits = decide (x.length ≤ s.capSym) ∧ loaded = { s with sym := x }) ∨
      (∃ d, e = .loadDict d ∧ fits = decide (d.length ≤ s.capDictWords ∧ ∀ w ∈ d, w.length ≤ s.capWordBytes) ∧
        loaded = { s with dict := d }) ∨
      (∃ f, e = .loadFtab f ∧ fits = decide (f.length ≤ s.capFtab) ∧ loaded = { s with ftab := f }) ∨
      (∃ b, e = .loadBits b ∧ fits = decide (b.length ≤ s.capBits) ∧ loaded = { s with bits := b }) ∨
      (∃ v, e = .loadTotal v ∧ fits = true ∧ loaded = { s with total := v })) →
    runEvent e s = .next (if s.status = .ready ∧ s.mode = .idle ∧ fits = true then loaded else s)

/-- R71, R38: a host read gives no value at or beyond a length and above register 18. Below, it gives the element's own value and
the register's, by the numbers of R38 and the codes of R31, R32 and R310. -/
def Obligations.HostReads : Prop :=
  ∀ s : State,
    (∀ n, (∃ v, hostRead s (.reg n) = some v) ↔ n ≤ 18) ∧ (∀ j, (∃ v, hostRead s (.ibuf j) = some v) ↔ j < s.ibuf.length) ∧
    (∀ j, (∃ v, hostRead s (.sym j) = some v) ↔ j < s.sym.length) ∧
    (∀ k j, (∃ v, hostRead s (.dict k j) = some v) ↔ ∃ w, s.dict[k]? = some w ∧ j < w.length) ∧
    (∀ i f, (∃ v, hostRead s (.ftab i f) = some v) ↔ i < s.ftab.length) ∧
    (∀ j, (∃ v, hostRead s (.bits j) = some v) ↔ j < s.bits.length) ∧
    (∀ j, (∃ v, hostRead s (.obuf j) = some v) ↔ j < s.obuf.length) ∧
    (∀ n v, (n, v) ∈ [
        (0, match s.status with | .ready => 0 | .fault => 1),
        (1, match s.err with
          | .none => 0 | .formatError => 1 | .corruptReference => 2 | .precisionOverflow => 3 | .modelError => 4
          | .illegalCommand => 5 | .capacityFault => 6),
        (2, s.errInfo.toNat), (3, match s.mode with | .idle => 0 | .enc => 1 | .dec => 2),
        (4, s.low.toNat), (5, s.high.toNat), (6, s.window.toNat), (7, s.acc.toNat), (8, s.nbits.toNat),
        (9, s.pending.toNat), (10, s.rpos.toNat), (11, s.rbit.toNat), (16, s.total.toNat)] →
      (hostRead s (.reg n)).map (·.toNat) = some v) ∧
    (Memory.wf s = true → ∀ n len, (n, len) ∈ [(12, s.ibuf.length), (13, s.sym.length), (14, s.dict.length),
      (15, s.ftab.length), (17, s.bits.length), (18, s.obuf.length)] →
      (hostRead s (.reg n)).map (·.toNat) = some len) ∧
    (∀ j b, s.ibuf[j]? = some b → (hostRead s (.ibuf j)).map (·.toNat) = some b.toNat) ∧
    (∀ j x, s.sym[j]? = some x → (hostRead s (.sym j)).map (·.toNat) = some x.toNat) ∧
    (∀ k j w b, s.dict[k]? = some w → w[j]? = some b → (hostRead s (.dict k j)).map (·.toNat) = some b.toNat) ∧
    (∀ i e, s.ftab[i]? = some e → (hostRead s (.ftab i .sym)).map (·.toNat) = some e.sym.toNat ∧
      (hostRead s (.ftab i .count)).map (·.toNat) = some e.count.toNat ∧
      (hostRead s (.ftab i .cum)).map (·.toNat) = some e.cum.toNat) ∧
    (∀ j b, s.bits[j]? = some b → (hostRead s (.bits j)).map (·.toNat) = some b.toNat) ∧
    (∀ j b, s.obuf[j]? = some b → (hostRead s (.obuf j)).map (·.toNat) = some b.toNat)

/-! ### The whole machine -/

/-- The invariant holds at reset. -/
def Obligations.InvAtReset : Prop := Inv State.reset

/-- Every step keeps the invariant: buffers within their lengths and capacities (R10, R40), status and mode consistent (R32, R320),
the accumulator (R24), the transient registers clear outside a session (R51), and in a session a table that passes, an interval
where renormalization stops, and the window inside it (R167, R179 (a), (e)). -/
def Obligations.StepKeepsInv : Prop := ∀ s t : State, Inv s → step s = .next t → Inv t

/-- R162, R179, R180: from a state that meets the invariant every step gives a next state: no value fails to fit its register, no
subtraction goes below zero, no division is by zero, no renormalization needs a 25th iteration. -/
def Obligations.StepAlwaysCompletes : Prop := ∀ s : State, Inv s → ∃ t, step s = .next t

/-- R29: "0 ≤ low ≤ high ≤ PRECISION_LIMIT at every step", at reset and after every step, and in a decode session the window
inside the interval. -/
def Obligations.IntervalInvariant : Prop :=
  (State.reset.low.toNat ≤ State.reset.high.toNat ∧ State.reset.high.toNat ≤ precisionLimit) ∧
  ∀ s t : State, Inv s → step s = .next t →
    t.low.toNat ≤ t.high.toNat ∧ t.high.toNat ≤ precisionLimit ∧
    (t.mode = .dec → t.low.toNat ≤ t.window.toNat ∧ t.window.toNat ≤ t.high.toNat) ∧
    (t.mode ≠ .idle → t.total.toNat < t.high.toNat - t.low.toNat + 1)
end

