-- ==== Sys2Proof/Laws/State.lean ====
section
/-! SUPPORT. One lemma per field per named update of the state, so that no later proof unfolds a record update. -/

namespace Sys2Proof.Machine

/-! ### `TransientClear` (R51) -/

@[simp] theorem transientClear_status (s : State) : (transientClear s).status = s.status := rfl
@[simp] theorem transientClear_err (s : State) : (transientClear s).err = s.err := rfl
@[simp] theorem transientClear_errInfo (s : State) : (transientClear s).errInfo = s.errInfo := rfl
@[simp] theorem transientClear_mode (s : State) : (transientClear s).mode = s.mode := rfl
@[simp] theorem transientClear_low (s : State) : (transientClear s).low = 0 := rfl
@[simp] theorem transientClear_high (s : State) : (transientClear s).high = 0xFFFFFF := rfl
@[simp] theorem transientClear_window (s : State) : (transientClear s).window = 0 := rfl
@[simp] theorem transientClear_acc (s : State) : (transientClear s).acc = 0 := rfl
@[simp] theorem transientClear_nbits (s : State) : (transientClear s).nbits = 0 := rfl
@[simp] theorem transientClear_pending (s : State) : (transientClear s).pending = 0 := rfl
@[simp] theorem transientClear_rpos (s : State) : (transientClear s).rpos = 0 := rfl
@[simp] theorem transientClear_rbit (s : State) : (transientClear s).rbit = 0 := rfl
@[simp] theorem transientClear_total (s : State) : (transientClear s).total = s.total := rfl
@[simp] theorem transientClear_ibuf (s : State) : (transientClear s).ibuf = s.ibuf := rfl
@[simp] theorem transientClear_sym (s : State) : (transientClear s).sym = s.sym := rfl
@[simp] theorem transientClear_dict (s : State) : (transientClear s).dict = s.dict := rfl
@[simp] theorem transientClear_ftab (s : State) : (transientClear s).ftab = s.ftab := rfl
@[simp] theorem transientClear_bits (s : State) : (transientClear s).bits = s.bits := rfl
@[simp] theorem transientClear_obuf (s : State) : (transientClear s).obuf = s.obuf := rfl
@[simp] theorem transientClear_cfg (s : State) : (transientClear s).cfg = s.cfg := rfl
@[simp] theorem transientClear_port (s : State) : (transientClear s).port = s.port := rfl

/-! ### Reset (R49) -/

@[simp] theorem resetState_status (s : State) : (resetState s).status = .ready := rfl
@[simp] theorem resetState_err (s : State) : (resetState s).err = .none := rfl
@[simp] theorem resetState_errInfo (s : State) : (resetState s).errInfo = 0 := rfl
@[simp] theorem resetState_mode (s : State) : (resetState s).mode = .idle := rfl
@[simp] theorem resetState_low (s : State) : (resetState s).low = 0 := rfl
@[simp] theorem resetState_high (s : State) : (resetState s).high = 0xFFFFFF := rfl
@[simp] theorem resetState_window (s : State) : (resetState s).window = 0 := rfl
@[simp] theorem resetState_acc (s : State) : (resetState s).acc = 0 := rfl
@[simp] theorem resetState_nbits (s : State) : (resetState s).nbits = 0 := rfl
@[simp] theorem resetState_pending (s : State) : (resetState s).pending = 0 := rfl
@[simp] theorem resetState_rpos (s : State) : (resetState s).rpos = 0 := rfl
@[simp] theorem resetState_rbit (s : State) : (resetState s).rbit = 0 := rfl
@[simp] theorem resetState_total (s : State) : (resetState s).total = 0 := rfl
@[simp] theorem resetState_ibuf (s : State) : (resetState s).ibuf = [] := rfl
@[simp] theorem resetState_sym (s : State) : (resetState s).sym = [] := rfl
@[simp] theorem resetState_dict (s : State) : (resetState s).dict = [] := rfl
@[simp] theorem resetState_ftab (s : State) : (resetState s).ftab = [] := rfl
@[simp] theorem resetState_bits (s : State) : (resetState s).bits = [] := rfl
@[simp] theorem resetState_obuf (s : State) : (resetState s).obuf = [] := rfl
@[simp] theorem resetState_cfg (s : State) : (resetState s).cfg = s.cfg := rfl
@[simp] theorem resetState_port (s : State) : (resetState s).port = s.port := rfl

/-! ### `WriterInit` (R130) -/

@[simp] theorem writerInit_status (s : State) : (writerInit s).status = s.status := rfl
@[simp] theorem writerInit_err (s : State) : (writerInit s).err = s.err := rfl
@[simp] theorem writerInit_errInfo (s : State) : (writerInit s).errInfo = s.errInfo := rfl
@[simp] theorem writerInit_mode (s : State) : (writerInit s).mode = s.mode := rfl
@[simp] theorem writerInit_low (s : State) : (writerInit s).low = s.low := rfl
@[simp] theorem writerInit_high (s : State) : (writerInit s).high = s.high := rfl
@[simp] theorem writerInit_window (s : State) : (writerInit s).window = s.window := rfl
@[simp] theorem writerInit_acc (s : State) : (writerInit s).acc = 0 := rfl
@[simp] theorem writerInit_nbits (s : State) : (writerInit s).nbits = 0 := rfl
@[simp] theorem writerInit_pending (s : State) : (writerInit s).pending = 0 := rfl
@[simp] theorem writerInit_rpos (s : State) : (writerInit s).rpos = s.rpos := rfl
@[simp] theorem writerInit_rbit (s : State) : (writerInit s).rbit = s.rbit := rfl
@[simp] theorem writerInit_total (s : State) : (writerInit s).total = s.total := rfl
@[simp] theorem writerInit_ibuf (s : State) : (writerInit s).ibuf = s.ibuf := rfl
@[simp] theorem writerInit_sym (s : State) : (writerInit s).sym = s.sym := rfl
@[simp] theorem writerInit_dict (s : State) : (writerInit s).dict = s.dict := rfl
@[simp] theorem writerInit_ftab (s : State) : (writerInit s).ftab = s.ftab := rfl
@[simp] theorem writerInit_bits (s : State) : (writerInit s).bits = [] := rfl
@[simp] theorem writerInit_obuf (s : State) : (writerInit s).obuf = s.obuf := rfl
@[simp] theorem writerInit_cfg (s : State) : (writerInit s).cfg = s.cfg := rfl
@[simp] theorem writerInit_port (s : State) : (writerInit s).port = s.port := rfl

/-! ### `IntervalInit` (R160) -/

@[simp] theorem intervalInit_status (s : State) : (intervalInit s).status = s.status := rfl
@[simp] theorem intervalInit_err (s : State) : (intervalInit s).err = s.err := rfl
@[simp] theorem intervalInit_errInfo (s : State) : (intervalInit s).errInfo = s.errInfo := rfl
@[simp] theorem intervalInit_mode (s : State) : (intervalInit s).mode = s.mode := rfl
@[simp] theorem intervalInit_low (s : State) : (intervalInit s).low = 0 := rfl
@[simp] theorem intervalInit_high (s : State) : (intervalInit s).high = BitVec.ofNat 24 precisionLimit := rfl
@[simp] theorem intervalInit_window (s : State) : (intervalInit s).window = s.window := rfl
@[simp] theorem intervalInit_acc (s : State) : (intervalInit s).acc = s.acc := rfl
@[simp] theorem intervalInit_nbits (s : State) : (intervalInit s).nbits = s.nbits := rfl
@[simp] theorem intervalInit_pending (s : State) : (intervalInit s).pending = s.pending := rfl
@[simp] theorem intervalInit_rpos (s : State) : (intervalInit s).rpos = s.rpos := rfl
@[simp] theorem intervalInit_rbit (s : State) : (intervalInit s).rbit = s.rbit := rfl
@[simp] theorem intervalInit_total (s : State) : (intervalInit s).total = s.total := rfl
@[simp] theorem intervalInit_ibuf (s : State) : (intervalInit s).ibuf = s.ibuf := rfl
@[simp] theorem intervalInit_sym (s : State) : (intervalInit s).sym = s.sym := rfl
@[simp] theorem intervalInit_dict (s : State) : (intervalInit s).dict = s.dict := rfl
@[simp] theorem intervalInit_ftab (s : State) : (intervalInit s).ftab = s.ftab := rfl
@[simp] theorem intervalInit_bits (s : State) : (intervalInit s).bits = s.bits := rfl
@[simp] theorem intervalInit_obuf (s : State) : (intervalInit s).obuf = s.obuf := rfl
@[simp] theorem intervalInit_cfg (s : State) : (intervalInit s).cfg = s.cfg := rfl
@[simp] theorem intervalInit_port (s : State) : (intervalInit s).port = s.port := rfl

/-! ### A destination set emptied (R320) -/

@[simp] theorem clearDest_status (d : Dest) (s : State) : (clearDest d s).status = s.status := rfl
@[simp] theorem clearDest_err (d : Dest) (s : State) : (clearDest d s).err = s.err := rfl
@[simp] theorem clearDest_errInfo (d : Dest) (s : State) : (clearDest d s).errInfo = s.errInfo := rfl
@[simp] theorem clearDest_mode (d : Dest) (s : State) : (clearDest d s).mode = s.mode := rfl
@[simp] theorem clearDest_low (d : Dest) (s : State) : (clearDest d s).low = s.low := rfl
@[simp] theorem clearDest_high (d : Dest) (s : State) : (clearDest d s).high = s.high := rfl
@[simp] theorem clearDest_window (d : Dest) (s : State) : (clearDest d s).window = s.window := rfl
@[simp] theorem clearDest_acc (d : Dest) (s : State) : (clearDest d s).acc = s.acc := rfl
@[simp] theorem clearDest_nbits (d : Dest) (s : State) : (clearDest d s).nbits = s.nbits := rfl
@[simp] theorem clearDest_pending (d : Dest) (s : State) : (clearDest d s).pending = s.pending := rfl
@[simp] theorem clearDest_rpos (d : Dest) (s : State) : (clearDest d s).rpos = s.rpos := rfl
@[simp] theorem clearDest_rbit (d : Dest) (s : State) : (clearDest d s).rbit = s.rbit := rfl
@[simp] theorem clearDest_total (d : Dest) (s : State) : (clearDest d s).total = if d.total then 0 else s.total := rfl
@[simp] theorem clearDest_ibuf (d : Dest) (s : State) : (clearDest d s).ibuf = s.ibuf := rfl
@[simp] theorem clearDest_sym (d : Dest) (s : State) : (clearDest d s).sym = if d.sym then [] else s.sym := rfl
@[simp] theorem clearDest_dict (d : Dest) (s : State) : (clearDest d s).dict = if d.dict then [] else s.dict := rfl
@[simp] theorem clearDest_ftab (d : Dest) (s : State) : (clearDest d s).ftab = if d.ftab then [] else s.ftab := rfl
@[simp] theorem clearDest_bits (d : Dest) (s : State) : (clearDest d s).bits = if d.bits then [] else s.bits := rfl
@[simp] theorem clearDest_obuf (d : Dest) (s : State) : (clearDest d s).obuf = if d.obuf then [] else s.obuf := rfl
@[simp] theorem clearDest_cfg (d : Dest) (s : State) : (clearDest d s).cfg = s.cfg := rfl
@[simp] theorem clearDest_port (d : Dest) (s : State) : (clearDest d s).port = s.port := rfl

/-! ### Fault entry (R320) -/

@[simp] theorem faultEntry_status (x : Cause) (info : Nat) (d : Dest) (s : State) : (faultEntry x info d s).status = .fault := rfl
@[simp] theorem faultEntry_err (x : Cause) (info : Nat) (d : Dest) (s : State) : (faultEntry x info d s).err = x := rfl
@[simp] theorem faultEntry_errInfo (x : Cause) (info : Nat) (d : Dest) (s : State) : (faultEntry x info d s).errInfo = BitVec.ofNat 64 info := rfl
@[simp] theorem faultEntry_mode (x : Cause) (info : Nat) (d : Dest) (s : State) : (faultEntry x info d s).mode = .idle := rfl
@[simp] theorem faultEntry_low (x : Cause) (info : Nat) (d : Dest) (s : State) : (faultEntry x info d s).low = 0 := rfl
@[simp] theorem faultEntry_high (x : Cause) (info : Nat) (d : Dest) (s : State) : (faultEntry x info d s).high = 0xFFFFFF := rfl
@[simp] theorem faultEntry_window (x : Cause) (info : Nat) (d : Dest) (s : State) : (faultEntry x info d s).window = 0 := rfl
@[simp] theorem faultEntry_acc (x : Cause) (info : Nat) (d : Dest) (s : State) : (faultEntry x info d s).acc = 0 := rfl
@[simp] theorem faultEntry_nbits (x : Cause) (info : Nat) (d : Dest) (s : State) : (faultEntry x info d s).nbits = 0 := rfl
@[simp] theorem faultEntry_pending (x : Cause) (info : Nat) (d : Dest) (s : State) : (faultEntry x info d s).pending = 0 := rfl
@[simp] theorem faultEntry_rpos (x : Cause) (info : Nat) (d : Dest) (s : State) : (faultEntry x info d s).rpos = 0 := rfl
@[simp] theorem faultEntry_rbit (x : Cause) (info : Nat) (d : Dest) (s : State) : (faultEntry x info d s).rbit = 0 := rfl
@[simp] theorem faultEntry_total (x : Cause) (info : Nat) (d : Dest) (s : State) : (faultEntry x info d s).total = if (destUnion d (sessionDest s.mode)).total then 0 else s.total := rfl
@[simp] theorem faultEntry_ibuf (x : Cause) (info : Nat) (d : Dest) (s : State) : (faultEntry x info d s).ibuf = s.ibuf := rfl
@[simp] theorem faultEntry_sym (x : Cause) (info : Nat) (d : Dest) (s : State) : (faultEntry x info d s).sym = if (destUnion d (sessionDest s.mode)).sym then [] else s.sym := rfl
@[simp] theorem faultEntry_dict (x : Cause) (info : Nat) (d : Dest) (s : State) : (faultEntry x info d s).dict = if (destUnion d (sessionDest s.mode)).dict then [] else s.dict := rfl
@[simp] theorem faultEntry_ftab (x : Cause) (info : Nat) (d : Dest) (s : State) : (faultEntry x info d s).ftab = if (destUnion d (sessionDest s.mode)).ftab then [] else s.ftab := rfl
@[simp] theorem faultEntry_bits (x : Cause) (info : Nat) (d : Dest) (s : State) : (faultEntry x info d s).bits = if (destUnion d (sessionDest s.mode)).bits then [] else s.bits := rfl
@[simp] theorem faultEntry_obuf (x : Cause) (info : Nat) (d : Dest) (s : State) : (faultEntry x info d s).obuf = if (destUnion d (sessionDest s.mode)).obuf then [] else s.obuf := rfl
@[simp] theorem faultEntry_cfg (x : Cause) (info : Nat) (d : Dest) (s : State) : (faultEntry x info d s).cfg = s.cfg := rfl
@[simp] theorem faultEntry_port (x : Cause) (info : Nat) (d : Dest) (s : State) : (faultEntry x info d s).port = s.port := rfl

end Sys2Proof.Machine
end

