-- ==== Sys2Proof/Laws/Ops.lean ====
section
/-! SUPPORT. What each shared operation of Machine/Ops.lean can do, said once, and the buffers' canonical form. -/

namespace Sys2Proof.Machine

/-! ### Sequencing and checked arithmetic -/

/-- A sequence of operations answers exactly where each does. -/
theorem bind_ok {α β : Type} {x : Except Stop α} {f : α → Except Stop β} {b : β} :
    (x >>= f) = .ok b ↔ ∃ a, x = .ok a ∧ f a = .ok b := by
  cases x with
  | error e => simp [bind, Except.bind]
  | ok a => simp [bind, Except.bind]

/-- A sequence of operations stops where its first does, or its second after it. -/
theorem bind_error {α β : Type} {x : Except Stop α} {f : α → Except Stop β} {e : Stop} :
    (x >>= f) = .error e ↔ x = .error e ∨ ∃ a, x = .ok a ∧ f a = .error e := by
  cases x with
  | error e => simp [bind, Except.bind]
  | ok a => simp [bind, Except.bind]

theorem fit_ok_iff {w n : Nat} {v : BitVec w} : fit w n = .ok v ↔ n < 2 ^ w ∧ v = BitVec.ofNat w n := by
  unfold fit
  split <;> simp_all [eq_comm]

theorem fit_toNat {w n : Nat} {v : BitVec w} (h : fit w n = .ok v) : v.toNat = n := by
  obtain ⟨hn, rfl⟩ := fit_ok_iff.1 h
  simp [Nat.mod_eq_of_lt hn]

theorem minus_ok_iff {a b c : Nat} : minus a b = .ok c ↔ b ≤ a ∧ c = a - b := by
  unfold minus
  split <;> simp_all [eq_comm]

theorem divide_ok_iff {a b c : Nat} : divide a b = .ok c ↔ b ≠ 0 ∧ c = a / b := by
  unfold divide
  split <;> simp_all [eq_comm]

/-! ### The end of a command and acceptance -/

/-- A command that ends in a next state completed, or took its fault. -/
theorem finish_next {s t : State} {d : Dest} {r : Except Stop State} :
    finish s d r = .next t ↔ r = .ok t ∨ ∃ x info, r = .error (.raise x info) ∧ t = faultEntry x info d s := by
  unfold finish
  split <;> simp [eq_comm]

/-- What acceptance can do (R99): ignore in the fault state, run the body, or refuse the mode. -/
theorem accept_next {i : Instr} {s t : State} {body : State → Except Stop State} :
    accept i s body = .next t ↔
      (s.status = .fault ∧ t = s) ∨
      (s.status = .ready ∧ modeLegal i s.mode = true ∧
        (body s = .ok t ∨ ∃ x info, body s = .error (.raise x info) ∧ t = faultEntry x info (destOf i) s)) ∨
      (s.status = .ready ∧ modeLegal i s.mode = false ∧
        t = faultEntry .illegalCommand (encodeWord i).toNat {} s) := by
  unfold accept
  cases hs : s.status with
  | fault =>
    simp
    exact eq_comm
  | ready =>
    cases hm : modeLegal i s.mode with
    | true => simpa using finish_next
    | false =>
      simp
      exact eq_comm

/-- In `READY` and a legal `MODE`, acceptance runs the body (R99). -/
theorem accept_run {i : Instr} {s : State} {body : State → Except Stop State} (hs : s.status = .ready)
    (hm : modeLegal i s.mode = true) : accept i s body = finish s (destOf i) (body s) := by
  simp [accept, hs, hm]

/-- In the fault state a command is ignored (R321). -/
theorem accept_ignored {i : Instr} {s : State} {body : State → Except Stop State} (hs : s.status = .fault) :
    accept i s body = .next s := by
  simp [accept, hs]

/-! ### The canonical form of the buffers -/

theorem Memory.wf_iff (s : State) : Memory.wf s = true ↔
    s.ibuf.length ≤ s.capIbuf ∧ s.sym.length ≤ s.capSym ∧ dictFits s s.dict = true ∧ s.ftab.length ≤ s.capFtab ∧
    s.bits.length ≤ s.capBits ∧ s.obuf.length ≤ s.capObuf := by
  simp [Memory.wf, and_assoc]

theorem dictFits_iff (s : State) (d : List (List Byte)) : dictFits s d = true ↔
    d.length ≤ s.capDictWords ∧ ∀ w ∈ d, w.length ≤ s.capWordBytes := by
  simp [dictFits]

theorem reset_wf : Memory.wf State.reset = true := by decide

/-- The form depends on the buffers and the configuration alone. -/
theorem wf_of_buffers {s t : State} (h : Memory.wf s = true) (hc : t.cfg = s.cfg)
    (hi : t.ibuf = s.ibuf ∨ t.ibuf.length ≤ s.capIbuf) (hs : t.sym = s.sym ∨ t.sym.length ≤ s.capSym)
    (hd : t.dict = s.dict ∨ dictFits s t.dict = true) (hf : t.ftab = s.ftab ∨ t.ftab.length ≤ s.capFtab)
    (hb : t.bits = s.bits ∨ t.bits.length ≤ s.capBits) (ho : t.obuf = s.obuf ∨ t.obuf.length ≤ s.capObuf) :
    Memory.wf t = true := by
  rw [Memory.wf_iff, dictFits_iff] at h ⊢
  rw [dictFits_iff] at hd
  simp only [State.capIbuf, State.capSym, State.capDictWords, State.capWordBytes, State.capFtab, State.capBits,
    State.capObuf, hc] at *
  obtain ⟨h1, h2, h3, h4, h5, h6⟩ := h
  refine ⟨?_, ?_, ?_, ?_, ?_, ?_⟩
  · rcases hi with e | e
    · rw [e]; exact h1
    · exact e
  · rcases hs with e | e
    · rw [e]; exact h2
    · exact e
  · rcases hd with e | e
    · rw [e]; exact h3
    · exact e
  · rcases hf with e | e
    · rw [e]; exact h4
    · exact e
  · rcases hb with e | e
    · rw [e]; exact h5
    · exact e
  · rcases ho with e | e
    · rw [e]; exact h6
    · exact e

theorem transientClear_wf {s : State} (h : Memory.wf s = true) : Memory.wf (transientClear s) = true :=
  wf_of_buffers h rfl (.inl rfl) (.inl rfl) (.inl rfl) (.inl rfl) (.inl rfl) (.inl rfl)

theorem resetState_wf (s : State) : Memory.wf (resetState s) = true := by
  rw [Memory.wf_iff, dictFits_iff]
  simp

theorem faultEntry_wf {x : Cause} {info : Nat} {d : Dest} {s : State} (h : Memory.wf s = true) :
    Memory.wf (faultEntry x info d s) = true := by
  have hd : dictFits s [] = true := by simp [dictFits]
  refine wf_of_buffers h (by simp) (.inl (by simp)) ?_ ?_ ?_ ?_ ?_ <;> simp only [faultEntry_sym, faultEntry_dict,
    faultEntry_ftab, faultEntry_bits, faultEntry_obuf] <;> split <;> simp [hd]

theorem acceptIllegal_wf {w : Command} {s : State} (h : Memory.wf s = true) : Memory.wf (acceptIllegal w s) = true := by
  unfold acceptIllegal
  split
  · exact h
  · exact faultEntry_wf h

/-- A command keeps the canonical form where its body does. -/
theorem accept_wf {i : Instr} {s t : State} {body : State → Except Stop State} (h : Memory.wf s = true)
    (hb : ∀ u, body s = .ok u → Memory.wf u = true) (ht : accept i s body = .next t) : Memory.wf t = true := by
  rcases accept_next.1 ht with ⟨-, rfl⟩ | ⟨-, -, hr | ⟨x, info, -, rfl⟩⟩ | ⟨-, -, rfl⟩
  · exact h
  · exact hb t hr
  · exact faultEntry_wf h
  · exact faultEntry_wf h

/-! ### Host loads -/

/-- A host load is the loaded state, or nothing (R70, R72). -/
theorem hostLoad_cases (s loaded : State) (fits : Bool) :
    (hostLoad s fits loaded = loaded ∧ fits = true ∧ s.status = .ready ∧ s.mode = .idle) ∨ hostLoad s fits loaded = s := by
  unfold hostLoad
  split <;> simp_all

theorem hostLoadIbuf_wf {s : State} (b : List Byte) (h : Memory.wf s = true) : Memory.wf (hostLoadIbuf b s) = true := by
  unfold hostLoadIbuf
  rcases hostLoad_cases s { s with ibuf := b } (decide (b.length ≤ s.capIbuf)) with ⟨e, hf, -⟩ | e <;> rw [e]
  · exact wf_of_buffers h rfl (.inr (of_decide_eq_true hf)) (.inl rfl) (.inl rfl) (.inl rfl) (.inl rfl) (.inl rfl)
  · exact h

theorem hostLoadSym_wf {s : State} (x : List Sym) (h : Memory.wf s = true) : Memory.wf (hostLoadSym x s) = true := by
  unfold hostLoadSym
  rcases hostLoad_cases s { s with sym := x } (decide (x.length ≤ s.capSym)) with ⟨e, hf, -⟩ | e <;> rw [e]
  · exact wf_of_buffers h rfl (.inl rfl) (.inr (of_decide_eq_true hf)) (.inl rfl) (.inl rfl) (.inl rfl) (.inl rfl)
  · exact h

theorem hostLoadDict_wf {s : State} (d : List (List Byte)) (h : Memory.wf s = true) :
    Memory.wf (hostLoadDict d s) = true := by
  unfold hostLoadDict
  rcases hostLoad_cases s { s with dict := d } (dictFits s d) with ⟨e, hf, -⟩ | e <;> rw [e]
  · exact wf_of_buffers h rfl (.inl rfl) (.inl rfl) (.inr hf) (.inl rfl) (.inl rfl) (.inl rfl)
  · exact h

theorem hostLoadFtab_wf {s : State} (f : List Entry) (h : Memory.wf s = true) : Memory.wf (hostLoadFtab f s) = true := by
  unfold hostLoadFtab
  rcases hostLoad_cases s { s with ftab := f } (decide (f.length ≤ s.capFtab)) with ⟨e, hf, -⟩ | e <;> rw [e]
  · exact wf_of_buffers h rfl (.inl rfl) (.inl rfl) (.inl rfl) (.inr (of_decide_eq_true hf)) (.inl rfl) (.inl rfl)
  · exact h

theorem hostLoadBits_wf {s : State} (b : List Byte) (h : Memory.wf s = true) : Memory.wf (hostLoadBits b s) = true := by
  unfold hostLoadBits
  rcases hostLoad_cases s { s with bits := b } (decide (b.length ≤ s.capBits)) with ⟨e, hf, -⟩ | e <;> rw [e]
  · exact wf_of_buffers h rfl (.inl rfl) (.inl rfl) (.inl rfl) (.inl rfl) (.inr (of_decide_eq_true hf)) (.inl rfl)
  · exact h

theorem hostLoadTotal_wf {s : State} (v : BitVec 64) (h : Memory.wf s = true) : Memory.wf (hostLoadTotal v s) = true := by
  unfold hostLoadTotal
  rcases hostLoad_cases s { s with total := v } true with ⟨e, -⟩ | e <;> rw [e]
  · exact wf_of_buffers h rfl (.inl rfl) (.inl rfl) (.inl rfl) (.inl rfl) (.inl rfl) (.inl rfl)
  · exact h

end Sys2Proof.Machine
end

