-- ==== Sys2Proof/Laws/BitChannel.lean ====
section
/-! SUPPORT. What each operation of the bit channel can do, said once. -/

namespace Sys2Proof.Machine

/-- The frame of the writer's operations: nothing but `BITS`, `ACC`, `NBITS` and `PENDING` changes, `BITS` only grows, and stays
within its capacity. -/
def WriterFrame (s t : State) : Prop :=
  t = { s with bits := t.bits, acc := t.acc, nbits := t.nbits, pending := t.pending } ∧ s.bits <+: t.bits ∧
  (s.bits.length ≤ s.capBits → t.bits.length ≤ s.capBits)

theorem WriterFrame.refl (s : State) : WriterFrame s s := ⟨rfl, List.prefix_rfl, id⟩

theorem WriterFrame.cfg {s t : State} (h : WriterFrame s t) : t.cfg = s.cfg := by rw [h.1]

theorem WriterFrame.capBits {s t : State} (h : WriterFrame s t) : t.capBits = s.capBits := by
  unfold State.capBits
  rw [h.cfg]

theorem WriterFrame.trans {s t u : State} (h : WriterFrame s t) (k : WriterFrame t u) : WriterFrame s u := by
  refine ⟨?_, h.2.1.trans k.2.1, fun hs => ?_⟩
  · have h1 := h.1
    have k1 := k.1
    rw [h1] at k1
    exact k1
  · have := k.2.2
    rw [h.capBits] at this
    exact this (h.2.2 hs)

theorem appendByte_ok {v : Nat} {s t : State} (h : appendByte v s = .ok t) :
    s.bits.length ≠ s.capBits ∧ v < 256 ∧
    t = { s with bits := s.bits ++ [BitVec.ofNat 8 v], acc := 0, nbits := 0 } := by
  unfold appendByte at h
  split at h
  · simp at h
  · rename_i hc
    obtain ⟨byte, hb, ht⟩ := bind_ok.1 h
    obtain ⟨hv, rfl⟩ := fit_ok_iff.1 hb
    exact ⟨hc, hv, (Except.ok.inj ht).symm⟩

theorem appendByte_frame {v : Nat} {s t : State} (h : appendByte v s = .ok t) : WriterFrame s t := by
  obtain ⟨hc, -, rfl⟩ := appendByte_ok h
  refine ⟨rfl, List.prefix_append _ _, fun hs => ?_⟩
  simp only [List.length_append, List.length_singleton]
  omega

/-- What `WriteBit` can do (R131): complete a byte, or lengthen the accumulator. -/
theorem writeBit_ok {b : Bit} {s t : State} (h : writeBit b s = .ok t) :
    2 * s.acc.toNat + b.toNat < 256 ∧
    ((s.nbits = 7 ∧ s.bits.length ≠ s.capBits ∧
      t = { s with bits := s.bits ++ [BitVec.ofNat 8 (2 * s.acc.toNat + b.toNat)], acc := 0, nbits := 0 }) ∨
    (s.nbits ≠ 7 ∧ t = { s with acc := BitVec.ofNat 8 (2 * s.acc.toNat + b.toNat), nbits := s.nbits + 1 })) := by
  unfold writeBit at h
  split at h
  · rename_i h7
    obtain ⟨hc, hv, rfl⟩ := appendByte_ok h
    exact ⟨hv, .inl ⟨h7, hc, rfl⟩⟩
  · rename_i h7
    obtain ⟨v, hv, ht⟩ := bind_ok.1 h
    obtain ⟨hlt, rfl⟩ := fit_ok_iff.1 hv
    exact ⟨hlt, .inr ⟨h7, (Except.ok.inj ht).symm⟩⟩

theorem writeBit_frame {b : Bit} {s t : State} (h : writeBit b s = .ok t) : WriterFrame s t := by
  obtain ⟨-, ⟨-, hc, rfl⟩ | ⟨-, rfl⟩⟩ := writeBit_ok h
  · refine ⟨rfl, List.prefix_append _ _, fun hs => ?_⟩
    simp only [List.length_append, List.length_singleton]
    omega
  · exact ⟨rfl, List.prefix_rfl, id⟩

theorem writeBits_frame {n : Nat} {b : Bit} : ∀ {s t : State}, writeBits n b s = .ok t → WriterFrame s t := by
  induction n with
  | zero =>
    intro s t h
    cases h
    exact .refl s
  | succ n ih =>
    intro s t h
    obtain ⟨u, hu, ht⟩ := bind_ok.1 h
    exact (writeBit_frame hu).trans (ih ht)

/-- What `Emit` can do (R132): the bit, its followers, and a clear counter. -/
theorem emit_ok {b : Bit} {s t : State} (h : emit b s = .ok t) :
    ∃ u v, writeBit b s = .ok u ∧ writeBits u.pending.toNat (~~~b) u = .ok v ∧ t = { v with pending := 0 } := by
  obtain ⟨u, hu, h⟩ := bind_ok.1 h
  obtain ⟨v, hv, ht⟩ := bind_ok.1 h
  exact ⟨u, v, hu, hv, (Except.ok.inj ht).symm⟩

theorem emit_frame {b : Bit} {s t : State} (h : emit b s = .ok t) : WriterFrame s t := by
  obtain ⟨u, v, hu, hv, rfl⟩ := emit_ok h
  exact ((writeBit_frame hu).trans (writeBits_frame hv)).trans ⟨rfl, List.prefix_rfl, id⟩

/-- What `Defer` can do (R133). -/
theorem defer_ok {s t : State} (h : defer s = .ok t) :
    s.pending.toNat < 2 ^ 32 - 1 ∧ t = { s with pending := s.pending + 1 } := by
  unfold defer at h
  split at h
  · simp at h
  · rename_i hp
    have := s.pending.isLt
    exact ⟨by omega, (Except.ok.inj h).symm⟩

theorem defer_frame {s t : State} (h : defer s = .ok t) : WriterFrame s t := by
  obtain ⟨-, rfl⟩ := defer_ok h
  exact ⟨rfl, List.prefix_rfl, id⟩

theorem padByte_frame {s t : State} (h : padByte s = .ok t) : WriterFrame s t := by
  unfold padByte at h
  split at h
  · cases h
    exact .refl s
  · exact appendByte_frame h

theorem writerFinish_frame {s t : State} (h : writerFinish s = .ok t) : WriterFrame s t := by
  obtain ⟨u, hu, h⟩ := bind_ok.1 h
  obtain ⟨v, hv, ht⟩ := bind_ok.1 h
  exact ((defer_frame hu).trans (emit_frame hv)).trans (padByte_frame ht)

/-- What `ReadBit` can do (R136): answer the stream bit and advance the cursor. -/
theorem readBit_ok {s : State} {r : Bit × State} (h : readBit s = .ok r) :
    s.rpos.toNat < 2 ^ 32 - 1 ∧ r = (streamBit s.bits s.rpos.toNat, { s with rpos := s.rpos + 1 }) := by
  unfold readBit at h
  split at h
  · simp at h
  · rename_i hp
    have := s.rpos.isLt
    exact ⟨by omega, (Except.ok.inj h).symm⟩

/-- What a shift of the window can do (R135, R170): nothing but `WINDOW` and `RPOS` changes. -/
theorem shiftWindow_ok {s t : State} (h : shiftWindow s = .ok t) :
    s.rpos.toNat < 2 ^ 32 - 1 ∧ t = { s with rpos := s.rpos + 1, window := t.window } ∧
    t.window.toNat = 2 * s.window.toNat + (streamBit s.bits s.rpos.toNat).toNat := by
  obtain ⟨⟨bit, u⟩, hr, h⟩ := bind_ok.1 h
  obtain ⟨hp, hr⟩ := readBit_ok hr
  obtain ⟨rfl, rfl⟩ := Prod.mk.inj hr
  obtain ⟨w, hw, ht⟩ := bind_ok.1 h
  obtain rfl := Except.ok.inj ht
  exact ⟨hp, rfl, fit_toNat hw⟩

theorem shiftWindows_frame {n : Nat} : ∀ {s t : State}, shiftWindows n s = .ok t →
    t = { s with rpos := t.rpos, window := t.window } := by
  induction n with
  | zero =>
    intro s t h
    cases h
    rfl
  | succ n ih =>
    intro s t h
    obtain ⟨u, hu, ht⟩ := bind_ok.1 h
    have h1 := (shiftWindow_ok hu).2.1
    have h2 := ih ht
    rw [h1] at h2
    exact h2

theorem readerInit_frame {s t : State} (h : readerInit s = .ok t) : t = { s with rpos := t.rpos, window := t.window } := by
  have := shiftWindows_frame h
  exact this

/-- The writer keeps the canonical form. -/
theorem WriterFrame.wf {s t : State} (f : WriterFrame s t) (h : Memory.wf s = true) : Memory.wf t = true := by
  have hb := ((Memory.wf_iff s).1 h).2.2.2.2.1
  refine wf_of_buffers h f.cfg ?_ ?_ ?_ ?_ (.inr (f.2.2 hb)) ?_ <;> left <;> rw [f.1]

end Sys2Proof.Machine
end

