-- ==== Sys2Proof/Laws/IntervalCodec.lean ====
section
/-! SUPPORT. What each operation of the interval codec can do, said once. -/

namespace Sys2Proof.Machine

/-! ### The constants and the classification -/

theorem firstQtr_eq : firstQtr = 2 ^ 22 := by decide
theorem half_eq : half = 2 ^ 23 := by decide
theorem thirdQtr_eq : thirdQtr = 3 * 2 ^ 22 := by decide
theorem maxTotal_eq : maxTotal = 2 ^ 22 := by decide

theorem classify_stop_iff {low high : Bound} : classify low high = .stop ↔
    low.toNat < half ∧ half ≤ high.toNat ∧ (low.toNat < firstQtr ∨ thirdQtr ≤ high.toNat) := by
  unfold classify
  split
  · simp; omega
  · split
    · simp; omega
    · split <;> simp <;> omega

theorem classify_e1_iff {low high : Bound} : classify low high = .e1 ↔ high.toNat < half := by
  unfold classify
  split
  · simpa
  · split
    · simp; omega
    · split <;> simp <;> omega

theorem classify_e2_iff {low high : Bound} : classify low high = .e2 ↔ half ≤ high.toNat ∧ half ≤ low.toNat := by
  unfold classify
  split
  · simp; omega
  · split
    · simp; omega
    · split <;> simp <;> omega

theorem classify_e3_iff {low high : Bound} : classify low high = .e3 ↔
    half ≤ high.toNat ∧ low.toNat < half ∧ firstQtr ≤ low.toNat ∧ high.toNat < thirdQtr := by
  unfold classify
  split
  · simp; omega
  · split
    · simp; omega
    · split <;> simp <;> omega

/-! ### Narrowing and scaling -/

theorem rangeOf_ok {s : State} {r : Nat} (h : rangeOf s = .ok r) :
    s.low.toNat ≤ s.high.toNat ∧ r = s.high.toNat - s.low.toNat + 1 := by
  obtain ⟨w, hw, hr⟩ := bind_ok.1 h
  obtain ⟨hle, rfl⟩ := minus_ok_iff.1 hw
  exact ⟨hle, (Except.ok.inj hr).symm⟩

/-- What `Narrow` can do (R161): only the bounds change, to the formulas' values. -/
theorem narrow_ok {cs ce T : Nat} {s t : State} (h : narrow cs ce T s = .ok t) :
    s.low.toNat ≤ s.high.toNat ∧ T ≠ 0 ∧ t = { s with high := t.high, low := t.low } ∧
    t.high.toNat = s.low.toNat + (s.high.toNat - s.low.toNat + 1) * ce / T - 1 ∧
    t.low.toNat = s.low.toNat + (s.high.toNat - s.low.toNat + 1) * cs / T := by
  obtain ⟨r, hr, h⟩ := bind_ok.1 h
  obtain ⟨hle, rfl⟩ := rangeOf_ok hr
  obtain ⟨u, hu, h⟩ := bind_ok.1 h
  obtain ⟨hT, rfl⟩ := divide_ok_iff.1 hu
  obtain ⟨l, hl, h⟩ := bind_ok.1 h
  obtain ⟨-, rfl⟩ := divide_ok_iff.1 hl
  obtain ⟨n, hn, h⟩ := bind_ok.1 h
  obtain ⟨-, rfl⟩ := minus_ok_iff.1 hn
  obtain ⟨hi, hhi, h⟩ := bind_ok.1 h
  obtain ⟨lo, hlo, h⟩ := bind_ok.1 h
  obtain rfl := Except.ok.inj h
  exact ⟨hle, hT, rfl, fit_toNat hhi, fit_toNat hlo⟩

/-- What `Scale` can do (R168). -/
theorem scale_ok {s t : State} (h : scale s = .ok t) : t = { s with low := t.low, high := t.high } ∧
    t.low.toNat = 2 * s.low.toNat ∧ t.high.toNat = 2 * s.high.toNat + 1 := by
  obtain ⟨lo, hlo, h⟩ := bind_ok.1 h
  obtain ⟨hi, hhi, h⟩ := bind_ok.1 h
  obtain rfl := Except.ok.inj h
  exact ⟨rfl, fit_toNat hlo, fit_toNat hhi⟩

/-- What the subtraction of cases E2 and E3 can do (R165, R166). -/
theorem lowerBounds_ok {d : Nat} {s t : State} (h : lowerBounds d s = .ok t) :
    d ≤ s.low.toNat ∧ d ≤ s.high.toNat ∧ t = { s with low := t.low, high := t.high } ∧
    t.low.toNat = s.low.toNat - d ∧ t.high.toNat = s.high.toNat - d := by
  obtain ⟨lo, hlo, h⟩ := bind_ok.1 h
  obtain ⟨hi, hhi, h⟩ := bind_ok.1 h
  obtain ⟨h1, rfl⟩ := minus_ok_iff.1 hlo
  obtain ⟨h2, rfl⟩ := minus_ok_iff.1 hhi
  obtain rfl := Except.ok.inj h
  have := s.low.isLt
  have := s.high.isLt
  refine ⟨h1, h2, rfl, ?_, ?_⟩ <;> simp only [BitVec.toNat_ofNat] <;> exact Nat.mod_eq_of_lt (by omega)

/-- What the decoder's subtraction from its window can do (R170). -/
theorem lowerWindow_ok {d : Nat} {s t : State} (h : lowerWindow d s = .ok t) :
    d ≤ s.window.toNat ∧ t = { s with window := t.window } ∧ t.window.toNat = s.window.toNat - d := by
  obtain ⟨w, hw, h⟩ := bind_ok.1 h
  obtain ⟨h1, rfl⟩ := minus_ok_iff.1 hw
  obtain rfl := Except.ok.inj h
  have := s.window.isLt
  refine ⟨h1, rfl, ?_⟩
  simp only [BitVec.toNat_ofNat]
  exact Nat.mod_eq_of_lt (by omega)

/-! ### Frames of the encoder's operations -/

/-- The frame of encoding: the bounds and the writer. -/
def EncFrame (s t : State) : Prop :=
  t = { s with low := t.low, high := t.high, bits := t.bits, acc := t.acc, nbits := t.nbits, pending := t.pending } ∧
  s.bits <+: t.bits ∧ (s.bits.length ≤ s.capBits → t.bits.length ≤ s.capBits)

theorem EncFrame.refl (s : State) : EncFrame s s := ⟨rfl, List.prefix_rfl, id⟩

theorem EncFrame.cfg {s t : State} (h : EncFrame s t) : t.cfg = s.cfg := by rw [h.1]

theorem EncFrame.capBits {s t : State} (h : EncFrame s t) : t.capBits = s.capBits := by
  unfold State.capBits
  rw [h.cfg]

theorem EncFrame.trans {s t u : State} (h : EncFrame s t) (k : EncFrame t u) : EncFrame s u := by
  refine ⟨?_, h.2.1.trans k.2.1, fun hs => ?_⟩
  · have h1 := h.1
    have k1 := k.1
    rw [h1] at k1
    exact k1
  · have := k.2.2
    rw [h.capBits] at this
    exact this (h.2.2 hs)

theorem EncFrame.of_writer {s t : State} (h : WriterFrame s t) : EncFrame s t := by
  refine ⟨?_, h.2.1, h.2.2⟩
  rw [h.1]

theorem EncFrame.of_bounds {s t : State} (h : t = { s with low := t.low, high := t.high }) : EncFrame s t := by
  have hb : t.bits = s.bits := by rw [h]
  refine ⟨?_, by rw [hb], by rw [hb]; exact id⟩
  rw [h]

theorem encCase_frame {c : RenormCase} {s t : State} (h : encCase c s = .ok t) : EncFrame s t := by
  cases c with
  | e1 => exact .of_writer (emit_frame h)
  | e2 =>
    obtain ⟨u, hu, ht⟩ := bind_ok.1 h
    exact (EncFrame.of_writer (emit_frame hu)).trans (.of_bounds (lowerBounds_ok ht).2.2.1)
  | e3 =>
    obtain ⟨u, hu, ht⟩ := bind_ok.1 h
    exact (EncFrame.of_writer (defer_frame hu)).trans (.of_bounds (lowerBounds_ok ht).2.2.1)
  | stop =>
    cases h
    exact .refl s

/-- What the encoder's loop can do (R163): it ends where renormalization stops. -/
theorem renormEncLoop_ok {n : Nat} : ∀ {s t : State}, renormEncLoop n s = .ok t →
    EncFrame s t ∧ classify t.low t.high = .stop := by
  induction n with
  | zero =>
    intro s t h
    unfold renormEncLoop at h
    split at h
    · cases h
      exact ⟨.refl s, ‹_›⟩
    · simp at h
  | succ n ih =>
    intro s t h
    unfold renormEncLoop at h
    split at h
    · cases h
      exact ⟨.refl s, ‹_›⟩
    · obtain ⟨u, hu, h⟩ := bind_ok.1 h
      obtain ⟨v, hv, h⟩ := bind_ok.1 h
      obtain ⟨hf, hs⟩ := ih h
      exact ⟨((encCase_frame hu).trans (.of_bounds (scale_ok hv).1)).trans hf, hs⟩

/-- What `EncodeSymbol` can do (R172). -/
theorem encodeSymbol_ok {x : Sym} {s t : State} (h : encodeSymbol x s = .ok t) :
    EncFrame s t ∧ classify t.low t.high = .stop ∧ ∃ e, findSym s.ftab x = some e := by
  unfold encodeSymbol at h
  split at h
  · simp at h
  · rename_i e he
    obtain ⟨u, hu, ht⟩ := bind_ok.1 h
    obtain ⟨hf, hs⟩ := renormEncLoop_ok ht
    have hn : u = { s with low := u.low, high := u.high } := (narrow_ok hu).2.2.1
    exact ⟨(EncFrame.of_bounds hn).trans hf, hs, e, he⟩

theorem encodeSymbols_frame : ∀ {xs : List Sym} {s t : State}, encodeSymbols xs s = .ok t → EncFrame s t := by
  intro xs
  induction xs with
  | nil =>
    intro s t h
    cases h
    exact .refl s
  | cons x xs ih =>
    intro s t h
    obtain ⟨u, hu, ht⟩ := bind_ok.1 h
    exact (encodeSymbol_ok hu).1.trans (ih ht)

theorem EncFrame.wf {s t : State} (f : EncFrame s t) (h : Memory.wf s = true) : Memory.wf t = true := by
  have hb := ((Memory.wf_iff s).1 h).2.2.2.2.1
  refine wf_of_buffers h f.cfg ?_ ?_ ?_ ?_ (.inr (f.2.2 hb)) ?_ <;> left <;> rw [f.1]

/-! ### Frames of the decoder's operations -/

/-- The frame of renormalization in the decoder: the bounds, the window and the cursor. -/
def DecFrame (s t : State) : Prop :=
  t = { s with low := t.low, high := t.high, window := t.window, rpos := t.rpos }

theorem DecFrame.trans {s t u : State} (h : DecFrame s t) (k : DecFrame t u) : DecFrame s u := by
  unfold DecFrame at h k ⊢
  rw [h] at k
  exact k

theorem decCase_frame {c : RenormCase} {s t : State} (h : decCase c s = .ok t) : DecFrame s t := by
  cases c with
  | e1 => cases h; rfl
  | e2 =>
    obtain ⟨u, hu, ht⟩ := bind_ok.1 h
    have h1 := (lowerBounds_ok hu).2.2.1
    have h2 := (lowerWindow_ok ht).2.1
    rw [h1] at h2
    unfold DecFrame
    rw [h2]
  | e3 =>
    obtain ⟨u, hu, ht⟩ := bind_ok.1 h
    have h1 := (lowerBounds_ok hu).2.2.1
    have h2 := (lowerWindow_ok ht).2.1
    rw [h1] at h2
    unfold DecFrame
    rw [h2]
  | stop => cases h; rfl

/-- What the decoder's loop can do (R170): it ends where renormalization stops. -/
theorem renormDecLoop_ok {n : Nat} : ∀ {s t : State}, renormDecLoop n s = .ok t →
    DecFrame s t ∧ classify t.low t.high = .stop := by
  induction n with
  | zero =>
    intro s t h
    unfold renormDecLoop at h
    split at h
    · cases h
      exact ⟨rfl, ‹_›⟩
    · simp at h
  | succ n ih =>
    intro s t h
    unfold renormDecLoop at h
    split at h
    · cases h
      exact ⟨rfl, ‹_›⟩
    · obtain ⟨u, hu, h⟩ := bind_ok.1 h
      obtain ⟨v, hv, h⟩ := bind_ok.1 h
      obtain ⟨w, hw, h⟩ := bind_ok.1 h
      obtain ⟨hf, hs⟩ := ih h
      have h1 : DecFrame u v := by
        have := (scale_ok hv).1
        unfold DecFrame
        rw [this]
      have h2 : DecFrame v w := by
        have := (shiftWindow_ok hw).2.1
        unfold DecFrame
        rw [this]
      exact ⟨(((decCase_frame hu).trans h1).trans h2).trans hf, hs⟩

/-- What `DecodeTarget` can answer (R169). -/
theorem decodeTarget_ok {T target : Nat} {s : State} (h : decodeTarget T s = .ok target) :
    s.low.toNat ≤ s.high.toNat ∧ s.low.toNat ≤ s.window.toNat ∧
    target = ((s.window.toNat - s.low.toNat + 1) * T - 1) / (s.high.toNat - s.low.toNat + 1) := by
  obtain ⟨r, hr, h⟩ := bind_ok.1 h
  obtain ⟨hle, rfl⟩ := rangeOf_ok hr
  obtain ⟨o, ho, h⟩ := bind_ok.1 h
  obtain ⟨hw, rfl⟩ := minus_ok_iff.1 ho
  obtain ⟨n, hn, h⟩ := bind_ok.1 h
  obtain ⟨-, rfl⟩ := minus_ok_iff.1 hn
  obtain ⟨-, rfl⟩ := divide_ok_iff.1 h
  exact ⟨hle, hw, rfl⟩

/-- What `DecodeSymbol` can do (R176): append the symbol of the entry found, and move interval, window and cursor. -/
theorem decodeSymbol_ok {s t : State} (h : decodeSymbol s = .ok t) :
    ∃ target e, decodeTarget s.total.toNat s = .ok target ∧ findCum s.ftab target = some e ∧
      s.sym.length ≠ s.capSym ∧ classify t.low t.high = .stop ∧
      t = { s with low := t.low, high := t.high, window := t.window, rpos := t.rpos, sym := s.sym ++ [e.sym] } := by
  obtain ⟨target, ht, h⟩ := bind_ok.1 h
  split at h
  · simp at h
  · rename_i e he
    split at h
    · simp at h
    · rename_i hc
      obtain ⟨u, hu, h⟩ := bind_ok.1 h
      obtain ⟨hf, hs⟩ := renormDecLoop_ok h
      have hn := (narrow_ok hu).2.2.1
      refine ⟨target, e, ht, he, hc, hs, ?_⟩
      unfold DecFrame at hf
      rw [hn] at hf
      exact hf

theorem decodeSymbol_wf {s t : State} (h : decodeSymbol s = .ok t) (hw : Memory.wf s = true) : Memory.wf t = true := by
  obtain ⟨target, e, -, -, hc, -, ht⟩ := decodeSymbol_ok h
  have hs := ((Memory.wf_iff s).1 hw).2.1
  refine wf_of_buffers hw ?_ (.inl ?_) (.inr ?_) (.inl ?_) (.inl ?_) (.inl ?_) (.inl ?_) <;> rw [ht]
  simp only [List.length_append, List.length_singleton]
  omega

end Sys2Proof.Machine
end

