-- ==== Sys2Proof/Laws/Commands.lean ====
section
/-! SUPPORT. What the bodies of the commands can do, and that each keeps the buffers' canonical form. -/

namespace Sys2Proof.Machine

/-! ### Sessions -/

theorem encBeginBody_ok {s t : State} (h : encBeginBody s = .ok t) :
    tableCheck s = .ok () ∧ t = { intervalInit (writerInit s) with mode := .enc } := by
  obtain ⟨u, hu, ht⟩ := bind_ok.1 h
  exact ⟨hu, (Except.ok.inj ht).symm⟩

theorem encEndBody_ok {s t : State} (h : encEndBody s = .ok t) :
    ∃ u, writerFinish s = .ok u ∧ t = { transientClear u with mode := .idle } := by
  obtain ⟨u, hu, ht⟩ := bind_ok.1 h
  exact ⟨u, hu, (Except.ok.inj ht).symm⟩

/-- What `ENC.RUN` can do (R174): the empty stream, or a whole session. -/
theorem encRunBody_ok {s t : State} (h : encRunBody s = .ok t) :
    (s.sym = [] ∧ t = { s with bits := [] }) ∨
    (s.sym ≠ [] ∧ ∃ u v, encBeginBody s = .ok u ∧ encodeSymbols s.sym u = .ok v ∧ encEndBody v = .ok t) := by
  unfold encRunBody at h
  split at h
  · exact .inl ⟨List.length_eq_zero_iff.1 ‹_›, (Except.ok.inj h).symm⟩
  · rename_i hs
    obtain ⟨u, hu, h⟩ := bind_ok.1 h
    obtain ⟨v, hv, h⟩ := bind_ok.1 h
    have hus : u.sym = s.sym := by rw [(encBeginBody_ok hu).2]; rfl
    rw [hus] at hv
    exact .inr ⟨fun e => hs (by rw [e]; rfl), u, v, hu, hv, h⟩

theorem decBeginBody_ok {s t : State} (h : decBeginBody s = .ok t) :
    tableCheck s = .ok () ∧ ∃ u, readerInit { s with sym := [] } = .ok u ∧ t = { intervalInit u with mode := .dec } := by
  obtain ⟨a, ha, h⟩ := bind_ok.1 h
  obtain ⟨u, hu, ht⟩ := bind_ok.1 h
  exact ⟨ha, u, hu, (Except.ok.inj ht).symm⟩

/-- What `DEC.RUN` can do (R178): no symbols, or a whole session. -/
theorem decRunBody_ok {s t : State} (h : decRunBody s = .ok t) :
    tableCheck s = .ok () ∧
    ((s.total.toNat = 0 ∧ t = { s with sym := [] }) ∨
    (s.total.toNat ≠ 0 ∧ ∃ u v, decBeginBody s = .ok u ∧ decodeSymbols u.total.toNat u = .ok v ∧ decEndBody v = .ok t)) := by
  obtain ⟨a, ha, h⟩ := bind_ok.1 h
  refine ⟨ha, ?_⟩
  split at h
  · exact .inl ⟨‹_›, (Except.ok.inj h).symm⟩
  · rename_i hT
    obtain ⟨u, hu, h⟩ := bind_ok.1 h
    obtain ⟨v, hv, h⟩ := bind_ok.1 h
    exact .inr ⟨hT, u, v, hu, hv, h⟩

theorem bits_nil_wf {s : State} (h : Memory.wf s = true) : Memory.wf { s with bits := [] } = true :=
  wf_of_buffers h rfl (.inl rfl) (.inl rfl) (.inl rfl) (.inl rfl) (.inr (Nat.zero_le _)) (.inl rfl)

theorem sym_nil_wf {s : State} (h : Memory.wf s = true) : Memory.wf { s with sym := [] } = true :=
  wf_of_buffers h rfl (.inl rfl) (.inr (Nat.zero_le _)) (.inl rfl) (.inl rfl) (.inl rfl) (.inl rfl)

theorem encBeginBody_wf {s t : State} (h : encBeginBody s = .ok t) (hw : Memory.wf s = true) : Memory.wf t = true := by
  rw [(encBeginBody_ok h).2]
  exact wf_of_buffers hw rfl (.inl rfl) (.inl rfl) (.inl rfl) (.inl rfl) (.inr (Nat.zero_le _)) (.inl rfl)

theorem encEndBody_wf {s t : State} (h : encEndBody s = .ok t) (hw : Memory.wf s = true) : Memory.wf t = true := by
  obtain ⟨u, hu, rfl⟩ := encEndBody_ok h
  exact transientClear_wf ((writerFinish_frame hu).wf hw)

theorem encRunBody_wf {s t : State} (h : encRunBody s = .ok t) (hw : Memory.wf s = true) : Memory.wf t = true := by
  rcases encRunBody_ok h with ⟨-, rfl⟩ | ⟨-, u, v, hu, hv, ht⟩
  · exact bits_nil_wf hw
  · exact encEndBody_wf ht ((encodeSymbols_frame hv).wf (encBeginBody_wf hu hw))

theorem decBeginBody_wf {s t : State} (h : decBeginBody s = .ok t) (hw : Memory.wf s = true) : Memory.wf t = true := by
  obtain ⟨-, u, hu, rfl⟩ := decBeginBody_ok h
  have hf := readerInit_frame hu
  have : Memory.wf u = true := by
    refine wf_of_buffers (sym_nil_wf hw) ?_ (.inl ?_) (.inl ?_) (.inl ?_) (.inl ?_) (.inl ?_) (.inl ?_) <;> rw [hf]
  exact this

theorem decodeSymbols_wf : ∀ {n : Nat} {s t : State}, decodeSymbols n s = .ok t → Memory.wf s = true → Memory.wf t = true := by
  intro n
  induction n with
  | zero =>
    intro s t h hw
    cases h
    exact hw
  | succ n ih =>
    intro s t h hw
    obtain ⟨u, hu, ht⟩ := bind_ok.1 h
    exact ih ht (decodeSymbol_wf hu hw)

theorem decRunBody_wf {s t : State} (h : decRunBody s = .ok t) (hw : Memory.wf s = true) : Memory.wf t = true := by
  obtain ⟨-, ⟨-, rfl⟩ | ⟨-, u, v, hu, hv, ht⟩⟩ := decRunBody_ok h
  · exact sym_nil_wf hw
  · have hb := Except.ok.inj ht
    rw [← hb]
    exact transientClear_wf (s := v) (decodeSymbols_wf hv (decBeginBody_wf hu hw))

/-! ### Frequency model -/

theorem buildEntries_length (syms : List Sym) : ∀ (ids : List Sym) (running : Nat),
    (buildEntries syms running ids).length = ids.length := by
  intro ids
  induction ids with
  | nil => intro running; rfl
  | cons d ds ih =>
    intro running
    simp [buildEntries, ih]

/-- What `FM.BUILD` can do (R201). -/
theorem fmBuildBody_ok {s t : State} (h : fmBuildBody s = .ok t) :
    s.sym.length < maxTotal ∧ (distinctIds s.sym).length ≤ s.capFtab ∧
    t = { s with ftab := buildEntries s.sym 0 (distinctIds s.sym),
                 total := BitVec.ofNat 64 (countSum s.sym (distinctIds s.sym)) } := by
  unfold fmBuildBody at h
  split at h
  · simp at h
  · split at h
    · simp at h
    · exact ⟨by omega, by omega, (Except.ok.inj h).symm⟩

theorem fmBuildBody_wf {s t : State} (h : fmBuildBody s = .ok t) (hw : Memory.wf s = true) : Memory.wf t = true := by
  obtain ⟨-, hc, rfl⟩ := fmBuildBody_ok h
  refine wf_of_buffers hw rfl (.inl rfl) (.inl rfl) (.inl rfl) (.inr ?_) (.inl rfl) (.inl rfl)
  simpa [buildEntries_length] using hc

theorem fmCheckBody_ok {s t : State} (h : fmCheckBody s = .ok t) : tableCheck s = .ok () ∧ t = s := by
  obtain ⟨a, ha, ht⟩ := bind_ok.1 h
  exact ⟨ha, (Except.ok.inj ht).symm⟩

/-! ### Dictionary -/

theorem dxFindBody_ok {s t : State} (h : dxFindBody s = .ok t) :
    dictFits s (findDictionary s.cfg s.ibuf) = true ∧ t = { s with dict := findDictionary s.cfg s.ibuf } := by
  unfold dxFindBody at h
  split at h
  · exact ⟨‹_›, (Except.ok.inj h).symm⟩
  · simp at h

theorem dxFindBody_wf {s t : State} (h : dxFindBody s = .ok t) (hw : Memory.wf s = true) : Memory.wf t = true := by
  obtain ⟨hf, rfl⟩ := dxFindBody_ok h
  exact wf_of_buffers hw rfl (.inl rfl) (.inl rfl) (.inr hf) (.inl rfl) (.inl rfl) (.inl rfl)

theorem dxSubBody_ok {s t : State} (h : dxSubBody s = .ok t) :
    (substitute s.dict s.ibuf).length ≤ s.capSym ∧ t = { s with sym := substitute s.dict s.ibuf } := by
  unfold dxSubBody at h
  split at h
  · simp at h
  · exact ⟨by omega, (Except.ok.inj h).symm⟩

theorem dxSubBody_wf {s t : State} (h : dxSubBody s = .ok t) (hw : Memory.wf s = true) : Memory.wf t = true := by
  obtain ⟨hf, rfl⟩ := dxSubBody_ok h
  exact wf_of_buffers hw rfl (.inl rfl) (.inr hf) (.inl rfl) (.inl rfl) (.inl rfl) (.inl rfl)

/-- The expansion that completes stays within the capacity (R238). -/
theorem expandFrom_length {dict : List (List Byte)} {cap : Nat} : ∀ {xs : List Sym} {out r : List Byte},
    expandFrom dict cap out xs = .ok r → out.length ≤ cap → r.length ≤ cap := by
  intro xs
  induction xs with
  | nil =>
    intro out r h ho
    cases h
    exact ho
  | cons x xs ih =>
    intro out r h ho
    unfold expandFrom at h
    split at h
    · simp at h
    · split at h
      · simp at h
      · exact ih h (by omega)

theorem dxExpBody_ok {s t : State} (h : dxExpBody s = .ok t) :
    ∃ out, expandFrom s.dict s.capObuf [] s.sym = .ok out ∧ t = { s with obuf := out } := by
  obtain ⟨out, ho, ht⟩ := bind_ok.1 h
  exact ⟨out, ho, (Except.ok.inj ht).symm⟩

theorem dxExpBody_wf {s t : State} (h : dxExpBody s = .ok t) (hw : Memory.wf s = true) : Memory.wf t = true := by
  obtain ⟨out, ho, rfl⟩ := dxExpBody_ok h
  exact wf_of_buffers hw rfl (.inl rfl) (.inl rfl) (.inl rfl) (.inl rfl) (.inl rfl)
    (.inr (expandFrom_length ho (Nat.zero_le _)))

/-! ### Artifact -/

@[simp] theorem leBytes_length (n v : Nat) : (leBytes n v).length = n := by
  induction n generalizing v with
  | zero => rfl
  | succ n ih => simp [leBytes, ih]

theorem flatMap_length_sum {α : Type} (f : α → List Byte) (g : α → Nat) (h : ∀ a, (f a).length = g a) (l : List α) :
    (l.flatMap f).length = (l.map g).sum := by
  induction l with
  | nil => rfl
  | cons a l ih => simp [ih, h]

/-- The flattened artifact has the size rule R93 gives. -/
theorem serialize_length (s : State) : (serialize s.dict s.ftab s.total s.bits).length = serSize s := by
  have hw : (s.dict.flatMap serWord).length = (s.dict.map fun w => 4 + w.length).sum :=
    flatMap_length_sum _ _ (fun w => by simp [serWord]) _
  have he : (s.ftab.flatMap serEntry).length = (s.ftab.map fun _ => 20).sum :=
    flatMap_length_sum _ _ (fun e => by simp [serEntry]) _
  have hc : (s.ftab.map fun _ => 20).sum = 20 * s.ftab.length := by
    simp [Nat.mul_comm]
  simp only [serialize, serSize, List.length_append, leBytes_length, hw, he, hc]
  omega

theorem serBody_ok {s t : State} (h : serBody s = .ok t) :
    serSize s ≤ s.capObuf ∧ t = { s with obuf := serialize s.dict s.ftab s.total s.bits } := by
  unfold serBody at h
  split at h
  · simp at h
  · exact ⟨by omega, (Except.ok.inj h).symm⟩

theorem serBody_wf {s t : State} (h : serBody s = .ok t) (hw : Memory.wf s = true) : Memory.wf t = true := by
  obtain ⟨hc, rfl⟩ := serBody_ok h
  refine wf_of_buffers hw rfl (.inl rfl) (.inl rfl) (.inl rfl) (.inl rfl) (.inl rfl) (.inr ?_)
  exact (serialize_length s).symm ▸ hc

theorem need_ok_iff {buf : List Byte} {pos n : Nat} {u : Unit} : need buf pos n = .ok u ↔ pos + n ≤ buf.length := by
  unfold need
  split <;> simp <;> omega

theorem getField_ok {buf : List Byte} {n pos : Nat} {r : Nat × Nat} (h : getField buf n pos = .ok r) :
    pos + n ≤ buf.length ∧ r = (memRead buf pos n, pos + n) := by
  obtain ⟨u, hu, hr⟩ := bind_ok.1 h
  exact ⟨need_ok_iff.1 hu, (Except.ok.inj hr).symm⟩

theorem getBytes_ok {buf : List Byte} {n pos : Nat} {r : List Byte × Nat} (h : getBytes buf n pos = .ok r) :
    pos + n ≤ buf.length ∧ r = ((buf.drop pos).take n, pos + n) := by
  obtain ⟨u, hu, hr⟩ := bind_ok.1 h
  exact ⟨need_ok_iff.1 hu, (Except.ok.inj hr).symm⟩

/-- The words parsed: as many as counted, each within the capacity (R267). -/
theorem getWords_ok {buf : List Byte} {cap : Nat} : ∀ {count pos : Nat} {r : List (List Byte) × Nat},
    getWords buf cap count pos = .ok r → r.1.length = count ∧ ∀ w ∈ r.1, w.length ≤ cap := by
  intro count
  induction count with
  | zero =>
    intro pos r h
    cases h
    simp
  | succ count ih =>
    intro pos r h
    obtain ⟨⟨len, p1⟩, h1, h⟩ := bind_ok.1 h
    simp only at h
    split at h
    · simp at h
    · obtain ⟨⟨w, p2⟩, h2, h⟩ := bind_ok.1 h
      obtain ⟨⟨ws, p3⟩, h3, h⟩ := bind_ok.1 h
      obtain rfl := Except.ok.inj h
      obtain ⟨hl, hw⟩ := ih h3
      obtain ⟨-, he⟩ := getBytes_ok h2
      obtain ⟨rfl, rfl⟩ := Prod.mk.inj he
      refine ⟨by simpa using hl, ?_⟩
      intro v hv
      rcases List.mem_cons.1 hv with rfl | hv
      · simp only [List.length_take]
        omega
      · exact hw v hv

theorem getEntries_ok {buf : List Byte} : ∀ {count pos : Nat} {r : List Entry × Nat},
    getEntries buf count pos = .ok r → r.1.length = count := by
  intro count
  induction count with
  | zero =>
    intro pos r h
    cases h
    rfl
  | succ count ih =>
    intro pos r h
    obtain ⟨⟨x, p1⟩, -, h⟩ := bind_ok.1 h
    obtain ⟨⟨c, p2⟩, -, h⟩ := bind_ok.1 h
    obtain ⟨⟨a, p3⟩, -, h⟩ := bind_ok.1 h
    obtain ⟨⟨es, p4⟩, h4, h⟩ := bind_ok.1 h
    obtain rfl := Except.ok.inj h
    simpa using ih h4

/-- What `DES` can do (R267): replace the artifact, within the capacities. -/
theorem desBody_ok {s t : State} (h : desBody s = .ok t) :
    t = { s with dict := t.dict, ftab := t.ftab, total := t.total, bits := t.bits } ∧
    dictFits s t.dict = true ∧ t.ftab.length ≤ s.capFtab ∧ t.bits.length ≤ s.capBits := by
  obtain ⟨⟨D, p1⟩, -, h⟩ := bind_ok.1 h
  simp only at h
  split at h
  · simp at h
  · rename_i hD
    obtain ⟨⟨ws, p2⟩, h2, h⟩ := bind_ok.1 h
    obtain ⟨⟨F, p3⟩, -, h⟩ := bind_ok.1 h
    simp only at h
    split at h
    · simp at h
    · rename_i hF
      obtain ⟨⟨es, p4⟩, h4, h⟩ := bind_ok.1 h
      obtain ⟨⟨T, p5⟩, -, h⟩ := bind_ok.1 h
      obtain ⟨⟨B, p6⟩, -, h⟩ := bind_ok.1 h
      simp only at h
      split at h
      · simp at h
      · rename_i hB
        obtain ⟨⟨bs, p7⟩, h7, h⟩ := bind_ok.1 h
        obtain rfl := Except.ok.inj h
        obtain ⟨hl, hw⟩ := getWords_ok h2
        have he := getEntries_ok h4
        obtain ⟨-, hb⟩ := getBytes_ok h7
        obtain ⟨rfl, rfl⟩ := Prod.mk.inj hb
        refine ⟨rfl, (dictFits_iff _ _).2 ⟨?_, hw⟩, ?_, ?_⟩
        · have hl' : ws.length = D := hl
          show ws.length ≤ s.capDictWords
          omega
        · have he' : es.length = F := he
          show es.length ≤ s.capFtab
          omega
        · simp only [List.length_take]
          omega

theorem desBody_wf {s t : State} (h : desBody s = .ok t) (hw : Memory.wf s = true) : Memory.wf t = true := by
  obtain ⟨ht, hd, hf, hb⟩ := desBody_ok h
  refine wf_of_buffers hw ?_ (.inl ?_) (.inl ?_) (.inr hd) (.inr hf) (.inr hb) (.inl ?_) <;> rw [ht]

/-! ### Macros -/

/-- What `ENCODE` can do (R260). -/
theorem encodeBody_ok {s t : State} (h : encodeBody s = .ok t) :
    ∃ a b c, dxFindBody s = .ok a ∧ dxSubBody a = .ok b ∧ fmBuildBody b = .ok c ∧ encRunBody c = .ok t := by
  obtain ⟨a, ha, h⟩ := bind_ok.1 h
  obtain ⟨b, hb, h⟩ := bind_ok.1 h
  obtain ⟨c, hc, h⟩ := bind_ok.1 h
  exact ⟨a, b, c, ha, hb, hc, h⟩

theorem encodeBody_wf {s t : State} (h : encodeBody s = .ok t) (hw : Memory.wf s = true) : Memory.wf t = true := by
  obtain ⟨a, b, c, ha, hb, hc, ht⟩ := encodeBody_ok h
  exact encRunBody_wf ht (fmBuildBody_wf hc (dxSubBody_wf hb (dxFindBody_wf ha hw)))

theorem decodeBody_wf {s t : State} (h : decodeBody s = .ok t) (hw : Memory.wf s = true) : Memory.wf t = true := by
  obtain ⟨a, ha, ht⟩ := bind_ok.1 h
  exact dxExpBody_wf ht (decRunBody_wf ha hw)

theorem compressBody_wf {s t : State} (h : compressBody s = .ok t) (hw : Memory.wf s = true) : Memory.wf t = true := by
  obtain ⟨a, ha, ht⟩ := bind_ok.1 h
  exact serBody_wf ht (encodeBody_wf ha hw)

theorem decompressBody_wf {s t : State} (h : decompressBody s = .ok t) (hw : Memory.wf s = true) : Memory.wf t = true := by
  obtain ⟨a, ha, ht⟩ := bind_ok.1 h
  exact decodeBody_wf ht (desBody_wf ha hw)

end Sys2Proof.Machine
end

