-- ==== Sys2Proof/Laws/Decode.lean ====
section
/-! SUPPORT. The command list: no two rows match one word (R99), and a row's pattern lies within its mask. -/

namespace Sys2Proof

/-- Two rows never match one word: every mask includes bits `[7:0]`, and the opcodes are distinct (R99). -/
theorem rows_opcodes_distinct : rows.Pairwise fun a b => opcodeOf a.pattern ≠ opcodeOf b.pattern := by decide

theorem rows_masks_hold_opcode : ∀ r ∈ rows, r.mask &&& 0xFF = 0xFF ∧ r.pattern &&& r.mask = r.pattern := by decide

/-- A word that matches a row has the row's opcode (R99). -/
theorem opcode_of_match {r : Row} (hr : r ∈ rows) {w : Command} (h : w &&& r.mask = r.pattern) :
    opcodeOf w = opcodeOf r.pattern := by
  have hm := (rows_masks_hold_opcode r hr).1
  have h2 : (w &&& r.mask) &&& 0xFF = w &&& 0xFF := by rw [BitVec.and_assoc, hm]
  rw [h] at h2
  have key : ∀ v : Command, opcodeOf v = opcodeOf (v &&& 0xFF) := by
    intro v
    unfold opcodeOf
    rw [BitVec.extractLsb'_and]
    have : (BitVec.extractLsb' 0 8 (0xFF : Command)) = BitVec.allOnes 8 := by decide
    rw [this, BitVec.and_allOnes]
  rw [key w, key r.pattern, h2]

/-- Where a row is found for a word, it is a row of the list and it matches (R99). -/
theorem rowOf_spec {w : Command} {r : Row} (h : rowOf w = some r) : r ∈ rows ∧ w &&& r.mask = r.pattern := by
  unfold rowOf at h
  refine ⟨List.mem_of_find?_eq_some h, ?_⟩
  simpa using List.find?_some h

/-- A word decodes exactly where a row matches it (R99). -/
theorem decodeWord_ok_iff (w : Command) (i : Instr) : decodeWord w = .ok i ↔ ∃ r, rowOf w = some r ∧ r.read w = i := by
  unfold decodeWord
  cases rowOf w with
  | some r => simp
  | none =>
    simp only [reduceCtorEq, false_and]
    split <;> simp

end Sys2Proof
end

