-- ==== Sys2Proof/Laws/PerInstr.lean ====
section
/-! SUPPORT. A statement per command, as syntax: its word carries its opcode in bits `[7:0]` (R95). -/

namespace Sys2Proof.Laws.OpcodeByte

/-- R95: bits `[7:0]` of a command's word are its opcode. -/
def Statement (i : Instr) : Prop := opcodeOf (encodeWord i) = opcode i

/-- The low byte of an immediate above an opcode is the opcode (R95). -/
theorem low_byte (imm : BitVec 24) (op : Byte) : opcodeOf (imm ++ op) = op := by
  unfold opcodeOf
  exact BitVec.extractLsb'_append_eq_right

theorem nop : Statement .nop := low_byte _ _
theorem rst : Statement .rst := low_byte _ _
theorem encBegin : Statement .encBegin := low_byte _ _
theorem encSym (s : Sym) : Statement (.encSym s) := low_byte _ _
theorem encEnd : Statement .encEnd := low_byte _ _
theorem encRun : Statement .encRun := low_byte _ _
theorem bwBit (b : Bit) : Statement (.bwBit b) := low_byte _ _
theorem bwEmit (b : Bit) : Statement (.bwEmit b) := low_byte _ _
theorem bwDefer : Statement .bwDefer := low_byte _ _
theorem decBegin : Statement .decBegin := low_byte _ _
theorem decSym : Statement .decSym := low_byte _ _
theorem decEnd : Statement .decEnd := low_byte _ _
theorem decRun : Statement .decRun := low_byte _ _
theorem brBit : Statement .brBit := low_byte _ _
theorem fmBuild : Statement .fmBuild := low_byte _ _
theorem fmCheck : Statement .fmCheck := low_byte _ _
theorem dxFind : Statement .dxFind := low_byte _ _
theorem dxSub : Statement .dxSub := low_byte _ _
theorem dxExp : Statement .dxExp := low_byte _ _
theorem encode : Statement .encode := low_byte _ _
theorem decode : Statement .decode := low_byte _ _
theorem ser : Statement .ser := low_byte _ _
theorem des : Statement .des := low_byte _ _
theorem compress : Statement .compress := low_byte _ _
theorem decompress : Statement .decompress := low_byte _ _

end Sys2Proof.Laws.OpcodeByte
end

