-- ==== Sys2Proof/Tests/Slice0.lean ====
section
/-! SUPPORT. Tests, each on one step or one decoding; expected results from 95_test_vectors and the examples of the rules. -/

namespace Sys2Proof.Tests

-- One after another: a kernel evaluation that waits for those before it holds a thread.
set_option Elab.async false

open Sys2Proof.Machine

/-- What `f` sees of the next state; nothing where there is none. -/
def see {α : Type} (f : State → α) : Host.Outcome State Fault Refusal → Option α
  | .next t => some (f t)
  | _ => none

/-- `STATE`, `ERR`, `ERRINFO` as numbers. -/
def faultRegs (s : State) : Nat × Nat × Nat := (s.status.code, s.err.code, s.errInfo.toNat)

/-- Both bounds. -/
def bounds (s : State) : Nat × Nat := (s.low.toNat, s.high.toNat)

/-- The writer: `BITS`, `ACC`, `NBITS`, `PENDING`. -/
def writer (s : State) : List Byte × Nat × Nat × Nat := (s.bits, s.acc.toNat, s.nbits.toNat, s.pending.toNat)

/-- A table from numbers. -/
def table (l : List (Nat × Nat × Nat)) : List Entry :=
  l.map fun (a, b, c) => ⟨BitVec.ofNat 32 a, BitVec.ofNat 64 b, BitVec.ofNat 64 c⟩

/-- Symbols from numbers. -/
def syms (l : List Nat) : List Sym := l.map (BitVec.ofNat 32)

/-- Bytes from numbers. -/
def bytes (l : List Nat) : List Byte := l.map (BitVec.ofNat 8)

/-- Bytes of an ASCII text. -/
def ascii (t : String) : List Byte := t.toList.map fun c => BitVec.ofNat 8 c.toNat

/-- An idle state with a table loaded. -/
def withTable (l : List (Nat × Nat × Nat)) (total : Nat) : State :=
  { State.reset with ftab := table l, total := BitVec.ofNat 64 total }

/-- An open encode session on the empty table, with `n` bits `v` in the accumulator. -/
def encSession (v n pending : Nat) : State :=
  { State.reset with mode := .enc, acc := BitVec.ofNat 8 v, nbits := BitVec.ofNat 3 n, pending := BitVec.ofNat 32 pending }

/-- The table and total of V41-1. -/
def abTable : State := withTable [(65, 1, 0), (66, 1, 1)] 2

/-- The table and total of V41-2. -/
def pendingTable : State := withTable [(0, 1, 0), (1, 2, 1), (2, 1, 3)] 4

/-- The flattened artifact of "AB" (R266). -/
def abArtifact : List Byte :=
  bytes [0, 0, 0, 0, 2, 0, 0, 0] ++
  bytes [0x41, 0, 0, 0, 1, 0, 0, 0, 0, 0, 0, 0, 0, 0, 0, 0, 0, 0, 0, 0] ++
  bytes [0x42, 0, 0, 0, 1, 0, 0, 0, 0, 0, 0, 0, 1, 0, 0, 0, 0, 0, 0, 0] ++
  bytes [2, 0, 0, 0, 0, 0, 0, 0, 1, 0, 0, 0, 0x60]

/-! ### Well-formedness -/

theorem test_wf_refuses_wide_symbol : (Instr.encSym 0x1000000).wf = false := by decide +kernel
theorem test_wf_accepts_widest_symbol : (Instr.encSym 0xFFFFFF).wf = true := by decide +kernel

/-! ### Decoding: words written out from R100 and V30-1 -/

/-- The command a word decodes to. -/
def reads (w : Nat) : Option Instr := decodeTableWord 32 w

theorem test_decode_system : reads 0x00000000 = some .nop ∧ reads 0x00000001 = some .rst := by decide +kernel
theorem test_decode_enc : reads 0x00000010 = some .encBegin ∧ reads 0x00004111 = some (.encSym 65) ∧
    reads 0xFFFFFF11 = some (.encSym 16777215) ∧ reads 0x00000012 = some .encEnd ∧ reads 0x00000013 = some .encRun := by decide +kernel
theorem test_decode_writer : reads 0x00000014 = some (.bwBit 0) ∧ reads 0x00000114 = some (.bwBit 1) ∧
    reads 0x00000015 = some (.bwEmit 0) ∧ reads 0x00000115 = some (.bwEmit 1) ∧ reads 0x00000016 = some .bwDefer := by decide +kernel
theorem test_decode_dec : reads 0x00000020 = some .decBegin ∧ reads 0x00000021 = some .decSym ∧
    reads 0x00000022 = some .decEnd ∧ reads 0x00000023 = some .decRun ∧ reads 0x00000024 = some .brBit := by decide +kernel
theorem test_decode_model : reads 0x00000030 = some .fmBuild ∧ reads 0x00000031 = some .fmCheck := by decide +kernel
theorem test_decode_dictionary : reads 0x00000040 = some .dxFind ∧ reads 0x00000041 = some .dxSub ∧
    reads 0x00000042 = some .dxExp := by decide +kernel
theorem test_decode_artifact : reads 0x00000050 = some .encode ∧ reads 0x00000051 = some .decode ∧
    reads 0x00000052 = some .ser ∧ reads 0x00000053 = some .des ∧ reads 0x00000054 = some .compress ∧
    reads 0x00000055 = some .decompress := by decide +kernel
theorem test_decode_reserved : decodeWord 0x214 = .error (.reservedImm 0x14) ∧ decodeWord 0x110 = .error (.reservedImm 0x10) ∧
    decodeWord 0x101 = .error (.reservedImm 0x01) ∧ decodeWord 0x56 = .error (.reservedOpcode 0x56) ∧
    decodeWord 0x17 = .error (.reservedOpcode 0x17) := by decide +kernel
theorem test_encode_words : encodeWord (.encSym 66) = 0x00004211 ∧ encodeWord (.bwEmit 1) = 0x00000115 ∧
    encodeWord .decompress = 0x00000055 := by decide +kernel
theorem test_asm : (Instr.encSym 65).asm = "ENC.SYM 65" := by decide +kernel

/-! ### Acceptance and faults -/

/-- R320's example: `DX.SUB` inside an encode session. -/
theorem test_illegal_mode : see (fun t => (faultRegs t, t.bits, t.mode)) (exec .dxSub { encSession 1 1 3 with bits := bytes [1, 2] })
    = some ((1, 5, 0x41), [], .idle) := by decide +kernel
/-- V30-2. -/
theorem test_encSym_outside_session : see faultRegs (exec (.encSym 65) State.reset) = some (1, 5, 0x4111) := by decide +kernel
/-- V60-6. -/
theorem test_fault_ignores : see faultRegs (exec .des (faultEntry .formatError 60 {} State.reset)) = some (1, 1, 60) := by decide +kernel
theorem test_step_reserved : see faultRegs (step (State.reset.withFetchWord 32 0x214)) = some (1, 5, 0x214) := by decide +kernel
theorem test_rst_leaves_fault : see faultRegs (step ((faultEntry .formatError 60 {} State.reset).withFetchWord 32 1))
    = some (0, 0, 0) := by decide +kernel
/-- R70, R72: a load in a session is ignored. -/
theorem test_load_in_session : see (·.ibuf) (step { encSession 0 0 0 with port := [.loadIbuf (bytes [1])] }) = some [] := by decide +kernel
theorem test_load : see (·.ibuf) (step { State.reset with port := [.loadIbuf (bytes [1])] }) = some [1] := by decide +kernel

/-! ### Bit channel -/

/-- R131's example, the byte that completes. -/
theorem test_bwBit_completes : see writer (exec (.bwBit 0) (encSession 0x7F 7 5)) = some ([0xFE], 0, 0, 5) := by decide +kernel
/-- V40-2. -/
theorem test_bwEmit : see writer (exec (.bwEmit 1) (encSession 0 0 2)) = some ([], 4, 3, 0) := by decide +kernel
/-- V40-6: the emit crosses two byte boundaries. -/
theorem test_bwEmit_crosses : see writer (exec (.bwEmit 0) (encSession 0x7F 7 9)) = some ([0xFE, 0xFF], 1, 1, 0) := by decide +kernel
theorem test_bwDefer : see writer (exec .bwDefer (encSession 0 0 0)) = some ([], 0, 0, 1) := by decide +kernel
/-- R316: resource 16. -/
theorem test_bwDefer_full : see faultRegs (exec .bwDefer (encSession 0 0 (2 ^ 32 - 1))) = some (1, 6, 16) := by decide +kernel
/-- V40-7. -/
theorem test_encEnd_pending : see writer (exec .encEnd (encSession 0 0 5)) = some ([0x80], 0, 0, 0) := by decide +kernel
/-- V40-5. -/
theorem test_encEnd_boundary : see writer (exec .encEnd (encSession 0x3F 6 0)) = some ([0xFE], 0, 0, 0) := by decide +kernel
/-- V40-8. -/
theorem test_decBegin_window : see (fun t => (t.window, t.rpos)) (exec .decBegin { State.reset with bits := bytes [0xA5, 0x5A, 0xC3, 0x0F] })
    = some (0xA55AC3, 24) := by decide +kernel
/-- V40-8: stream bit 28. -/
theorem test_brBit : see (fun t => (t.rbit, t.rpos)) (exec .brBit { State.reset with mode := .dec, rpos := 28, bits := bytes [0xA5, 0x5A, 0xC3, 0x0F] })
    = some (1, 29) := by decide +kernel
theorem test_brBit_past_end : see (fun t => (t.rbit, t.rpos)) (exec .brBit { State.reset with mode := .dec, rpos := 40, bits := bytes [0xFF] })
    = some (0, 41) := by decide +kernel

/-! ### Interval codec -/

theorem test_encBegin : see (fun t => (t.mode, bounds t)) (exec .encBegin abTable) = some (.enc, 0, 0xFFFFFF) := by decide +kernel
/-- V42-4, tested by the commands that code. -/
theorem test_encBegin_bad_table : see faultRegs (exec .encBegin (withTable [(65, 1, 0), (66, 1, 2)] 3)) = some (1, 4, 1) := by decide +kernel
/-- V41-1. -/
theorem test_encSym : see (fun t => (bounds t, writer t)) (exec (.encSym 66) { abTable with mode := .enc, nbits := 1 })
    = some ((0, 0xFFFFFF), [], 1, 2, 0) := by decide +kernel
/-- V41-5: E2 and two E3 after the tenth symbol. -/
theorem test_encSym_e3 : see (fun t => (bounds t, writer t))
    (exec (.encSym 9) { withTable [(5, 9, 0), (9, 1, 9)] 10 with mode := .enc, high := 0xC65BF7, nbits := 1 })
    = some ((0x142FC0, 0xB2DFBF), [], 1, 2, 2) := by decide +kernel
/-- V60-4. -/
theorem test_encSym_missing : see faultRegs (exec (.encSym 67) { abTable with mode := .enc }) = some (1, 4, 67) := by decide +kernel
/-- V41-2. -/
theorem test_encRun : see (fun t => (t.bits, t.mode)) (exec .encRun { pendingTable with sym := syms [1, 0, 1, 2] }) = some ([0x56], .idle) := by decide +kernel
/-- V41-9. -/
theorem test_encRun_empty : see (·.bits) (exec .encRun { withTable [(65, 1, 5)] 6 with bits := bytes [7] }) = some [] := by decide +kernel
/-- V41-1, the second symbol of the decode. -/
theorem test_decSym : see (fun t => (t.sym, t.window, t.rpos))
    (exec .decSym { abTable with mode := .dec, bits := bytes [0x60], window := 0xC00000, rpos := 25, sym := syms [65] })
    = some (syms [65, 66], 0x800000, 26) := by decide +kernel
/-- V60-5. -/
theorem test_decSym_beyond : see faultRegs (exec .decSym { abTable with mode := .dec, sym := syms [65, 66] }) = some (1, 5, 0x21) := by decide +kernel
theorem test_decEnd : see (fun t => (t.sym, t.window, t.rpos, t.mode)) (exec .decEnd { abTable with mode := .dec, sym := syms [65], window := 7, rpos := 25 })
    = some (syms [65], 0, 0, .idle) := by decide +kernel
/-- V41-7. -/
theorem test_decRun : see (·.sym) (exec .decRun { pendingTable with bits := bytes [0xA5, 0x5A, 0xC3, 0x0F] }) = some (syms [1, 2, 0, 1]) := by decide +kernel
theorem test_decRun_all_ones : see (·.sym) (exec .decRun { pendingTable with bits := bytes [0xFF, 0xFF, 0xFF, 0xFF] }) = some (syms [2, 2, 2, 2]) := by decide +kernel

/-! ### Frequency model -/

/-- V42-3. -/
theorem test_fmBuild : see (fun t => (t.ftab, t.total)) (exec .fmBuild { State.reset with sym := syms [300, 5, 300, 70000, 5, 300] })
    = some (table [(5, 2, 0), (300, 3, 2), (70000, 1, 5)], 6) := by decide +kernel
/-- V42-4. -/
theorem test_fmCheck_largest : see faultRegs (exec .fmCheck (withTable [(0, 4194303, 0)] 4194303)) = some (0, 0, 0) := by decide +kernel
theorem test_fmCheck_bound_first : see faultRegs (exec .fmCheck (withTable [(65, 1, 0), (66, 1, 2)] 4194304)) = some (1, 3, 4194304) := by decide +kernel

/-! ### Dictionary -/

/-- V43-4, second case: savings 16 before 15. -/
theorem test_dxFind : see (·.dict) (exec .dxFind { State.reset with ibuf := ascii "abcd abcd abcd abcd abc abc abc abc abc " })
    = some [ascii "abcd", ascii "abc"] := by decide +kernel
/-- V43-3 below the threshold. -/
theorem test_dxFind_threshold : see (·.dict) (exec .dxFind
    { State.reset with ibuf := ascii "''' ''' ''' '''", cfg := { Config.reference with dictMinInputBytes := 16 } }) = some [] := by decide +kernel
/-- V43-1. -/
theorem test_dxSub : see (·.sym) (exec .dxSub { State.reset with ibuf := ascii "theme the theory the", dict := [ascii "the"] })
    = some (syms [116, 104, 101, 109, 101, 32, 256, 32, 116, 104, 101, 111, 114, 121, 32, 256]) := by decide +kernel
/-- V43-2. -/
theorem test_dxSub_digits : see (·.sym) (exec .dxSub { State.reset with ibuf := ascii "the1 2the the", dict := [ascii "the"] })
    = some (syms [256, 49, 32, 50, 256, 32, 256]) := by decide +kernel
/-- V43-6. -/
theorem test_dxExp : see (·.obuf) (exec .dxExp { State.reset with sym := syms [256, 32, 99], dict := [ascii "the"] })
    = some (ascii "the c") := by decide +kernel
theorem test_dxExp_corrupt : see faultRegs (exec .dxExp { State.reset with sym := syms [65, 300], dict := [ascii "the"] })
    = some (1, 2, 300) := by decide +kernel

/-! ### Artifact -/

/-- R260's example. -/
theorem test_encode : see (fun t => (t.sym, t.ftab, t.total, t.bits)) (exec .encode { State.reset with ibuf := ascii "AB" })
    = some (syms [65, 66], table [(65, 1, 0), (66, 1, 1)], 2, [0x60]) := by decide +kernel
/-- V44-4. -/
theorem test_decode : see (·.obuf) (exec .decode { withTable [(128, 2, 0), (255, 1, 2)] 3 with bits := bytes [0x80] })
    = some (bytes [0x80, 0xFF, 0x80]) := by decide +kernel
/-- V60-2. -/
theorem test_decode_corrupt : see (fun t => (faultRegs t, t.sym)) (exec .decode { withTable [(300, 1, 0)] 1 with bits := bytes [0x80] })
    = some ((1, 2, 300), []) := by decide +kernel
theorem test_ser : see (·.obuf) (exec .ser { abTable with bits := bytes [0x60] }) = some abArtifact := by decide +kernel
theorem test_des : see (fun t => (t.ftab, t.total, t.bits)) (exec .des { State.reset with ibuf := abArtifact ++ bytes [0xAA, 0xBB] })
    = some (table [(65, 1, 0), (66, 1, 1)], 2, [0x60]) := by decide +kernel
/-- R267's example. -/
theorem test_des_format : see faultRegs (exec .des { State.reset with ibuf := bytes [1, 0, 0, 0, 5, 0, 0, 0, 0x61, 0x62] })
    = some (1, 1, 8) := by decide +kernel
/-- V44-7. -/
theorem test_compress : see (·.obuf) (exec .compress { State.reset with ibuf := ascii "AB" }) = some abArtifact := by decide +kernel
theorem test_decompress : see (·.obuf) (exec .decompress { State.reset with ibuf := abArtifact }) = some (ascii "AB") := by decide +kernel

end Sys2Proof.Tests
end

