-- ==== Sys2Proof/Tests/Witness.lean ====
section
/-! SUPPORT. For each statement with hypotheses, a concrete state and operands that meet all of them together; for one with
several clauses, one for each clause, at the values where the clauses meet. -/

namespace Sys2Proof.Tests

-- One after another: a kernel evaluation that waits for those before it holds a thread.
set_option Elab.async false

open Sys2Proof.Machine Sys2Proof.Safety

/-- The reference record with small buffers. -/
def smallCaps : Config := { Config.reference with capSym := 2, capFtab := 1, capBits := 1, capObuf := 2 }

/-- The decode session of V41-1 just opened. -/
def abDecoding : State := { abTable with mode := .dec, bits := [0x60], window := 0x600000, rpos := 24 }

/-- The encode session of V41-1 just opened. -/
def abEncoding : State := { abTable with mode := .enc }

/-- The table of V41-1 and the symbols of "AB". -/
def abSymbols : State := { abTable with sym := syms [65, 66] }

/-- A core in the fault state. -/
def faulted : State := faultEntry .formatError 60 {} State.reset

/-- That an outcome is a next state of which `p` holds. -/
def nextWith (p : State → Bool) : Host.Outcome State Fault Refusal → Bool
  | .next t => p t
  | _ => false

theorem nextWith_exists {p : State → Bool} {o : Host.Outcome State Fault Refusal} (h : nextWith p o = true) :
    ∃ t, o = .next t ∧ p t = true := by
  cases o with
  | next t => exact ⟨t, rfl, h⟩
  | fault f => simp [nextWith] at h
  | refused r => simp [nextWith] at h

theorem abTable_valid : ValidTable abTable.ftab abTable.total.toNat where
  ascending := by
    rintro (_ | _ | i) a b ha hb <;> simp [abTable, withTable, table] at ha hb
    subst ha hb
    decide
  positive := by decide
  first := by decide
  next := by
    rintro (_ | _ | i) a b ha hb <;> simp [abTable, withTable, table] at ha hb
    subst ha hb
    decide
  closed := by decide
  empty := by decide

/-- One symbol with the largest total that a table may have. -/
def largestTable : State := withTable [(0, 4194303, 0)] 4194303

theorem largestTable_valid : ValidTable largestTable.ftab largestTable.total.toNat where
  ascending := by
    intro i a b ha hb
    simp [largestTable, withTable, table] at hb
  positive := by decide
  first := by decide
  next := by
    intro i a b ha hb
    simp [largestTable, withTable, table] at hb
  closed := by decide
  empty := by decide

/-! ### System -/

theorem witness_FaultEntryEffect :
    let s : State := { abDecoding with obuf := [7] }
    faultEntry .modelError 3 { obuf := true } s = faultEntry .modelError 3 { obuf := true } s ∧ s.mode = .dec ∧ s.obuf ≠ [] := by
  decide +kernel

theorem witness_FaultsArePrecise_body : abEncoding.status = .ready ∧ modeLegal (.encSym 67) abEncoding.mode = true ∧
    ∃ t, exec (.encSym 67) abEncoding = .next t ∧ decide (t.status = .fault) = true :=
  ⟨by decide, by decide, nextWith_exists (by decide +kernel)⟩

theorem witness_FaultsArePrecise_acceptance : abEncoding.status = .ready ∧ modeLegal .dxSub abEncoding.mode = false ∧
    ∃ t, exec .dxSub abEncoding = .next t ∧ decide (t.status = .fault) = true :=
  ⟨by decide, by decide, nextWith_exists (by decide +kernel)⟩

theorem witness_FaultStateIsSticky : faulted.status = .fault ∧ Instr.des ≠ .rst ∧ HostEvent.command 0x00000101 ≠ .hardReset ∧
    HostEvent.command 0x00000101 ≠ .command 0x00000001 ∧ faulted.port = [] ∧ Place.reg 2 ≠ .reg 0 := by decide +kernel

theorem witness_IllegalCommandRaised_word : State.reset.status = .ready ∧ ∀ r ∈ rows, (0x214 : Command) &&& r.mask ≠ r.pattern := by
  decide +kernel

theorem witness_IllegalCommandRaised_mode : State.reset.status = .ready ∧ decodeWord 0x4111 = .ok (.encSym 65) ∧
    legalMode (.encSym 65) = some .enc ∧ State.reset.mode ≠ .enc := by decide +kernel

theorem witness_IllegalCommandRaised_decSym :
    let s : State := { abDecoding with sym := syms [65, 66] }
    s.status = .ready ∧ (0x21 : Command) = 0x00000021 ∧ s.mode = .dec ∧ s.total.toNat ≤ s.sym.length := by decide +kernel

theorem witness_ModeTransitions_completes : abTable.status = .ready ∧
    ∃ t, exec .encBegin abTable = .next t ∧ decide (t.status = .ready ∧ t.mode = .enc) = true :=
  ⟨by decide, nextWith_exists (by decide +kernel)⟩

theorem witness_ModeTransitions_fault : abEncoding.status = .ready ∧
    ∃ t, exec .encBegin abEncoding = .next t ∧ decide (t.status = .fault) = true :=
  ⟨by decide, nextWith_exists (by decide +kernel)⟩

theorem witness_CommandFrame_completes : Instr.encSym 66 ≠ .rst ∧ abEncoding.status = .ready ∧
    ∃ t, exec (.encSym 66) abEncoding = .next t ∧ decide (t.status = .ready) = true :=
  ⟨by decide, by decide, nextWith_exists (by decide +kernel)⟩

/-- `ENC.RUN` without a symbol, which keeps the transient registers, and with two, which clears them. -/
theorem witness_CommandFrame_encRun : Instr.encRun ≠ .rst ∧
    (∃ t, exec .encRun { abTable with rpos := 5 } = .next t ∧ decide (t.status = .ready ∧ t.rpos = 5) = true) ∧
    ∃ t, exec .encRun { abSymbols with rpos := 5 } = .next t ∧ decide (t.status = .ready ∧ t.rpos = 0) = true :=
  ⟨by decide, nextWith_exists (by decide +kernel), nextWith_exists (by decide +kernel)⟩

theorem witness_CommandFrame_fault : Instr.des ≠ .rst ∧ faulted.status = .fault ∧
    ∃ t, exec .des faulted = .next t ∧ decide (t = faulted) = true :=
  ⟨by decide, by decide, nextWith_exists (by decide +kernel)⟩

theorem witness_SessionOwnership_enc : abEncoding.status = .ready ∧ abEncoding.mode ≠ .idle ∧
    HostEvent.command 0x4211 ≠ .hardReset ∧ HostEvent.command 0x4211 ≠ .command 0x00000001 ∧
    ∃ t, runEvent (.command 0x4211) abEncoding = .next t ∧ decide (t.status = .ready ∧ abEncoding.mode = .enc) = true :=
  ⟨by decide, by decide, by decide, by decide, nextWith_exists (by decide +kernel)⟩

/-- A command that the writer does not run. -/
theorem witness_SessionOwnership_other : abEncoding.status = .ready ∧ abEncoding.mode = .enc ∧
    HostEvent.command 0x16 ≠ .hardReset ∧ HostEvent.command 0x16 ≠ .command 0x00000001 ∧ decodeWord 0x16 = .ok .bwDefer ∧
    ∃ t, runEvent (.command 0x16) abEncoding = .next t ∧ decide (t.status = .ready) = true :=
  ⟨by decide, by decide, by decide, by decide, by decide +kernel, nextWith_exists (by decide +kernel)⟩

theorem witness_SessionOwnership_load : abDecoding.status = .ready ∧ abDecoding.mode ≠ .idle ∧
    HostEvent.loadBits [1] ≠ .hardReset ∧ HostEvent.loadBits [1] ≠ .command 0x00000001 ∧
    ∃ t, runEvent (.loadBits [1]) abDecoding = .next t ∧ decide (abDecoding.mode = .dec) = true :=
  ⟨by decide, by decide, by decide, by decide, nextWith_exists (by decide +kernel)⟩

/-- A transaction that faults in a decode session. -/
theorem witness_SessionOwnership_fault : abDecoding.status = .ready ∧ abDecoding.mode = .dec ∧
    HostEvent.command 0x41 ≠ .hardReset ∧ HostEvent.command 0x41 ≠ .command 0x00000001 ∧
    ∃ t, runEvent (.command 0x41) abDecoding = .next t ∧ decide (t.status = .fault) = true :=
  ⟨by decide, by decide, by decide, by decide, nextWith_exists (by decide +kernel)⟩

/-! ### Encodings and the step -/

theorem witness_StepRunsDecoded :
    { State.reset with port := [.command 0x10] }.port = .command 0x10 :: [] ∧ decodeWord 0x10 = .ok .encBegin ∧
    { State.reset with port := [.hardReset] }.port = .hardReset :: [] ∧
    decodeTableWord 32 0x4111 = some (.encSym 65) ∧ State.reset.port = [] := by decide +kernel

theorem witness_DecodeEncode : (Instr.encSym 0xFFFFFF).wf = true ∧ (Instr.bwEmit 1).wf = true := by decide

theorem witness_EncodeDecode : decodeWord 0xFFFFFF11 = .ok (.encSym 0xFFFFFF) := by decide +kernel

theorem witness_WordsAndFields_symbol : (0xFFFFFF11 : Command).toNat % 256 = 0x11 := by decide

theorem witness_WordsAndFields_bit : (0x114 : Command).toNat % 256 ∈ [0x14, 0x15] ∧ (0x114 : Command).toNat / 256 < 2 ∧
    ¬ (0x214 : Command).toNat / 256 < 2 := by decide

/-! ### Bit channel -/

theorem witness_BwBitWrites_room :
    let s : State := { encSession 0x7F 7 3 with cfg := smallCaps }
    At .ready .enc s ∧ WriterOk s ∧ (writtenCount s + 1) / 8 ≤ s.capBits := by decide

theorem witness_BwBitWrites_full :
    let s : State := { encSession 0x7F 7 3 with cfg := smallCaps, bits := [1] }
    At .ready .enc s ∧ s.nbits = 7 ∧ s.bits.length = s.capBits ∧ WriterOk s ∧ ¬ (writtenCount s + 1) / 8 ≤ s.capBits := by decide

theorem witness_BwEmitWrites_room :
    let s : State := { encSession 0 0 14 with cfg := smallCaps }
    At .ready .enc s ∧ WriterOk s ∧ (writtenCount s + 1 + s.pending.toNat) / 8 ≤ s.capBits := by decide

theorem witness_BwEmitWrites_full :
    let s : State := { encSession 0 0 15 with cfg := smallCaps }
    At .ready .enc s ∧ WriterOk s ∧ s.bits.length ≤ s.capBits ∧
    s.capBits < (writtenCount s + 1 + s.pending.toNat) / 8 := by decide

theorem witness_BwDeferCounts_counts : At .ready .enc (encSession 0 0 (2 ^ 32 - 2)) ∧
    (encSession 0 0 (2 ^ 32 - 2)).pending.toNat < 2 ^ 32 - 1 := by decide

theorem witness_BwDeferCounts_full : At .ready .enc (encSession 0 0 (2 ^ 32 - 1)) ∧
    (encSession 0 0 (2 ^ 32 - 1)).pending.toNat = 2 ^ 32 - 1 := by decide

theorem witness_EncEndCloses_room :
    let s : State := { encSession 0 0 6 with cfg := smallCaps }
    At .ready .enc s ∧ WriterOk s ∧ s.pending.toNat < 2 ^ 32 - 1 ∧ (writtenCount s + s.pending.toNat + 9) / 8 ≤ s.capBits := by decide

theorem witness_EncEndCloses_full :
    let s : State := { encSession 0 0 7 with cfg := smallCaps }
    At .ready .enc s ∧ WriterOk s ∧ s.pending.toNat < 2 ^ 32 - 1 ∧ s.bits.length ≤ s.capBits ∧
    s.capBits < (writtenCount s + s.pending.toNat + 9) / 8 := by decide

theorem witness_EncEndCloses_pending : At .ready .enc (encSession 0 0 (2 ^ 32 - 1)) ∧ WriterOk (encSession 0 0 (2 ^ 32 - 1)) ∧
    (encSession 0 0 (2 ^ 32 - 1)).pending.toNat = 2 ^ 32 - 1 := by decide

/-- One byte where there is room for one, and a second where there is room for none. -/
theorem witness_WriterCapacity :
    let s : State := { abEncoding with nbits := 7, cfg := smallCaps }
    let s' : State := { s with bits := [1] }
    s.status = .ready ∧ s.bits.length ≤ s.capBits ∧ s'.bits.length ≤ s'.capBits ∧
    (∃ u, exec (.encSym 66) { s with cfg := Config.reference } = .next u ∧
      decide (u.status = .ready ∧ u.bits.length ≤ s.capBits) = true) ∧
    ∃ u, exec (.encSym 66) { s' with cfg := Config.reference } = .next u ∧
      decide (u.status = .ready ∧ ¬ u.bits.length ≤ s'.capBits) = true :=
  ⟨by decide, by decide, by decide, nextWith_exists (by decide +kernel), nextWith_exists (by decide +kernel)⟩

theorem witness_BrBitReads_reads : At .ready .dec { abDecoding with rpos := BitVec.ofNat 32 (2 ^ 32 - 2) } ∧
    { abDecoding with rpos := BitVec.ofNat 32 (2 ^ 32 - 2) }.rpos.toNat < 2 ^ 32 - 1 := by decide

theorem witness_BrBitReads_full : At .ready .dec { abDecoding with rpos := BitVec.ofNat 32 (2 ^ 32 - 1) } ∧
    { abDecoding with rpos := BitVec.ofNat 32 (2 ^ 32 - 1) }.rpos.toNat = 2 ^ 32 - 1 := by decide

/-! ### Frequency model -/

theorem witness_FmCheckTests_bound : At .ready .idle (withTable [(0, 4194304, 0)] 4194304) ∧
    maxTotal ≤ (withTable [(0, 4194304, 0)] 4194304).total.toNat := by decide

theorem witness_FmCheckTests_entry :
    let s := withTable [(65, 1, 0), (66, 1, 2)] 3
    At .ready .idle s ∧ s.total.toNat < maxTotal ∧ 1 < s.ftab.length ∧ ¬ EntryOk s.ftab 1 ∧ ∀ j < 1, EntryOk s.ftab j := by decide

theorem witness_FmCheckTests_sum :
    let s := withTable [(65, 1, 0), (66, 1, 1)] 3
    At .ready .idle s ∧ s.total.toNat < maxTotal ∧ (∀ j < s.ftab.length, EntryOk s.ftab j) ∧ countTotal s.ftab ≠ s.total.toNat := by
  decide

theorem witness_FmCheckTests_passes : At .ready .idle largestTable ∧ largestTable.total.toNat < maxTotal ∧
    (∀ j < largestTable.ftab.length, EntryOk largestTable.ftab j) ∧ countTotal largestTable.ftab = largestTable.total.toNat := by decide

theorem witness_ValidTablesPass : TablePasses largestTable ∧ largestTable.total.toNat < maxTotal ∧
    ValidTable largestTable.ftab largestTable.total.toNat := ⟨by decide +kernel, by decide, largestTable_valid⟩

theorem witness_FmBuildBuilds : At .ready .idle abSymbols ∧ abSymbols.sym.length < maxTotal ∧
    abSymbols.sym.dedup.length ≤ abSymbols.capFtab := by decide +kernel

theorem witness_FmBuildRefuses_bound :
    let s : State := { State.reset with sym := List.replicate 4194304 65 }
    At .ready .idle s ∧ 4194304 ≤ s.sym.length :=
  ⟨⟨rfl, rfl⟩, Nat.le_of_eq (List.length_replicate ..).symm⟩

theorem witness_FmBuildRefuses_entries :
    let s : State := { abSymbols with cfg := smallCaps }
    At .ready .idle s ∧ s.sym.length < 4194304 ∧ s.capFtab < s.sym.dedup.length := by decide +kernel

theorem witness_FmBuildDeterministic :
    let s' : State := { State.reset with sym := syms [66, 65] }
    At .ready .idle abSymbols ∧ At .ready .idle s' ∧ abSymbols.sym.Perm s'.sym ∧ abSymbols.cfg = s'.cfg ∧ s'.ftab ≠ abSymbols.ftab ∧
    ∃ t, exec .fmBuild abSymbols = .next t ∧
      (decide (t.status = .ready) && nextWith (fun t' => decide (t'.status = .ready)) (exec .fmBuild s')) = true :=
  ⟨by decide, by decide, by decide, by decide, by decide, nextWith_exists (by decide +kernel)⟩

theorem witness_BinarySearchAgrees : TablePasses abTable ∧ 1 < abTable.total.toNat ∧ abTable.total.toNat ≤ 2 := by decide +kernel

/-! ### Interval codec -/

theorem witness_EncBeginOpens : At .ready .idle largestTable ∧ largestTable.total.toNat < maxTotal ∧
    ValidTable largestTable.ftab largestTable.total.toNat := ⟨by decide, by decide, largestTable_valid⟩

theorem witness_DecBeginOpens : At .ready .idle { abTable with bits := [0x60] } ∧ abTable.total.toNat < maxTotal ∧
    ValidTable abTable.ftab abTable.total.toNat := ⟨by decide, by decide, abTable_valid⟩

theorem witness_CodingRefusesBadTables_bound :
    At .ready .idle (withTable [] 4194304) ∧ maxTotal ≤ (withTable [] 4194304).total.toNat := by decide

theorem witness_CodingRefusesBadTables_table :
    let s : State := { withTable [(65, 0, 0)] 0 with sym := syms [65] }
    At .ready .idle s ∧ s.sym ≠ [] ∧ s.total.toNat < maxTotal ∧ ¬ ValidTable s.ftab s.total.toNat :=
  ⟨by decide, by decide, by decide, fun h => absurd (h.positive _ (List.mem_singleton.2 rfl)) (by decide)⟩

/-- The smallest interval that still admits the largest total. -/
theorem witness_NarrowNests :
    let s : State := { State.reset with low := 0x400000, high := 0x7FFFFF }
    4194302 < 4194303 ∧ 4194303 ≤ 4194303 ∧ s.low.toNat ≤ s.high.toNat ∧ 4194303 < s.high.toNat - s.low.toNat + 1 := by decide

theorem witness_EncSymCodes_codes : Inv abEncoding ∧ At .ready .enc abEncoding ∧ (⟨66, 1, 1⟩ : Entry) ∈ abEncoding.ftab ∧
    (writtenCount abEncoding + abEncoding.pending.toNat + 24) / 8 ≤ abEncoding.capBits ∧ abEncoding.pending.toNat + 24 < 2 ^ 32 :=
  ⟨⟨by decide +kernel, by decide +kernel, by decide +kernel, by decide +kernel⟩, by decide, by decide, by decide, by decide⟩

theorem witness_EncSymCodes_missing : At .ready .enc abEncoding ∧ ∀ e ∈ abEncoding.ftab, e.sym ≠ 67 := by decide

theorem abDecoding_inv : Inv abDecoding := ⟨by decide +kernel, by decide +kernel, by decide +kernel, by decide +kernel⟩

theorem witness_DecSymDecodes_decodes : Inv abDecoding ∧ At .ready .dec abDecoding ∧
    abDecoding.sym.length < abDecoding.total.toNat ∧ abDecoding.sym.length < abDecoding.capSym ∧
    abDecoding.rpos.toNat + 24 < 2 ^ 32 :=
  ⟨abDecoding_inv, by decide, by decide, by decide, by decide⟩

theorem witness_DecSymDecodes_full :
    let s : State := { abDecoding with cfg := { Config.reference with capSym := 0 } }
    Inv s ∧ At .ready .dec s ∧ s.sym.length < s.total.toNat ∧ s.sym.length = s.capSym :=
  ⟨⟨by decide +kernel, by decide +kernel, by decide +kernel, by decide +kernel⟩, by decide, by decide, by decide⟩

theorem witness_DecEndCloses : At .ready .dec abDecoding := by decide

/-- Bounds inside the lower half, with different readers and writers. -/
theorem witness_RenormalizationsAgree :
    let s : State := { abEncoding with low := 0x200000, high := 0x2FFFFF, pending := 3 }
    let s' : State := { abDecoding with low := 0x200000, high := 0x2FFFFF, window := 0x240000 }
    s.low = s'.low ∧ s.high = s'.high ∧ (renormEnc s).toOption.isSome = true ∧ (renormDec s').toOption.isSome = true := by
  decide +kernel

theorem witness_EncRunIsStepwise : At .ready .idle abSymbols ∧ abSymbols.sym ≠ [] := by decide

theorem witness_DecRunIsStepwise : At .ready .idle abTable ∧ abTable.total.toNat ≠ 0 := by decide

theorem witness_EncRunCompletes_empty :
    At .ready .idle State.reset ∧ TransientsClear State.reset ∧ State.reset.sym = [] := by decide

theorem witness_EncRunCompletes_codes : At .ready .idle abSymbols ∧ TransientsClear abSymbols ∧ abSymbols.sym ≠ [] ∧
    abSymbols.total.toNat < maxTotal ∧ ValidTable abSymbols.ftab abSymbols.total.toNat ∧
    (∀ x ∈ abSymbols.sym, ∃ e ∈ abSymbols.ftab, e.sym = x) ∧ 24 * abSymbols.sym.length < 2 ^ 32 - 1 ∧
    (24 * abSymbols.sym.length + 9) / 8 ≤ abSymbols.capBits :=
  ⟨by decide, by decide, by decide, by decide, abTable_valid, by simp [abSymbols, abTable, withTable, table, syms], by decide, by decide⟩

theorem witness_DecRunCompletes_room :
    let s : State := { abTable with cfg := smallCaps, bits := [0x60] }
    At .ready .idle s ∧ TransientsClear s ∧ s.total.toNat < maxTotal ∧ ValidTable s.ftab s.total.toNat ∧
    s.total.toNat ≤ s.capSym := ⟨by decide, by decide, by decide, abTable_valid, by decide⟩

theorem witness_DecRunCompletes_full :
    let s : State := { abTable with cfg := { smallCaps with capSym := 1 }, bits := [0x60] }
    At .ready .idle s ∧ TransientsClear s ∧ s.total.toNat < maxTotal ∧ ValidTable s.ftab s.total.toNat ∧
    s.capSym < s.total.toNat := ⟨by decide, by decide, by decide, abTable_valid, by decide⟩

theorem witness_DecRunInvertsEncRun : At .ready .idle abSymbols ∧ TransientsClear abSymbols ∧
    abSymbols.total.toNat < maxTotal ∧ ValidTable abSymbols.ftab abSymbols.total.toNat ∧
    abSymbols.sym.length = abSymbols.total.toNat ∧ (∀ x ∈ abSymbols.sym, ∃ e ∈ abSymbols.ftab, e.sym = x) ∧
    (24 * abSymbols.sym.length + 9) / 8 ≤ abSymbols.capBits ∧ abSymbols.sym.length ≤ abSymbols.capSym :=
  ⟨by decide, by decide, by decide, abTable_valid, by decide, by simp [abSymbols, abTable, withTable, table, syms], by decide,
    by decide⟩

/-! ### Dictionary -/

/-- Four times "the". -/
def theInput : State := { State.reset with ibuf := ascii "the the the the" }

/-- The word found fits where there is room for one word of three bytes, though not for 25 nor for one as long as the input. -/
theorem witness_DxFindBuilds_fits :
    let s : State := { theInput with cfg := { Config.reference with capDictWords := 1, capWordBytes := 3 } }
    At .ready .idle s ∧ ∃ t, exec .dxFind s = .next t ∧ decide (t.status = .ready ∧ t.dict = [ascii "the"]) = true :=
  ⟨by decide, nextWith_exists (by decide +kernel)⟩

theorem witness_DxFindBuilds_full :
    let s : State := { theInput with cfg := { Config.reference with capWordBytes := 2 } }
    At .ready .idle s ∧ ∃ t, exec .dxFind s = .next t ∧ decide (faultRegs t = (1, 6, 3)) = true :=
  ⟨by decide, nextWith_exists (by decide +kernel)⟩

theorem witness_DxFindBuilds_always : At .ready .idle theInput ∧ theInput.cfg.dictMaxWords ≤ theInput.capDictWords ∧
    theInput.ibuf.length ≤ theInput.capWordBytes := by decide

theorem witness_DxSubScans_room :
    let s : State := { State.reset with ibuf := ascii "AB", cfg := smallCaps, dict := [ascii "AB"] }
    At .ready .idle s ∧ s.ibuf.length ≤ s.capSym := by decide

theorem witness_DxSubScans_full :
    let s : State := { State.reset with ibuf := ascii "ABC", cfg := smallCaps }
    At .ready .idle s ∧ ∃ t, exec .dxSub s = .next t ∧ decide (faultRegs t = (1, 6, 2)) = true :=
  ⟨by decide, nextWith_exists (by decide +kernel)⟩

theorem witness_DxExpExpands_room :
    let s : State := { State.reset with sym := syms [256], dict := [ascii "AB"], cfg := smallCaps }
    At .ready .idle s ∧ s.sym = syms [256] ++ [] ∧ List.Forall₂ (Expands s.dict) (syms [256]) [ascii "AB"] ∧
    [ascii "AB"].flatten.length ≤ s.capObuf :=
  ⟨by decide, by decide, .cons (by decide) .nil, by decide⟩

/-- One byte too many, before a symbol beyond the dictionary. -/
theorem witness_DxExpExpands_full :
    let s : State := { State.reset with sym := syms [256, 65, 300], dict := [ascii "AB"], cfg := smallCaps }
    At .ready .idle s ∧ s.sym = syms [256, 65] ++ syms [300] ∧
    List.Forall₂ (Expands s.dict) (syms [256, 65]) [ascii "AB", ascii "A"] ∧
    s.capObuf < [ascii "AB", ascii "A"].flatten.length :=
  ⟨by decide, by decide, .cons (by decide) (.cons (by decide) .nil), by decide⟩

theorem witness_DxExpCorrupt :
    let s : State := { State.reset with sym := syms [256, 257, 65], dict := [ascii "AB"], cfg := smallCaps }
    At .ready .idle s ∧ s.sym = syms [256] ++ 257 :: syms [65] ∧ (∀ y ∈ syms [256], y.toNat < 256 + s.dict.length) ∧
    256 + s.dict.length ≤ (257 : Sym).toNat ∧
    ((syms [256]).map fun y => if y.toNat < 256 then 1 else ((s.dict[y.toNat - 256]?).getD []).length).sum ≤ s.capObuf := by
  refine ⟨by decide, by decide, by simp [syms], by simp, ?_⟩
  simp [syms]
  decide

theorem witness_DxExpInvertsDxSub :
    let s : State := { State.reset with ibuf := ascii "AB", cfg := smallCaps, dict := [ascii "AB"] }
    At .ready .idle s ∧ s.dict.length + 256 ≤ 2 ^ 32 ∧ s.ibuf.length ≤ s.capSym ∧ s.ibuf.length ≤ s.capObuf := by decide

/-! ### Artifact and orchestration -/

/-- What "AB" leaves, with a word in the dictionary, and a buffer just large enough for its artifact. -/
def abArtifactState : State :=
  { abTable with bits := [0x60], dict := [ascii "the"], cfg := { Config.reference with capObuf := 68 } }

theorem witness_SerLayout_room : At .ready .idle abArtifactState ∧ Memory.wf abArtifactState = true ∧
    20 + (abArtifactState.dict.map fun w => 4 + w.length).sum + 20 * abArtifactState.ftab.length + abArtifactState.bits.length
      ≤ abArtifactState.capObuf := by decide

theorem witness_SerLayout_full :
    let s : State := { abArtifactState with cfg := { Config.reference with capObuf := 67 } }
    At .ready .idle s ∧ Memory.wf s = true ∧
    s.capObuf < 20 + (s.dict.map fun w => 4 + w.length).sum + 20 * s.ftab.length + s.bits.length := by decide

theorem witness_DesInvertsSer :
    let s := abArtifactState
    let u : State := { State.reset with cfg := s.cfg, ibuf := serialize s.dict s.ftab s.total s.bits ++ [0xAA] }
    At .ready .idle s ∧ Memory.wf s = true ∧ serSize s ≤ s.capObuf ∧ At .ready .idle u ∧ u.cfg = s.cfg := by decide

theorem witness_DesBounds_accepts : At .ready .idle { State.reset with ibuf := abArtifact } ∧
    ∃ t, exec .des { State.reset with ibuf := abArtifact } = .next t ∧ decide (t.status = .ready) = true :=
  ⟨by decide, nextWith_exists (by decide +kernel)⟩

/-- An artifact without its last byte: the bitstream is what is cut. -/
theorem witness_DesBounds_prefix :
    let a := abArtifactState
    let whole := serialize a.dict a.ftab a.total a.bits
    let s : State := { State.reset with ibuf := whole.take 67 }
    At .ready .idle s ∧ dictFits s a.dict = true ∧ a.ftab.length ≤ s.capFtab ∧ a.bits.length ≤ s.capBits ∧
    67 < whole.length ∧ whole.length - a.bits.length ≤ 67 := by decide +kernel

/-- One artifact, three capacities: of a word, of the table, of the bitstream. -/
theorem witness_DesBounds_capacity :
    let a := abArtifactState
    let s : State := { State.reset with ibuf := serialize a.dict a.ftab a.total a.bits }
    let word : State := { s with cfg := { Config.reference with capWordBytes := 2 } }
    let entries : State := { s with cfg := { Config.reference with capFtab := 1 } }
    let stream : State := { s with cfg := { Config.reference with capBits := 0 } }
    At .ready .idle word ∧ At .ready .idle entries ∧ At .ready .idle stream ∧
    a.dict.length < 2 ^ 32 ∧ (∀ w ∈ a.dict, w.length < 2 ^ 32) ∧ a.ftab.length < 2 ^ 32 ∧ a.bits.length < 2 ^ 32 ∧
    dictFits word a.dict = false ∧ dictFits entries a.dict = true ∧ entries.capFtab < a.ftab.length ∧
    dictFits stream a.dict = true ∧ a.ftab.length ≤ stream.capFtab ∧ stream.capBits < a.bits.length := by decide +kernel

theorem witness_DesBounds_short :
    let s : State := { State.reset with ibuf := abArtifact.take 19 }
    At .ready .idle s ∧ s.ibuf.length < 20 := by decide

theorem witness_DesBounds_count :
    let s : State := { State.reset with ibuf := bytes [1, 0, 0] }
    At .ready .idle s ∧ s.ibuf.length < 4 := by decide

theorem witness_DesBounds_format :
    let s : State := { State.reset with ibuf := abArtifact.take 60 }
    At .ready .idle s ∧ ∃ t, exec .des s = .next t ∧ decide (t.status = .fault ∧ t.err = .formatError) = true :=
  ⟨by decide, nextWith_exists (by decide +kernel)⟩

theorem witness_DecodeCompletes :
    let s : State := { abTable with bits := [0x60], cfg := { smallCaps with capFtab := 2 } }
    let u : State := { State.reset with cfg := s.cfg, ibuf := serialize s.dict s.ftab s.total s.bits ++ [0xAA] }
    At .ready .idle s ∧ TransientsClear s ∧ Memory.wf s = true ∧
    s.total.toNat < maxTotal ∧ ValidTable s.ftab s.total.toNat ∧ s.total.toNat ≤ s.capSym ∧
    (∀ e ∈ s.ftab, e.sym.toNat < 256 + s.dict.length) ∧ 1 ≤ 1 ∧ (∀ w ∈ s.dict, w.length ≤ 1) ∧ s.total.toNat * 1 ≤ s.capObuf ∧
    At .ready .idle u ∧ TransientsClear u ∧ u.cfg = s.cfg :=
  ⟨by decide, by decide, by decide, by decide, abTable_valid, by decide, by decide, by decide, by decide, by decide, by decide,
    by decide, by decide⟩

theorem witness_MacrosAreChains_completes : At .ready .idle State.reset ∧
    ∃ t, exec .encode State.reset = .next t ∧ decide (t.status = .ready) = true :=
  ⟨by decide, nextWith_exists (by decide +kernel)⟩

/-- The second command of the chain faults. -/
theorem witness_MacrosAreChains_faults : At .ready .idle (withTable [(300, 1, 0)] 1) ∧
    ∃ u, runAll [.decRun, .dxExp] (withTable [(300, 1, 0)] 1) = .next u ∧ decide (u.status = .fault ∧ u.sym ≠ []) = true :=
  ⟨by decide, nextWith_exists (by decide +kernel)⟩

theorem witness_DecodeInvertsEncode :
    let s : State := { State.reset with ibuf := ascii "AB" }
    At .ready .idle s ∧ TransientsClear s ∧ ReferenceCaps s.cfg ∧ s.ibuf.length < maxTotal := by decide

theorem witness_DecompressInvertsCompress :
    let s : State := { State.reset with ibuf := ascii "AB" }
    At .ready .idle s ∧ TransientsClear s ∧ ReferenceCaps s.cfg ∧ s.cfg.dictMaxWords = 25 ∧ s.ibuf.length < maxTotal := by decide

theorem witness_CompressDeterministic :
    let s : State := { State.reset with ibuf := ascii "AB" }
    let s' : State := { s with sym := syms [1], dict := [[1]], bits := [1], obuf := [1] }
    At .ready .idle s ∧ At .ready .idle s' ∧ s.ibuf = s'.ibuf ∧ s.cfg = s'.cfg ∧
    ∃ t, exec .compress s = .next t ∧ (decide (t.status = .ready) && nextWith (fun t' => decide (t' = t)) (exec .compress s')) = true :=
  ⟨by decide, by decide, by decide, by decide, nextWith_exists (by decide +kernel)⟩

/-! ### Host interface -/

/-- Each load at the capacity, which fits, and one element above it, which does not. -/
theorem witness_HostLoads :
    let s : State := { State.reset with cfg := { smallCaps with capIbuf := 1, capDictWords := 1, capWordBytes := 2 } }
    s.status = .ready ∧ s.mode = .idle ∧ (syms [1, 2]).length ≤ s.capSym ∧ ¬ (syms [1, 2, 3]).length ≤ s.capSym ∧
    ([1] : List Byte).length ≤ s.capIbuf ∧ ¬ ([1, 2] : List Byte).length ≤ s.capIbuf ∧
    ([1] : List Byte).length ≤ s.capBits ∧ ¬ ([1, 2] : List Byte).length ≤ s.capBits ∧
    (table [(1, 1, 0)]).length ≤ s.capFtab ∧ ¬ (table [(1, 1, 0), (2, 1, 1)]).length ≤ s.capFtab ∧
    ([[1, 2]] : List (List Byte)).length ≤ s.capDictWords ∧ (∀ w ∈ ([[1, 2]] : List (List Byte)), w.length ≤ s.capWordBytes) ∧
    ¬ ∀ w ∈ ([[1, 2, 3]] : List (List Byte)), w.length ≤ s.capWordBytes := by decide

theorem witness_HostReads : Memory.wf abArtifactState = true ∧
    (15, 2) ∈ [(12, abArtifactState.ibuf.length), (13, abArtifactState.sym.length), (14, abArtifactState.dict.length),
      (15, abArtifactState.ftab.length), (17, abArtifactState.bits.length), (18, abArtifactState.obuf.length)] ∧
    abArtifactState.ftab[1]? = some ⟨66, 1, 1⟩ ∧ abArtifactState.ftab[2]? = none ∧
    abArtifactState.dict[0]? = some (ascii "the") ∧ (ascii "the")[2]? = some 0x65 ∧ (ascii "the")[3]? = none := by
  decide

/-! ### The whole machine -/

theorem witness_StepKeepsInv : Inv abDecoding ∧
    ∃ t, step (abDecoding.withFetchWord 32 0x21) = .next t ∧ decide (t.sym = syms [65]) = true :=
  ⟨abDecoding_inv, nextWith_exists (by decide +kernel)⟩

theorem witness_StepAlwaysCompletes : Inv (abDecoding.withFetchWord 32 0x21) :=
  ⟨by decide +kernel, by decide +kernel, by decide +kernel, by decide +kernel⟩

theorem witness_IntervalInvariant : Inv (abDecoding.withFetchWord 32 0x21) ∧
    ∃ t, step (abDecoding.withFetchWord 32 0x21) = .next t ∧ decide (t.mode = .dec) = true :=
  ⟨witness_StepAlwaysCompletes, nextWith_exists (by decide +kernel)⟩

end Sys2Proof.Tests
end

section
/-! PROOF. What an operation of the model may do, as one predicate: it never stops the model (log 4), and what it answers meets a
postcondition. Rules for it, one per way the bodies are put together. -/

namespace Sys2Proof.Proofs

open Sys2Proof.Machine Sys2Proof.Safety

/-- The operation answers a value that meets `Q` or raises a fault of the core (R310); it never stops the model (log 4). -/
def Sound {α : Type} (Q : α → Prop) : Except Stop α → Prop
  | .ok a => Q a
  | .error (.raise _ _) => True
  | .error (.broken _) => False

/-- `Sound` with nothing said of the answer. -/
abbrev Unbroken {α : Type} (r : Except Stop α) : Prop := Sound (fun _ => True) r

variable {α β : Type} {P : α → Prop} {Q : β → Prop} {x : Except Stop α} {f : α → Except Stop β} {r : Except Stop β}

theorem Sound.raise {c : Cause} {info : Nat} : Sound Q (.error (.raise c info)) := trivial

theorem Sound.answer {a : α} (hx : Sound P x) (h : x = .ok a) : P a := by
  subst h
  exact hx

theorem Sound.of_ok (h : ∃ a, x = .ok a ∧ P a) : Sound P x := by
  obtain ⟨a, rfl, ha⟩ := h
  exact ha

/-- The rule of consequence; the answer's equation is at hand for the laws of the operation. -/
theorem Sound.imp {P' : α → Prop} (hx : Sound P x) (h : ∀ a, x = .ok a → P a → P' a) : Sound P' x := by
  match x with
  | .ok a => exact h a rfl hx
  | .error (.raise _ _) => trivial
  | .error (.broken _) => exact False.elim hx

theorem Sound.unbroken (hx : Sound P x) : Unbroken x := hx.imp fun _ _ _ => trivial

/-- The rule of sequence. -/
theorem Sound.bind (hx : Sound P x) (hf : ∀ a, x = .ok a → P a → Sound Q (f a)) : Sound Q (x >>= f) := by
  match x with
  | .ok a => exact hf a rfl hx
  | .error (.raise _ _) => trivial
  | .error (.broken _) => exact False.elim hx

/-- The rule of a check that raises a fault of the core. -/
theorem Sound.check {c : Prop} [Decidable c] {cause : Cause} {info : Nat} (h : ¬ c → Sound Q r) :
    Sound Q (if c then .error (.raise cause info) else r) := by
  split
  · trivial
  · exact h ‹_›

/-- Acceptance answers a next state where the body never stops the model (R99). -/
theorem accept_completes {i : Instr} {s : State} {body : State → Except Stop State}
    (h : modeLegal i s.mode = true → Unbroken (body s)) : ∃ t, accept i s body = .next t := by
  unfold accept
  split
  · exact ⟨s, rfl⟩
  · split
    · rename_i hm
      have hb := h hm
      match hr : body s with
      | .ok t => exact ⟨t, rfl⟩
      | .error (.raise c info) => exact ⟨_, rfl⟩
      | .error (.broken f) =>
        rw [hr] at hb
        exact False.elim hb
    · exact ⟨_, rfl⟩

end Sys2Proof.Proofs
end

section
/-! PROOF. The table check (R202) never stops the model, and what a table that passes says of its entries. -/

namespace Sys2Proof.Proofs

open Sys2Proof.Machine Sys2Proof.Safety

/-- Entries that pass are not empty, and each ends within the closing sum (R202). -/
theorem checkEntries_sound : ∀ (es : List Entry) (i expect : Nat) (before : Option Sym),
    Sound (fun sum => expect ≤ sum ∧ ∀ e ∈ es, 1 ≤ e.count.toNat ∧ e.cum.toNat + e.count.toNat ≤ sum)
      (checkEntries i expect before es)
  | [], _, _, _ => ⟨Nat.le_refl _, by simp⟩
  | e :: es, i, expect, before => by
    refine .check fun hcum => .check fun hcount => .check fun _ => ?_
    refine (checkEntries_sound es (i + 1) (expect + e.count.toNat) (some e.sym)).imp ?_
    rintro sum - ⟨hsum, hes⟩
    exact ⟨by omega, List.forall_mem_cons.2 ⟨by omega, hes⟩⟩

/-- What `TableCheck` guarantees where it passes (R200, R202). -/
theorem tableCheck_sound (s : State) :
    Sound (fun _ => s.total.toNat < maxTotal ∧
      ∀ e ∈ s.ftab, 1 ≤ e.count.toNat ∧ e.cum.toNat + e.count.toNat ≤ s.total.toNat) (tableCheck s) := by
  refine .check fun hmax => ?_
  have hs := checkEntries_sound s.ftab 0 0 none
  match hr : checkEntries 0 0 none s.ftab with
  | .error stop =>
    rw [hr] at hs
    match stop with
    | .raise _ _ => trivial
    | .broken _ => exact False.elim hs
  | .ok sum =>
    obtain ⟨-, hes⟩ := hs.answer hr
    refine .check fun hsum => ⟨by omega, ?_⟩
    rw [not_not.1 hsum] at hes
    exact hes

/-- Whether the table passes depends on the table alone. -/
theorem tablePasses_congr {s t : State} (hf : t.ftab = s.ftab) (hT : t.total = s.total) (h : TablePasses s) :
    TablePasses t := by
  unfold TablePasses tableCheck at *
  rwa [hf, hT]

end Sys2Proof.Proofs
end

section
/-! PROOF. The bit channel: the writer keeps the accumulator within `NBITS` bits (R24), so every byte it writes fits, and the
reader's first 24 bits fit the window (R135). -/

namespace Sys2Proof.Proofs

open Sys2Proof.Machine Sys2Proof.Safety

variable {s : State} {b : Bit}

theorem appendByte_sound {v : Nat} (hv : v < 256) : Sound WriterOk (appendByte v s) := by
  refine .check fun _ => .of_ok ⟨_, bind_ok.2 ⟨_, fit_ok_iff.2 ⟨hv, rfl⟩, rfl⟩, ?_⟩
  simp

/-- One more bit below the accumulator's `NBITS` bits. -/
theorem shifted_acc_lt (hw : WriterOk s) : 2 * s.acc.toNat + b.toNat < 2 ^ (s.nbits.toNat + 1) := by
  have hb := b.isLt
  rw [pow_succ]
  omega

theorem shifted_acc_lt_byte (hw : WriterOk s) : 2 * s.acc.toNat + b.toNat < 256 := by
  have hn := s.nbits.isLt
  calc 2 * s.acc.toNat + b.toNat < 2 ^ (s.nbits.toNat + 1) := shifted_acc_lt hw
    _ ≤ 2 ^ 8 := Nat.pow_le_pow_right (by decide) (by omega)

theorem writeBit_sound (hw : WriterOk s) : Sound WriterOk (writeBit b s) := by
  have hbyte := shifted_acc_lt_byte (b := b) hw
  unfold writeBit
  split
  · exact appendByte_sound hbyte
  · rename_i h7
    have hn : (s.nbits + 1).toNat = s.nbits.toNat + 1 := by
      bv_omega
    refine .of_ok ⟨_, bind_ok.2 ⟨_, fit_ok_iff.2 ⟨hbyte, rfl⟩, rfl⟩, ?_⟩
    simpa only [WriterOk, hn, BitVec.toNat_ofNat, Nat.mod_eq_of_lt hbyte] using shifted_acc_lt hw

theorem writeBits_sound : ∀ (n : Nat) (b : Bit) (s : State), WriterOk s → Sound WriterOk (writeBits n b s)
  | 0, _, _, hw => hw
  | n + 1, b, _, hw => .bind (writeBit_sound hw) fun u _ hu => writeBits_sound n b u hu

theorem emit_sound (hw : WriterOk s) : Sound WriterOk (emit b s) :=
  .bind (writeBit_sound hw) fun _ _ hu => .bind (writeBits_sound _ _ _ hu) fun _ _ hv => hv

theorem defer_sound (hw : WriterOk s) : Sound WriterOk (defer s) := .check fun _ => hw

theorem padByte_sound (hw : WriterOk s) : Sound WriterOk (padByte s) := by
  unfold padByte
  split
  · exact hw
  · have hn := s.nbits.isLt
    refine appendByte_sound ?_
    calc s.acc.toNat * 2 ^ (8 - s.nbits.toNat)
        < 2 ^ s.nbits.toNat * 2 ^ (8 - s.nbits.toNat) := Nat.mul_lt_mul_of_pos_right hw (Nat.two_pow_pos _)
      _ = 2 ^ 8 := by rw [← pow_add, Nat.add_sub_cancel' (by omega)]

theorem writerFinish_sound (hw : WriterOk s) : Sound WriterOk (writerFinish s) :=
  .bind (defer_sound hw) fun _ _ hu => .bind (emit_sound hu) fun _ _ hv => padByte_sound hv

theorem readBit_unbroken (s : State) : Unbroken (readBit s) := .check fun _ => trivial

/-- A window below half the register's range can take one more bit (R135, R170). -/
theorem shiftWindow_unbroken (h : s.window.toNat < half) : Unbroken (shiftWindow s) := by
  refine .bind (readBit_unbroken s) ?_
  rintro ⟨bit, u⟩ hr -
  obtain ⟨-, hr⟩ := readBit_ok hr
  obtain ⟨-, rfl⟩ := Prod.mk.inj hr
  have hb := bit.isLt
  have hfit : 2 * s.window.toNat + bit.toNat < 2 ^ 24 := by
    rw [half_eq] at h
    omega
  exact .of_ok ⟨_, bind_ok.2 ⟨_, fit_ok_iff.2 ⟨hfit, rfl⟩, rfl⟩, trivial⟩

/-- While bits are still to come, the window holds no more bits than were read (R135). -/
theorem shiftWindows_unbroken : ∀ (n : Nat) (s : State), n ≤ 24 → s.window.toNat < 2 ^ (24 - n) →
    Unbroken (shiftWindows n s)
  | 0, _, _, _ => trivial
  | n + 1, s, hn, hs => by
    have hhalf : s.window.toNat < half := by
      rw [half_eq]
      exact hs.trans_le (Nat.pow_le_pow_right (by decide) (by omega))
    refine .bind (shiftWindow_unbroken hhalf) fun u hu _ => shiftWindows_unbroken n u (by omega) ?_
    have hbit := (streamBit s.bits s.rpos.toNat).isLt
    have hpow : 2 ^ (24 - n) = 2 ^ (24 - (n + 1)) * 2 := by rw [← pow_succ]; congr 1; omega
    rw [(shiftWindow_ok hu).2.2, hpow]
    omega

theorem readerInit_unbroken (s : State) : Unbroken (readerInit s) :=
  shiftWindows_unbroken 24 _ (Nat.le_refl _) (by simp)

end Sys2Proof.Proofs
end

section
/-! PROOF. The interval: where renormalization has stopped, `Narrow` leaves an interval that is not empty (R162, R179), and one
that is not empty is settled again within 24 doublings (R180). -/

namespace Sys2Proof.Proofs

open Sys2Proof.Machine Sys2Proof.Safety

/-! ### Narrowing -/

/-- A settled interval is wider than any total (R7, R167). -/
theorem settled_wide {low high : Nat} (h : Settled low high) : low ≤ high ∧ maxTotal < high - low + 1 := by
  obtain ⟨hlow, hhigh, hq⟩ := h
  rw [half_eq] at hlow hhigh
  rw [firstQtr_eq, thirdQtr_eq] at hq
  rw [maxTotal_eq]
  omega

/-- A symbol's part of the interval is not empty where the range is at least the total (R162, R179). -/
theorem part_nonempty {R cs ce T : Nat} (hT : 0 < T) (hR : T ≤ R) (hc : cs < ce) : R * cs / T < R * ce / T :=
  calc R * cs / T < R * cs / T + 1 := Nat.lt_succ_self _
    _ = (R * cs + T) / T := (Nat.add_div_right _ hT).symm
    _ ≤ R * ce / T := Nat.div_le_div_right <| calc
        R * cs + T ≤ R * (cs + 1) := by rw [Nat.mul_succ]; omega
        _ ≤ R * ce := Nat.mul_le_mul_left R hc

theorem part_within {R ce T : Nat} (he : ce ≤ T) : R * ce / T ≤ R :=
  Nat.div_le_of_le_mul (by rw [Nat.mul_comm]; exact Nat.mul_le_mul_right R he)

/-- `Narrow` to a symbol of a table that passes answers, with an interval that is not empty (R161, R162). -/
theorem narrow_sound {cs ce T : Nat} {s : State} (hs : Settled s.low.toNat s.high.toNat) (hc : cs < ce) (he : ce ≤ T)
    (hT : T < maxTotal) : Sound (fun t => t.low.toNat ≤ t.high.toNat) (narrow cs ce T s) := by
  obtain ⟨hle, hwide⟩ := settled_wide hs
  have hhigh := s.high.isLt
  have hpart := part_nonempty (R := s.high.toNat - s.low.toNat + 1) (T := T) (by omega) (by omega) hc
  have hpos := Nat.zero_lt_of_lt hpart
  have hwithin := part_within (R := s.high.toNat - s.low.toNat + 1) he
  have hok : ∃ t, narrow cs ce T s = .ok t :=
    ⟨_, bind_ok.2 ⟨_, bind_ok.2 ⟨_, minus_ok_iff.2 ⟨hle, rfl⟩, rfl⟩,
      bind_ok.2 ⟨_, divide_ok_iff.2 ⟨by omega, rfl⟩,
      bind_ok.2 ⟨_, divide_ok_iff.2 ⟨by omega, rfl⟩,
      bind_ok.2 ⟨_, minus_ok_iff.2 ⟨by omega, rfl⟩,
      bind_ok.2 ⟨_, fit_ok_iff.2 ⟨by omega, rfl⟩,
      bind_ok.2 ⟨_, fit_ok_iff.2 ⟨by omega, rfl⟩, rfl⟩⟩⟩⟩⟩⟩⟩
  obtain ⟨t, ht⟩ := hok
  obtain ⟨-, -, -, hth, htl⟩ := narrow_ok ht
  exact .of_ok ⟨t, ht, by omega⟩

/-! ### Renormalization -/

/-- What an iteration subtracts from both bounds before it doubles them (R164 to R166). -/
def caseOffset : RenormCase → Nat
  | .e1 => 0
  | .e2 => half
  | .e3 => firstQtr
  | .stop => 0

/-- In each of the three cases the bounds can be lowered, and then doubled (R163). -/
theorem caseOffset_le_low {low high : Bound} (h : classify low high ≠ .stop) :
    caseOffset (classify low high) ≤ low.toNat ∧ high.toNat - caseOffset (classify low high) < half := by
  have hh := high.isLt
  have e : half = 2 ^ 23 ∧ firstQtr = 2 ^ 22 ∧ thirdQtr = 3 * 2 ^ 22 := ⟨half_eq, firstQtr_eq, thirdQtr_eq⟩
  match hc : classify low high with
  | .e1 => exact ⟨Nat.zero_le _, classify_e1_iff.1 hc⟩
  | .e2 =>
    have h2 := classify_e2_iff.1 hc
    simp only [caseOffset]
    omega
  | .e3 =>
    have h3 := classify_e3_iff.1 hc
    simp only [caseOffset]
    omega
  | .stop => exact absurd hc h

/-- The interval is not empty and reaches the register's full range within `n` doublings. -/
def Spans (n low high : Nat) : Prop := low ≤ high ∧ 2 ^ 24 ≤ (high - low + 1) * 2 ^ n

theorem spans_24 {low high : Nat} (h : low ≤ high) : Spans 24 low high :=
  ⟨h, Nat.le_mul_of_pos_left _ (Nat.succ_pos _)⟩

/-- At the full range renormalization stops: so 24 iterations are enough (R180). -/
theorem classify_of_spans_zero {low high : Bound} (h : Spans 0 low.toNat high.toNat) : classify low high = .stop := by
  obtain ⟨hle, hw⟩ := h
  have hh := high.isLt
  rw [classify_stop_iff, half_eq, firstQtr_eq, thirdQtr_eq]
  omega

/-- An iteration uses up one doubling. -/
theorem spans_double {n d low high : Nat} (h : Spans (n + 1) low high) (hd : d ≤ low) :
    Spans n (2 * (low - d)) (2 * (high - d) + 1) := by
  obtain ⟨hle, hw⟩ := h
  have hdouble : 2 * (high - d) + 1 - 2 * (low - d) + 1 = (high - low + 1) * 2 := by omega
  refine ⟨by omega, ?_⟩
  rw [hdouble, Nat.mul_assoc, ← pow_succ']
  exact hw

theorem scale_unbroken {s : State} (hle : s.low.toNat ≤ s.high.toNat) (hh : s.high.toNat < half) :
    Unbroken (scale s) := by
  rw [half_eq] at hh
  exact .of_ok ⟨_, bind_ok.2 ⟨_, fit_ok_iff.2 ⟨by omega, rfl⟩, bind_ok.2 ⟨_, fit_ok_iff.2 ⟨by omega, rfl⟩, rfl⟩⟩, trivial⟩

theorem lowerBounds_unbroken {d : Nat} {s : State} (hd : d ≤ s.low.toNat) (hle : s.low.toNat ≤ s.high.toNat) :
    Unbroken (lowerBounds d s) :=
  .of_ok ⟨_, bind_ok.2 ⟨_, minus_ok_iff.2 ⟨hd, rfl⟩, bind_ok.2 ⟨_, minus_ok_iff.2 ⟨hd.trans hle, rfl⟩, rfl⟩⟩, trivial⟩

theorem lowerWindow_unbroken {d : Nat} {s : State} (hd : d ≤ s.window.toNat) : Unbroken (lowerWindow d s) :=
  .of_ok ⟨_, bind_ok.2 ⟨_, minus_ok_iff.2 ⟨hd, rfl⟩, rfl⟩, trivial⟩

end Sys2Proof.Proofs
end

section
/-! PROOF. The encoder's operations and session (R163 to R174). -/

namespace Sys2Proof.Proofs

open Sys2Proof.Machine Sys2Proof.Safety

/-- What the invariant says of an open encode session, as far as the codec relies on it. -/
def EncReady (s : State) : Prop := WriterOk s ∧ TablePasses s ∧ Settled s.low.toNat s.high.toNat

theorem writer_bounds {s t : State} (h : WriterFrame s t) : t.low = s.low ∧ t.high = s.high := by
  rw [h.1]
  exact ⟨rfl, rfl⟩

/-- The subtraction that follows the writer's part of an iteration (R165, R166). -/
theorem lowerBounds_after_writer {d : Nat} {s u : State} (hd : d ≤ s.low.toNat) (hle : s.low.toNat ≤ s.high.toNat)
    (hf : WriterFrame s u) (hu : WriterOk u) :
    Sound (fun t => WriterOk t ∧ t.low.toNat = s.low.toNat - d ∧ t.high.toNat = s.high.toNat - d) (lowerBounds d u) := by
  obtain ⟨hlow, hhigh⟩ := writer_bounds hf
  rw [← hlow] at hd hle ⊢
  rw [← hhigh] at hle ⊢
  refine (lowerBounds_unbroken hd hle).imp fun t ht _ => ?_
  obtain ⟨-, -, hframe, hl, hh⟩ := lowerBounds_ok ht
  exact ⟨by rw [hframe]; exact hu, hl, hh⟩

/-- An iteration before its `Scale` keeps the accumulator in order and lowers both bounds by the case's offset. -/
theorem encCase_sound {c : RenormCase} {s : State} (hw : WriterOk s) (hc : caseOffset c ≤ s.low.toNat)
    (hle : s.low.toNat ≤ s.high.toNat) :
    Sound (fun t => WriterOk t ∧ t.low.toNat = s.low.toNat - caseOffset c ∧ t.high.toNat = s.high.toNat - caseOffset c)
      (encCase c s) := by
  match c with
  | .e1 =>
    refine (emit_sound hw).imp fun t ht hwt => ?_
    obtain ⟨hlow, hhigh⟩ := writer_bounds (emit_frame ht)
    exact ⟨hwt, by rw [hlow]; rfl, by rw [hhigh]; rfl⟩
  | .e2 => exact .bind (emit_sound hw) fun u hu hwu => lowerBounds_after_writer hc hle (emit_frame hu) hwu
  | .e3 => exact .bind (defer_sound hw) fun u hu hwu => lowerBounds_after_writer hc hle (defer_frame hu) hwu
  | .stop => exact ⟨hw, rfl, rfl⟩

/-- The encoder's loop ends within the iterations that its interval needs (R163, R180). -/
theorem renormEncLoop_sound : ∀ (n : Nat) (s : State), WriterOk s → Spans n s.low.toNat s.high.toNat →
    Sound WriterOk (renormEncLoop n s)
  | 0, s, hw, hs => by
    unfold renormEncLoop
    rw [if_pos (classify_of_spans_zero hs)]
    exact hw
  | n + 1, s, hw, hs => by
    unfold renormEncLoop
    split
    · exact hw
    · rename_i hc
      obtain ⟨hlow, hhigh⟩ := caseOffset_le_low hc
      refine .bind (encCase_sound hw hlow hs.1) ?_
      rintro u - ⟨hwu, hul, huh⟩
      refine .bind (scale_unbroken ?_ ?_) fun v hv _ => renormEncLoop_sound n v ?_ ?_
      · rw [hul, huh]
        exact Nat.sub_le_sub_right hs.1 _
      · rwa [huh]
      · rw [(scale_ok hv).1]
        exact hwu
      · obtain ⟨-, hvl, hvh⟩ := scale_ok hv
        rw [hvl, hvh, hul, huh]
        exact spans_double hs hlow

/-- `EncodeSymbol` never stops the model in a session, and keeps it one (R172). -/
theorem encodeSymbol_sound {x : Sym} {s : State} (h : EncReady s) : Sound EncReady (encodeSymbol x s) := by
  obtain ⟨hw, htab, hset⟩ := h
  obtain ⟨hT, hentries⟩ := (tableCheck_sound s).answer htab
  have hsound : Sound WriterOk (encodeSymbol x s) := by
    unfold encodeSymbol
    split
    · trivial
    · rename_i e he
      obtain ⟨hcount, hend⟩ := hentries e (List.mem_of_find?_eq_some he)
      refine .bind (narrow_sound hset (by omega) hend hT) fun u hu hle => renormEncLoop_sound 24 u ?_ (spans_24 hle)
      rw [(narrow_ok hu).2.2.1]
      exact hw
  refine hsound.imp fun t ht hwt => ?_
  obtain ⟨⟨hframe, -⟩, hstop, -⟩ := encodeSymbol_ok ht
  exact ⟨hwt, tablePasses_congr (by rw [hframe]) (by rw [hframe]) htab, classify_stop_iff.1 hstop⟩

theorem encodeSymbols_sound : ∀ (xs : List Sym) (s : State), EncReady s → Sound EncReady (encodeSymbols xs s)
  | [], _, h => h
  | _ :: xs, _, h => .bind (encodeSymbol_sound h) fun u _ hu => encodeSymbols_sound xs u hu

/-- The whole 24-bit range is settled. -/
theorem settled_full : Settled 0 (BitVec.ofNat 24 precisionLimit).toNat := by decide

/-- `ENC.BEGIN` opens a session (R171). -/
theorem encBeginBody_sound (s : State) : Sound EncReady (encBeginBody s) :=
  .bind (tableCheck_sound s) fun _ htab _ =>
    ⟨by simp [WriterOk], tablePasses_congr rfl rfl htab, settled_full⟩

theorem encEndBody_unbroken {s : State} (hw : WriterOk s) : Unbroken (encEndBody s) :=
  .bind (writerFinish_sound hw) fun _ _ _ => trivial

theorem encRunBody_unbroken (s : State) : Unbroken (encRunBody s) := by
  unfold encRunBody
  split
  · trivial
  · exact .bind (encBeginBody_sound s) fun u _ hu => .bind (encodeSymbols_sound _ u hu) fun _ _ hv =>
      encEndBody_unbroken hv.1

end Sys2Proof.Proofs
end

section
/-! PROOF. The decoder's operations and session (R169, R170, R175 to R178). -/

namespace Sys2Proof.Proofs

open Sys2Proof.Machine Sys2Proof.Safety

/-- The window lies in the interval (R179 (e)). -/
abbrev WindowIn (s : State) : Prop := s.low.toNat ≤ s.window.toNat ∧ s.window.toNat ≤ s.high.toNat

/-- What the invariant says of an open decode session, as far as the codec relies on it. -/
def DecReady (s : State) : Prop := TablePasses s ∧ Settled s.low.toNat s.high.toNat ∧ WindowIn s

/-- The decoder's subtraction from both bounds and the window (R170). -/
theorem lowerBounds_window_sound {d : Nat} {s : State} (hd : d ≤ s.low.toNat) (hs : WindowIn s) :
    Sound (fun t => t.low.toNat = s.low.toNat - d ∧ t.high.toNat = s.high.toNat - d ∧
      t.window.toNat = s.window.toNat - d) (lowerBounds d s >>= lowerWindow d) := by
  obtain ⟨hlow, hhigh⟩ := hs
  refine .bind (lowerBounds_unbroken hd (hlow.trans hhigh)) fun u hu _ => ?_
  obtain ⟨-, -, hframe, hul, huh⟩ := lowerBounds_ok hu
  have huw : u.window = s.window := by rw [hframe]
  refine (lowerWindow_unbroken (by rw [huw]; exact hd.trans hlow)).imp fun t ht _ => ?_
  obtain ⟨-, hframe', htw⟩ := lowerWindow_ok ht
  exact ⟨by rw [hframe']; exact hul, by rw [hframe']; exact huh, by rw [htw, huw]⟩

/-- An iteration before its `Scale` and shift lowers both bounds and the window by the case's offset. -/
theorem decCase_sound {c : RenormCase} {s : State} (hc : caseOffset c ≤ s.low.toNat) (hs : WindowIn s) :
    Sound (fun t => t.low.toNat = s.low.toNat - caseOffset c ∧ t.high.toNat = s.high.toNat - caseOffset c ∧
      t.window.toNat = s.window.toNat - caseOffset c) (decCase c s) := by
  match c with
  | .e1 => exact ⟨rfl, rfl, rfl⟩
  | .e2 => exact lowerBounds_window_sound hc hs
  | .e3 => exact lowerBounds_window_sound hc hs
  | .stop => exact ⟨rfl, rfl, rfl⟩

/-- The decoder's loop ends within the iterations that its interval needs, with the window in the interval (R170, R180). -/
theorem renormDecLoop_sound : ∀ (n : Nat) (s : State), WindowIn s → Spans n s.low.toNat s.high.toNat →
    Sound WindowIn (renormDecLoop n s)
  | 0, s, hw, hs => by
    unfold renormDecLoop
    rw [if_pos (classify_of_spans_zero hs)]
    exact hw
  | n + 1, s, hw, hs => by
    unfold renormDecLoop
    split
    · exact hw
    · rename_i hc
      obtain ⟨hlow, hhigh⟩ := caseOffset_le_low hc
      obtain ⟨hwl, hwh⟩ := hw
      refine .bind (decCase_sound hlow ⟨hwl, hwh⟩) ?_
      rintro u - ⟨hul, huh, huw⟩
      refine .bind (scale_unbroken (by omega) (by omega)) fun v hv _ => ?_
      obtain ⟨hframe, hvl, hvh⟩ := scale_ok hv
      have hvw : v.window = u.window := by rw [hframe]
      refine .bind (shiftWindow_unbroken (by rw [hvw]; omega)) fun w hshift _ => ?_
      obtain ⟨-, hframe', hww⟩ := shiftWindow_ok hshift
      have hwlow : w.low.toNat = 2 * (s.low.toNat - caseOffset (classify s.low s.high)) := by rw [hframe', hvl, hul]
      have hwhigh : w.high.toNat = 2 * (s.high.toNat - caseOffset (classify s.low s.high)) + 1 := by rw [hframe', hvh, huh]
      have hbit := (streamBit v.bits v.rpos.toNat).isLt
      rw [hvw, huw] at hww
      refine renormDecLoop_sound n w ⟨by omega, by omega⟩ ?_
      rw [hwlow, hwhigh]
      exact spans_double hs hlow

/-- The target that the window gives answers, where there is a symbol to decode (R169). -/
theorem decodeTarget_unbroken {T : Nat} {s : State} (hs : WindowIn s) (hT : T ≠ 0) : Unbroken (decodeTarget T s) := by
  obtain ⟨hl, hh⟩ := hs
  have hpos : 1 ≤ (s.window.toNat - s.low.toNat + 1) * T := Nat.mul_pos (Nat.succ_pos _) (Nat.pos_of_ne_zero hT)
  exact .of_ok ⟨_, bind_ok.2 ⟨_, bind_ok.2 ⟨_, minus_ok_iff.2 ⟨hl.trans hh, rfl⟩, rfl⟩,
    bind_ok.2 ⟨_, minus_ok_iff.2 ⟨hl, rfl⟩,
    bind_ok.2 ⟨_, minus_ok_iff.2 ⟨hpos, rfl⟩, divide_ok_iff.2 ⟨Nat.succ_ne_zero _, rfl⟩⟩⟩⟩, trivial⟩

/-- The offset of the window is in the part of the symbol that its target finds: `cs ≤ target < ce` (R169, R179 (e)). -/
theorem offset_in_part {o R T cs ce : Nat} (hT : 0 < T) (hR : 0 < R) (hcs : cs ≤ ((o + 1) * T - 1) / R)
    (hce : ((o + 1) * T - 1) / R < ce) : R * cs / T ≤ o ∧ o + 1 ≤ R * ce / T := by
  have hpos : 0 < (o + 1) * T := Nat.mul_pos (Nat.succ_pos _) hT
  rw [Nat.le_div_iff_mul_le hR, Nat.mul_comm] at hcs
  rw [Nat.div_lt_iff_lt_mul hR, Nat.mul_comm ce] at hce
  exact ⟨Nat.lt_add_one_iff.1 ((Nat.div_lt_iff_lt_mul hT).2 (by omega)), (Nat.le_div_iff_mul_le hT).2 (by omega)⟩

/-- Narrowed to the entry that the target finds, the interval still holds the window (R169, R179 (e)). -/
theorem narrow_windowIn {e : Entry} {s t : State} {target T : Nat} (hs : WindowIn s)
    (htarget : decodeTarget T s = .ok target) (he : inRange e target = true)
    (ht : narrow e.cum.toNat (e.cum.toNat + e.count.toNat) T s = .ok t) : WindowIn t := by
  obtain ⟨hl, hh⟩ := hs
  obtain ⟨-, -, rfl⟩ := decodeTarget_ok htarget
  obtain ⟨-, hT, hframe, hth, htl⟩ := narrow_ok ht
  simp only [inRange, Bool.and_eq_true, decide_eq_true_eq] at he
  obtain ⟨hlower, hupper⟩ := offset_in_part (Nat.pos_of_ne_zero hT) (Nat.add_one_pos (s.high.toNat - s.low.toNat)) he.1 he.2
  have htw : t.window = s.window := by rw [hframe]
  rw [WindowIn, htw]
  omega

/-- `DecodeSymbol` never stops the model in a session with a table that is not empty, and keeps it one (R176). -/
theorem decodeSymbol_sound {s : State} (h : DecReady s) (h0 : s.total.toNat ≠ 0) :
    Sound (fun t => DecReady t ∧ t.total = s.total) (decodeSymbol s) := by
  obtain ⟨htab, hset, hwin⟩ := h
  obtain ⟨hT, hentries⟩ := (tableCheck_sound s).answer htab
  have hsound : Sound WindowIn (decodeSymbol s) := by
    refine .bind (decodeTarget_unbroken hwin h0) fun target htarget _ => ?_
    split
    · trivial
    · rename_i e he
      obtain ⟨hcount, hend⟩ := hentries e (List.mem_of_find?_eq_some he)
      refine .check fun _ => .bind (narrow_sound hset (by omega) hend hT) fun u hu hle => ?_
      have hrange : inRange e target = true := List.find?_some (p := fun e => inRange e target) he
      exact renormDecLoop_sound 24 u
        (narrow_windowIn (s := { s with sym := s.sym ++ [e.sym] }) hwin htarget hrange hu) (spans_24 hle)
  refine hsound.imp fun t ht hwt => ?_
  obtain ⟨_, _, -, -, -, hstop, hframe⟩ := decodeSymbol_ok ht
  exact ⟨⟨tablePasses_congr (by rw [hframe]) (by rw [hframe]) htab, classify_stop_iff.1 hstop, hwt⟩, by rw [hframe]⟩

theorem decodeSymbols_unbroken : ∀ (n : Nat) (s : State), DecReady s → s.total.toNat ≠ 0 → Unbroken (decodeSymbols n s)
  | 0, _, _, _ => trivial
  | n + 1, s, h, h0 => .bind (decodeSymbol_sound h h0) fun u _ ⟨hu, hT⟩ =>
      decodeSymbols_unbroken n u hu (by rwa [hT])

/-- `DEC.BEGIN` opens a session (R175). -/
theorem decBeginBody_sound (s : State) : Sound (fun t => DecReady t ∧ t.total = s.total) (decBeginBody s) := by
  refine .bind (tableCheck_sound s) fun _ htab _ => .bind (readerInit_unbroken _) fun u hu _ => ?_
  have hframe := readerInit_frame hu
  have hwin : u.window.toNat ≤ (BitVec.ofNat 24 precisionLimit).toNat := Nat.le_of_lt_succ u.window.isLt
  exact ⟨⟨tablePasses_congr (by rw [hframe]; rfl) (by rw [hframe]; rfl) htab, settled_full, Nat.zero_le _, hwin⟩,
    by rw [hframe]; rfl⟩

/-- The body of `DEC.SYM` decodes only where a symbol is left, so where the table is not empty (R176). -/
theorem decSymBody_unbroken {s : State} (h : DecReady s) : Unbroken (decSymBody s) :=
  .check fun hlt => (decodeSymbol_sound h (by omega)).unbroken

theorem decRunBody_unbroken (s : State) : Unbroken (decRunBody s) := by
  refine .bind (tableCheck_sound s) fun _ _ _ => ?_
  split
  · trivial
  · rename_i h0
    refine .bind (decBeginBody_sound s) ?_
    rintro u - ⟨hu, hT⟩
    exact .bind (decodeSymbols_unbroken _ u hu (by rwa [hT])) fun _ _ _ => trivial

end Sys2Proof.Proofs
end

section
/-! PROOF. The bodies that work on buffers alone: they raise faults of the core and never stop the model. -/

namespace Sys2Proof.Proofs

open Sys2Proof.Machine Sys2Proof.Safety

theorem fmBuildBody_unbroken (s : State) : Unbroken (fmBuildBody s) := .check fun _ => .check fun _ => trivial

theorem fmCheckBody_unbroken (s : State) : Unbroken (fmCheckBody s) := .bind (tableCheck_sound s) fun _ _ _ => trivial

theorem dxFindBody_unbroken (s : State) : Unbroken (dxFindBody s) := by
  unfold dxFindBody
  split <;> trivial

theorem dxSubBody_unbroken (s : State) : Unbroken (dxSubBody s) := .check fun _ => trivial

theorem expandFrom_unbroken (dict : List (List Byte)) (cap : Nat) : ∀ (xs : List Sym) (out : List Byte),
    Unbroken (expandFrom dict cap out xs)
  | [], _ => trivial
  | x :: xs, out => by
    unfold expandFrom
    split
    · trivial
    · exact .check fun _ => expandFrom_unbroken dict cap xs _

theorem dxExpBody_unbroken (s : State) : Unbroken (dxExpBody s) :=
  .bind (expandFrom_unbroken _ _ _ _) fun _ _ _ => trivial

theorem serBody_unbroken (s : State) : Unbroken (serBody s) := .check fun _ => trivial

theorem brBitBody_unbroken (s : State) : Unbroken (brBitBody s) := .bind (readBit_unbroken s) fun _ _ _ => trivial

/-! ### The parser of the artifact (R267) -/

theorem need_unbroken (buf : List Byte) (pos n : Nat) : Unbroken (need buf pos n) := .check fun _ => trivial

theorem getField_unbroken (buf : List Byte) (n pos : Nat) : Unbroken (getField buf n pos) :=
  .bind (need_unbroken buf pos n) fun _ _ _ => trivial

theorem getBytes_unbroken (buf : List Byte) (n pos : Nat) : Unbroken (getBytes buf n pos) :=
  .bind (need_unbroken buf pos n) fun _ _ _ => trivial

theorem getWords_unbroken (buf : List Byte) (cap : Nat) : ∀ count pos : Nat, Unbroken (getWords buf cap count pos)
  | 0, _ => trivial
  | count + 1, _ =>
    .bind (getField_unbroken buf _ _) fun _ _ _ => .check fun _ =>
    .bind (getBytes_unbroken buf _ _) fun _ _ _ =>
    .bind (getWords_unbroken buf cap count _) fun _ _ _ => trivial

theorem getEntries_unbroken (buf : List Byte) : ∀ count pos : Nat, Unbroken (getEntries buf count pos)
  | 0, _ => trivial
  | count + 1, _ =>
    .bind (getField_unbroken buf _ _) fun _ _ _ => .bind (getField_unbroken buf _ _) fun _ _ _ =>
    .bind (getField_unbroken buf _ _) fun _ _ _ => .bind (getEntries_unbroken buf count _) fun _ _ _ => trivial

theorem desBody_unbroken (s : State) : Unbroken (desBody s) :=
  .bind (getField_unbroken _ _ _) fun _ _ _ => .check fun _ =>
  .bind (getWords_unbroken _ _ _ _) fun _ _ _ => .bind (getField_unbroken _ _ _) fun _ _ _ => .check fun _ =>
  .bind (getEntries_unbroken _ _ _) fun _ _ _ => .bind (getField_unbroken _ _ _) fun _ _ _ =>
  .bind (getField_unbroken _ _ _) fun _ _ _ => .check fun _ =>
  .bind (getBytes_unbroken _ _ _) fun _ _ _ => trivial

/-! ### The macros (R260, R261, R268, R269) -/

theorem encodeBody_unbroken (s : State) : Unbroken (encodeBody s) :=
  .bind (dxFindBody_unbroken s) fun a _ _ => .bind (dxSubBody_unbroken a) fun b _ _ =>
  .bind (fmBuildBody_unbroken b) fun c _ _ => encRunBody_unbroken c

theorem decodeBody_unbroken (s : State) : Unbroken (decodeBody s) :=
  .bind (decRunBody_unbroken s) fun a _ _ => dxExpBody_unbroken a

theorem compressBody_unbroken (s : State) : Unbroken (compressBody s) :=
  .bind (encodeBody_unbroken s) fun a _ _ => serBody_unbroken a

theorem decompressBody_unbroken (s : State) : Unbroken (decompressBody s) :=
  .bind (desBody_unbroken s) fun a _ _ => decodeBody_unbroken a

end Sys2Proof.Proofs
end

section
/-! PROOF. StepAlwaysCompletes: no transaction stops the model in a state that meets the invariant. -/

namespace Sys2Proof.Proofs

open Sys2Proof.Machine Sys2Proof.Safety

theorem mode_of_legal {i : Instr} {m l : Mode} (hl : legalMode i = some l) (h : modeLegal i m = true) : m = l := by
  unfold modeLegal at h
  rw [hl] at h
  exact (beq_iff_eq.1 h).symm

/-- In an open encode session the codec finds what it relies on (R167, R179 (a)). -/
theorem encReady_of_inv {s : State} (h : Inv s) (hm : s.mode = .enc) : EncReady s := by
  obtain ⟨-, -, hw, -, henc, -⟩ := h
  obtain ⟨htab, hset, -⟩ := henc hm
  exact ⟨hw, htab, hset⟩

/-- In an open decode session the codec finds what it relies on (R167, R179 (a), (e)). -/
theorem decReady_of_inv {s : State} (h : Inv s) (hm : s.mode = .dec) : DecReady s := by
  obtain ⟨-, -, -, -, -, hdec⟩ := h
  obtain ⟨htab, hset, hl, hh, -⟩ := hdec hm
  exact ⟨htab, hset, hl, hh⟩

/-- Every command answers a next state (R12, R162, R180). -/
theorem exec_completes (i : Instr) {s : State} (h : Inv s) : ∃ t, exec i s = .next t := by
  obtain ⟨-, -, hw, -⟩ := id h
  cases i with
  | nop => exact accept_completes fun _ => trivial
  | rst => exact ⟨_, rfl⟩
  | encBegin => exact accept_completes fun _ => (encBeginBody_sound s).unbroken
  | encSym x => exact accept_completes fun hm => (encodeSymbol_sound (encReady_of_inv h (mode_of_legal rfl hm))).unbroken
  | encEnd => exact accept_completes fun _ => encEndBody_unbroken hw
  | encRun => exact accept_completes fun _ => encRunBody_unbroken s
  | bwBit b => exact accept_completes fun _ => (writeBit_sound hw).unbroken
  | bwEmit b => exact accept_completes fun _ => (emit_sound hw).unbroken
  | bwDefer => exact accept_completes fun _ => (defer_sound hw).unbroken
  | decBegin => exact accept_completes fun _ => (decBeginBody_sound s).unbroken
  | decSym => exact accept_completes fun hm => decSymBody_unbroken (decReady_of_inv h (mode_of_legal rfl hm))
  | decEnd => exact accept_completes fun _ => trivial
  | decRun => exact accept_completes fun _ => decRunBody_unbroken s
  | brBit => exact accept_completes fun _ => brBitBody_unbroken s
  | fmBuild => exact accept_completes fun _ => fmBuildBody_unbroken s
  | fmCheck => exact accept_completes fun _ => fmCheckBody_unbroken s
  | dxFind => exact accept_completes fun _ => dxFindBody_unbroken s
  | dxSub => exact accept_completes fun _ => dxSubBody_unbroken s
  | dxExp => exact accept_completes fun _ => dxExpBody_unbroken s
  | encode => exact accept_completes fun _ => encodeBody_unbroken s
  | decode => exact accept_completes fun _ => decodeBody_unbroken s
  | ser => exact accept_completes fun _ => serBody_unbroken s
  | des => exact accept_completes fun _ => desBody_unbroken s
  | compress => exact accept_completes fun _ => compressBody_unbroken s
  | decompress => exact accept_completes fun _ => decompressBody_unbroken s

theorem runCommand_completes (w : Command) {s : State} (h : Inv s) : ∃ t, runCommand w s = .next t := by
  unfold runCommand
  split
  · exact exec_completes _ h
  · exact ⟨_, rfl⟩

/-- A host load or a reset is a next state by definition; a command completes (R30, R70, R350). -/
theorem runEvent_completes (e : HostEvent) {s : State} (h : Inv s) : ∃ t, runEvent e s = .next t := by
  cases e with
  | command w => exact runCommand_completes w h
  | _ => exact ⟨_, rfl⟩

/-- The invariant does not speak of the transactions still to come. -/
theorem inv_port {s : State} (h : Inv s) (p : List HostEvent) : Inv { s with port := p } := h

/-- Settles O59: every operation is shown `Sound`, the two renormalization loops by induction on the doublings their interval
still needs. -/
theorem stepAlwaysCompletes : Obligations.StepAlwaysCompletes := by
  unfold Obligations.StepAlwaysCompletes
  intro s h
  unfold step runPort
  split
  · exact ⟨s, rfl⟩
  · exact runEvent_completes _ (inv_port h _)

end Sys2Proof.Proofs
end

section
/-! PROOF. A fault raised in a command has a cause: no operation raises the value `ERR` has in `READY` (R33, R310). Rules for the
predicate, one per way the bodies are put together, then the operations in the order of the model. -/

namespace Sys2Proof.Proofs

open Sys2Proof.Machine Sys2Proof.Safety

/-- Where the operation raises a fault of the core, the fault has a cause (R310). -/
def RaisesCause {α : Type} : Except Stop α → Prop
  | .error (.raise x _) => x ≠ .none
  | _ => True

variable {α β : Type} {x : Except Stop α} {f : α → Except Stop β} {r r' : Except Stop β}

theorem RaisesCause.raise {cause : Cause} {info : Nat} (hc : cause ≠ .none := by decide) :
    RaisesCause (.error (.raise cause info) : Except Stop α) := hc

/-- The rule of sequence. -/
theorem RaisesCause.bind (hx : RaisesCause x) (hf : ∀ a, RaisesCause (f a)) : RaisesCause (x >>= f) := by
  match x with
  | .ok a => exact hf a
  | .error (.raise _ _) => exact hx
  | .error (.broken _) => trivial

/-- The rule of a choice. -/
theorem RaisesCause.ite {c : Prop} [Decidable c] (h : RaisesCause r) (h' : RaisesCause r') :
    RaisesCause (if c then r else r') := by
  split
  · exact h
  · exact h'

/-- The rule of a check that raises a fault of the core. -/
theorem RaisesCause.check {c : Prop} [Decidable c] {cause : Cause} {info : Nat} (h : RaisesCause r)
    (hc : cause ≠ .none := by decide) : RaisesCause (if c then .error (.raise cause info) else r) :=
  .ite (.raise hc) h

/-! ### Checked arithmetic (R12) -/

theorem fit_raisesCause (w n : Nat) : RaisesCause (fit w n) := .ite trivial trivial

theorem minus_raisesCause (a b : Nat) : RaisesCause (minus a b) := .ite trivial trivial

theorem divide_raisesCause (a b : Nat) : RaisesCause (divide a b) := .ite trivial trivial

/-! ### Frequency model and dictionary -/

theorem checkEntries_raisesCause : ∀ (es : List Entry) (i expect : Nat) (before : Option Sym),
    RaisesCause (checkEntries i expect before es)
  | [], _, _, _ => trivial
  | _ :: es, _, _, _ => .check <| .check <| .check <| checkEntries_raisesCause es _ _ _

theorem tableCheck_raisesCause (s : State) : RaisesCause (tableCheck s) := by
  refine .check ?_
  have hs := checkEntries_raisesCause s.ftab 0 0 none
  match hr : checkEntries 0 0 none s.ftab with
  | .ok sum => exact .check trivial
  | .error (.broken _) => trivial
  | .error (.raise _ _) =>
    rw [hr] at hs
    exact hs

theorem fmBuildBody_raisesCause (s : State) : RaisesCause (fmBuildBody s) := .check <| .check trivial

theorem fmCheckBody_raisesCause (s : State) : RaisesCause (fmCheckBody s) :=
  .bind (tableCheck_raisesCause s) fun _ => trivial

theorem dxFindBody_raisesCause (s : State) : RaisesCause (dxFindBody s) := .ite trivial .raise

theorem dxSubBody_raisesCause (s : State) : RaisesCause (dxSubBody s) := .check trivial

theorem expandFrom_raisesCause (dict : List (List Byte)) (cap : Nat) : ∀ (xs : List Sym) (out : List Byte),
    RaisesCause (expandFrom dict cap out xs)
  | [], _ => trivial
  | x :: xs, out => by
    unfold expandFrom
    split
    · exact .raise
    · exact .check <| expandFrom_raisesCause dict cap xs _

theorem dxExpBody_raisesCause (s : State) : RaisesCause (dxExpBody s) :=
  .bind (expandFrom_raisesCause _ _ _ _) fun _ => trivial

/-! ### The bit channel -/

theorem appendByte_raisesCause (v : Nat) (s : State) : RaisesCause (appendByte v s) :=
  .check <| .bind (fit_raisesCause _ _) fun _ => trivial

theorem writeBit_raisesCause (b : Bit) (s : State) : RaisesCause (writeBit b s) :=
  .ite (appendByte_raisesCause _ s) <| .bind (fit_raisesCause _ _) fun _ => trivial

theorem writeBits_raisesCause : ∀ (n : Nat) (b : Bit) (s : State), RaisesCause (writeBits n b s)
  | 0, _, _ => trivial
  | n + 1, b, s => .bind (writeBit_raisesCause b s) (writeBits_raisesCause n b)

theorem emit_raisesCause (b : Bit) (s : State) : RaisesCause (emit b s) :=
  .bind (writeBit_raisesCause b s) fun _ => .bind (writeBits_raisesCause _ _ _) fun _ => trivial

theorem defer_raisesCause (s : State) : RaisesCause (defer s) := .check trivial

theorem padByte_raisesCause (s : State) : RaisesCause (padByte s) := .ite trivial (appendByte_raisesCause _ s)

theorem writerFinish_raisesCause (s : State) : RaisesCause (writerFinish s) :=
  .bind (defer_raisesCause s) fun _ => .bind (emit_raisesCause 1 _) padByte_raisesCause

theorem readBit_raisesCause (s : State) : RaisesCause (readBit s) := .check trivial

theorem shiftWindow_raisesCause (s : State) : RaisesCause (shiftWindow s) :=
  .bind (readBit_raisesCause s) fun _ => .bind (fit_raisesCause _ _) fun _ => trivial

theorem shiftWindows_raisesCause : ∀ (n : Nat) (s : State), RaisesCause (shiftWindows n s)
  | 0, _ => trivial
  | n + 1, s => .bind (shiftWindow_raisesCause s) (shiftWindows_raisesCause n)

theorem brBitBody_raisesCause (s : State) : RaisesCause (brBitBody s) := .bind (readBit_raisesCause s) fun _ => trivial

/-! ### The interval codec -/

theorem rangeOf_raisesCause (s : State) : RaisesCause (rangeOf s) := .bind (minus_raisesCause _ _) fun _ => trivial

theorem narrow_raisesCause (cs ce T : Nat) (s : State) : RaisesCause (narrow cs ce T s) :=
  .bind (rangeOf_raisesCause s) fun _ => .bind (divide_raisesCause _ _) fun _ => .bind (divide_raisesCause _ _) fun _ =>
  .bind (minus_raisesCause _ _) fun _ => .bind (fit_raisesCause _ _) fun _ => .bind (fit_raisesCause _ _) fun _ => trivial

theorem scale_raisesCause (s : State) : RaisesCause (scale s) :=
  .bind (fit_raisesCause _ _) fun _ => .bind (fit_raisesCause _ _) fun _ => trivial

theorem lowerBounds_raisesCause (d : Nat) (s : State) : RaisesCause (lowerBounds d s) :=
  .bind (minus_raisesCause _ _) fun _ => .bind (minus_raisesCause _ _) fun _ => trivial

theorem lowerWindow_raisesCause (d : Nat) (s : State) : RaisesCause (lowerWindow d s) :=
  .bind (minus_raisesCause _ _) fun _ => trivial

theorem encCase_raisesCause (c : RenormCase) (s : State) : RaisesCause (encCase c s) := by
  match c with
  | .e1 => exact emit_raisesCause 0 s
  | .e2 => exact .bind (emit_raisesCause 1 s) (lowerBounds_raisesCause half)
  | .e3 => exact .bind (defer_raisesCause s) (lowerBounds_raisesCause firstQtr)
  | .stop => trivial

theorem renormEncLoop_raisesCause : ∀ (n : Nat) (s : State), RaisesCause (renormEncLoop n s)
  | 0, _ => .ite trivial trivial
  | n + 1, s => .ite trivial <| .bind (encCase_raisesCause _ s) fun _ => .bind (scale_raisesCause _)
      (renormEncLoop_raisesCause n)

theorem decCase_raisesCause (c : RenormCase) (s : State) : RaisesCause (decCase c s) := by
  match c with
  | .e1 => trivial
  | .e2 => exact .bind (lowerBounds_raisesCause half s) (lowerWindow_raisesCause half)
  | .e3 => exact .bind (lowerBounds_raisesCause firstQtr s) (lowerWindow_raisesCause firstQtr)
  | .stop => trivial

theorem renormDecLoop_raisesCause : ∀ (n : Nat) (s : State), RaisesCause (renormDecLoop n s)
  | 0, _ => .ite trivial trivial
  | n + 1, s => .ite trivial <| .bind (decCase_raisesCause _ s) fun _ => .bind (scale_raisesCause _) fun _ =>
      .bind (shiftWindow_raisesCause _) (renormDecLoop_raisesCause n)

theorem decodeTarget_raisesCause (T : Nat) (s : State) : RaisesCause (decodeTarget T s) :=
  .bind (rangeOf_raisesCause s) fun _ => .bind (minus_raisesCause _ _) fun _ => .bind (minus_raisesCause _ _) fun _ =>
  divide_raisesCause _ _

/-! ### Encode commands -/

theorem encBeginBody_raisesCause (s : State) : RaisesCause (encBeginBody s) :=
  .bind (tableCheck_raisesCause s) fun _ => trivial

theorem encodeSymbol_raisesCause (x : Sym) (s : State) : RaisesCause (encodeSymbol x s) := by
  unfold encodeSymbol
  split
  · exact .raise
  · exact .bind (narrow_raisesCause _ _ _ s) (renormEncLoop_raisesCause 24)

theorem encodeSymbols_raisesCause : ∀ (xs : List Sym) (s : State), RaisesCause (encodeSymbols xs s)
  | [], _ => trivial
  | x :: xs, s => .bind (encodeSymbol_raisesCause x s) (encodeSymbols_raisesCause xs)

theorem encEndBody_raisesCause (s : State) : RaisesCause (encEndBody s) :=
  .bind (writerFinish_raisesCause s) fun _ => trivial

theorem encRunBody_raisesCause (s : State) : RaisesCause (encRunBody s) :=
  .ite trivial <| .bind (encBeginBody_raisesCause s) fun _ => .bind (encodeSymbols_raisesCause _ _) encEndBody_raisesCause

/-! ### Decode commands -/

theorem decBeginBody_raisesCause (s : State) : RaisesCause (decBeginBody s) :=
  .bind (tableCheck_raisesCause s) fun _ => .bind (shiftWindows_raisesCause 24 _) fun _ => trivial

theorem decodeSymbol_raisesCause (s : State) : RaisesCause (decodeSymbol s) := by
  refine .bind (decodeTarget_raisesCause _ s) fun target => ?_
  split
  · exact .raise
  · exact .check <| .bind (narrow_raisesCause _ _ _ _) (renormDecLoop_raisesCause 24)

theorem decSymBody_raisesCause (s : State) : RaisesCause (decSymBody s) := .check <| decodeSymbol_raisesCause s

theorem decodeSymbols_raisesCause : ∀ (n : Nat) (s : State), RaisesCause (decodeSymbols n s)
  | 0, _ => trivial
  | n + 1, s => .bind (decodeSymbol_raisesCause s) (decodeSymbols_raisesCause n)

theorem decRunBody_raisesCause (s : State) : RaisesCause (decRunBody s) :=
  .bind (tableCheck_raisesCause s) fun _ => .ite trivial <| .bind (decBeginBody_raisesCause s) fun _ =>
  .bind (decodeSymbols_raisesCause _ _) fun _ => trivial

/-! ### The artifact, and the commands made of others -/

theorem serBody_raisesCause (s : State) : RaisesCause (serBody s) := .check trivial

theorem need_raisesCause (buf : List Byte) (pos n : Nat) : RaisesCause (need buf pos n) := .check trivial

theorem getField_raisesCause (buf : List Byte) (n pos : Nat) : RaisesCause (getField buf n pos) :=
  .bind (need_raisesCause buf pos n) fun _ => trivial

theorem getBytes_raisesCause (buf : List Byte) (n pos : Nat) : RaisesCause (getBytes buf n pos) :=
  .bind (need_raisesCause buf pos n) fun _ => trivial

theorem getWords_raisesCause (buf : List Byte) (cap : Nat) : ∀ count pos : Nat, RaisesCause (getWords buf cap count pos)
  | 0, _ => trivial
  | count + 1, _ =>
    .bind (getField_raisesCause buf _ _) fun _ => .check <| .bind (getBytes_raisesCause buf _ _) fun _ =>
    .bind (getWords_raisesCause buf cap count _) fun _ => trivial

theorem getEntries_raisesCause (buf : List Byte) : ∀ count pos : Nat, RaisesCause (getEntries buf count pos)
  | 0, _ => trivial
  | count + 1, _ =>
    .bind (getField_raisesCause buf _ _) fun _ => .bind (getField_raisesCause buf _ _) fun _ =>
    .bind (getField_raisesCause buf _ _) fun _ => .bind (getEntries_raisesCause buf count _) fun _ => trivial

theorem desBody_raisesCause (s : State) : RaisesCause (desBody s) :=
  .bind (getField_raisesCause _ _ _) fun _ => .check <| .bind (getWords_raisesCause _ _ _ _) fun _ =>
  .bind (getField_raisesCause _ _ _) fun _ => .check <| .bind (getEntries_raisesCause _ _ _) fun _ =>
  .bind (getField_raisesCause _ _ _) fun _ => .bind (getField_raisesCause _ _ _) fun _ => .check <|
  .bind (getBytes_raisesCause _ _ _) fun _ => trivial

theorem encodeBody_raisesCause (s : State) : RaisesCause (encodeBody s) :=
  .bind (dxFindBody_raisesCause s) fun _ => .bind (dxSubBody_raisesCause _) fun _ =>
  .bind (fmBuildBody_raisesCause _) encRunBody_raisesCause

theorem decodeBody_raisesCause (s : State) : RaisesCause (decodeBody s) :=
  .bind (decRunBody_raisesCause s) dxExpBody_raisesCause

theorem compressBody_raisesCause (s : State) : RaisesCause (compressBody s) :=
  .bind (encodeBody_raisesCause s) serBody_raisesCause

theorem decompressBody_raisesCause (s : State) : RaisesCause (decompressBody s) :=
  .bind (desBody_raisesCause s) decodeBody_raisesCause

end Sys2Proof.Proofs
end

section
/-! PROOF. What the invariant says of a `READY` state, one structure per `MODE`. The body of every command leads from one of them
to one of them. -/

namespace Sys2Proof.Proofs

open Sys2Proof.Machine Sys2Proof.Safety

/-- `READY`, with no fault on record and the buffers in their canonical form. -/
structure Ready (s : State) : Prop where
  wf : Memory.wf s = true
  status : s.status = .ready
  err : s.err = .none
  errInfo : s.errInfo = 0

/-- No session is open (R51). -/
structure Resting (s : State) : Prop extends Ready s where
  mode : s.mode = .idle
  clear : TransientsClear s

/-- An encode session is open (R167, R179 (a)). -/
structure EncSession (s : State) : Prop extends Ready s where
  mode : s.mode = .enc
  codec : EncReady s
  reader : s.window = 0 ∧ s.rpos = 0 ∧ s.rbit = 0

/-- A decode session is open (R167, R179 (a), (e)). -/
structure DecSession (s : State) : Prop extends Ready s where
  mode : s.mode = .dec
  codec : DecReady s
  writer : s.acc = 0 ∧ s.nbits = 0 ∧ s.pending = 0
  primed : 24 ≤ s.rpos.toNat
  symbols : s.sym.length ≤ s.total.toNat

/-- The invariant of a `READY` state in the mode `m`. -/
def Session : Mode → State → Prop
  | .idle => Resting
  | .enc => EncSession
  | .dec => DecSession

variable {s t : State}

theorem Ready.statusOk (h : Ready s) : StatusOk s :=
  ⟨fun _ => ⟨h.err, h.errInfo⟩, fun hf => nomatch h.status.symm.trans hf⟩

theorem Resting.inv (h : Resting s) : Inv s := by
  obtain ⟨-, -, -, hacc, hnbits, -⟩ := h.clear
  exact ⟨h.wf, h.statusOk, by simp [WriterOk, hacc, hnbits], fun _ => h.clear, by simp [h.mode], by simp [h.mode]⟩

theorem EncSession.inv (h : EncSession s) : Inv s := by
  obtain ⟨hw, htab, hset⟩ := h.codec
  exact ⟨h.wf, h.statusOk, hw, by simp [h.mode], fun _ => ⟨htab, hset, h.reader⟩, by simp [h.mode]⟩

theorem DecSession.inv (h : DecSession s) : Inv s := by
  obtain ⟨htab, hset, hl, hh⟩ := h.codec
  obtain ⟨hacc, hnbits, hpending⟩ := h.writer
  exact ⟨h.wf, h.statusOk, by simp [WriterOk, hacc, hnbits], by simp [h.mode], by simp [h.mode],
    fun _ => ⟨htab, hset, hl, hh, hacc, hnbits, hpending, h.primed, h.symbols⟩⟩

/-- In `READY` the invariant is that of the session in `MODE`. -/
theorem session_of_inv {m : Mode} (h : Inv s) (hs : s.status = .ready) (hm : s.mode = m) : Session m s := by
  obtain ⟨hwf, ⟨hready, -⟩, -, hidle, henc, hdec⟩ := id h
  obtain ⟨herr, hinfo⟩ := hready hs
  match m with
  | .idle => exact { wf := hwf, status := hs, err := herr, errInfo := hinfo, mode := hm, clear := hidle hm }
  | .enc =>
    obtain ⟨-, -, hreader⟩ := henc hm
    exact { wf := hwf, status := hs, err := herr, errInfo := hinfo, mode := hm, codec := encReady_of_inv h hm,
            reader := hreader }
  | .dec =>
    obtain ⟨-, -, -, -, hacc, hnbits, hpending, hrpos, hsym⟩ := hdec hm
    exact { wf := hwf, status := hs, err := herr, errInfo := hinfo, mode := hm, codec := decReady_of_inv h hm,
            writer := ⟨hacc, hnbits, hpending⟩, primed := hrpos, symbols := hsym }

theorem resetState_resting (s : State) : Resting (resetState s) where
  wf := resetState_wf s
  status := rfl
  err := rfl
  errInfo := rfl
  mode := rfl
  clear := by simp [TransientsClear]

/-- Fault entry closes any session (R51, R320). -/
theorem faultEntry_inv {x : Cause} {info : Nat} {d : Dest} (hx : x ≠ .none) (hw : Memory.wf s = true) :
    Inv (faultEntry x info d s) := by
  refine ⟨faultEntry_wf hw, ⟨?_, ?_⟩, ?_, ?_, ?_, ?_⟩ <;> simp [hx, WriterOk, TransientsClear]

/-! ### Frames -/

/-- `STATE`, `ERR` and `ERRINFO` are kept. -/
abbrev KeepsStatus (s t : State) : Prop := t.status = s.status ∧ t.err = s.err ∧ t.errInfo = s.errInfo

/-- Nothing but the buffers and `TOTAL` changes. -/
def BufferFrame (s t : State) : Prop :=
  t = { s with total := t.total, ibuf := t.ibuf, sym := t.sym, dict := t.dict, ftab := t.ftab, bits := t.bits, obuf := t.obuf }

theorem Ready.of_keepsStatus (h : Ready s) (hw : Memory.wf t = true) (hf : KeepsStatus s t) : Ready t := by
  obtain ⟨hstatus, herr, hinfo⟩ := hf
  exact ⟨hw, hstatus.trans h.status, herr.trans h.err, hinfo.trans h.errInfo⟩

theorem Resting.of_buffers (h : Resting s) (hw : Memory.wf t = true) (hf : BufferFrame s t) : Resting t where
  toReady := h.of_keepsStatus hw (by rw [hf]; exact ⟨rfl, rfl, rfl⟩)
  mode := by rw [hf]; exact h.mode
  clear := by rw [hf]; exact h.clear

/-- The end of a session (R51). -/
theorem Ready.resting_transientClear (h : Ready s) : Resting { transientClear s with mode := .idle } where
  wf := transientClear_wf h.wf
  status := h.status
  err := h.err
  errInfo := h.errInfo
  mode := rfl
  clear := by simp [TransientsClear]

end Sys2Proof.Proofs
end

section
/-! PROOF. The bodies of the encode commands lead from session to session (R171 to R174). -/

namespace Sys2Proof.Proofs

open Sys2Proof.Machine Sys2Proof.Safety

variable {s t : State}

theorem encFrame_keepsStatus (h : EncFrame s t) : KeepsStatus s t := by
  rw [h.1]
  exact ⟨rfl, rfl, rfl⟩

theorem EncSession.of_frame (h : EncSession s) (hf : EncFrame s t) (ht : EncReady t) : EncSession t where
  toReady := h.of_keepsStatus (hf.wf h.wf) (encFrame_keepsStatus hf)
  mode := by rw [hf.1]; exact h.mode
  codec := ht
  reader := by rw [hf.1]; exact h.reader

/-- The writer's commands leave table and interval alone (R137 to R139). -/
theorem EncSession.of_writer (h : EncSession s) (hf : WriterFrame s t) (hw : WriterOk t) : EncSession t := by
  obtain ⟨-, htab, hset⟩ := h.codec
  obtain ⟨hlow, hhigh⟩ := writer_bounds hf
  refine h.of_frame (.of_writer hf) ⟨hw, tablePasses_congr (by rw [hf.1]) (by rw [hf.1]) htab, ?_⟩
  rwa [hlow, hhigh]

theorem writeBit_session {b : Bit} (h : EncSession s) (ht : writeBit b s = .ok t) : EncSession t :=
  h.of_writer (writeBit_frame ht) ((writeBit_sound h.codec.1).answer ht)

theorem emit_session {b : Bit} (h : EncSession s) (ht : emit b s = .ok t) : EncSession t :=
  h.of_writer (emit_frame ht) ((emit_sound h.codec.1).answer ht)

theorem defer_session (h : EncSession s) (ht : defer s = .ok t) : EncSession t :=
  h.of_writer (defer_frame ht) ((defer_sound h.codec.1).answer ht)

theorem encBeginBody_session (h : Resting s) (ht : encBeginBody s = .ok t) : EncSession t := by
  have hw := encBeginBody_wf ht h.wf
  have hcodec := (encBeginBody_sound s).answer ht
  obtain ⟨-, rfl⟩ := encBeginBody_ok ht
  obtain ⟨-, -, hwindow, -, -, -, hrpos, hrbit⟩ := h.clear
  exact { wf := hw, status := h.status, err := h.err, errInfo := h.errInfo, mode := rfl, codec := hcodec,
          reader := ⟨hwindow, hrpos, hrbit⟩ }

theorem encodeSymbol_session {x : Sym} (h : EncSession s) (ht : encodeSymbol x s = .ok t) : EncSession t :=
  h.of_frame (encodeSymbol_ok ht).1 ((encodeSymbol_sound h.codec).answer ht)

theorem encodeSymbols_session {xs : List Sym} (h : EncSession s) (ht : encodeSymbols xs s = .ok t) : EncSession t :=
  h.of_frame (encodeSymbols_frame ht) ((encodeSymbols_sound xs s h.codec).answer ht)

theorem encEndBody_resting (h : EncSession s) (ht : encEndBody s = .ok t) : Resting t := by
  obtain ⟨u, hu, rfl⟩ := encEndBody_ok ht
  have hf := writerFinish_frame hu
  exact (h.of_keepsStatus (hf.wf h.wf) (encFrame_keepsStatus (.of_writer hf))).resting_transientClear

/-- `ENC.RUN` opens its session and closes it, or opens none (R174). -/
theorem encRunBody_resting (h : Resting s) (ht : encRunBody s = .ok t) : Resting t := by
  rcases encRunBody_ok ht with ⟨-, rfl⟩ | ⟨-, u, v, hu, hv, ht⟩
  · exact h.of_buffers (bits_nil_wf h.wf) rfl
  · exact encEndBody_resting (encodeSymbols_session (encBeginBody_session h hu) hv) ht

end Sys2Proof.Proofs
end

section
/-! PROOF. The bodies of the decode commands lead from session to session (R140, R175 to R178): the reader's cursor never moves
back, so it stays behind the 24 bits that primed the window. -/

namespace Sys2Proof.Proofs

open Sys2Proof.Machine Sys2Proof.Safety

variable {s t : State}

/-! ### The cursor -/

theorem cursor_succ {p : BitVec 32} (h : p.toNat < 2 ^ 32 - 1) : (p + 1).toNat = p.toNat + 1 := by
  bv_omega

theorem shiftWindow_rpos (h : shiftWindow s = .ok t) : t.rpos.toNat = s.rpos.toNat + 1 := by
  obtain ⟨hlt, ht, -⟩ := shiftWindow_ok h
  rw [ht]
  exact cursor_succ hlt

theorem shiftWindows_rpos : ∀ {n : Nat} {s t : State}, shiftWindows n s = .ok t → t.rpos.toNat = s.rpos.toNat + n
  | 0, _, _, h => by
    cases h
    rfl
  | n + 1, s, t, h => by
    obtain ⟨u, hu, ht⟩ := bind_ok.1 h
    rw [shiftWindows_rpos ht, shiftWindow_rpos hu]
    omega

theorem lowerBounds_window_rpos {d : Nat} (h : (lowerBounds d s >>= lowerWindow d) = .ok t) : t.rpos = s.rpos := by
  obtain ⟨u, hu, ht⟩ := bind_ok.1 h
  obtain ⟨-, -, hframe, -⟩ := lowerBounds_ok hu
  obtain ⟨-, hframe', -⟩ := lowerWindow_ok ht
  rw [hframe', hframe]

theorem decCase_rpos {c : RenormCase} (h : decCase c s = .ok t) : t.rpos = s.rpos := by
  match c with
  | .e1 => cases h; rfl
  | .e2 => exact lowerBounds_window_rpos h
  | .e3 => exact lowerBounds_window_rpos h
  | .stop => cases h; rfl

theorem renormDecLoop_rpos : ∀ {n : Nat} {s t : State}, renormDecLoop n s = .ok t → s.rpos.toNat ≤ t.rpos.toNat
  | 0, s, t, h => by
    unfold renormDecLoop at h
    split at h
    · cases h
      exact Nat.le_refl _
    · cases h
  | n + 1, s, t, h => by
    unfold renormDecLoop at h
    split at h
    · cases h
      exact Nat.le_refl _
    · obtain ⟨u, hu, h⟩ := bind_ok.1 h
      obtain ⟨v, hv, h⟩ := bind_ok.1 h
      obtain ⟨w, hw, h⟩ := bind_ok.1 h
      obtain ⟨hframe, -⟩ := scale_ok hv
      have hvu : v.rpos = u.rpos := by rw [hframe]
      calc s.rpos.toNat = v.rpos.toNat := by rw [hvu, decCase_rpos hu]
        _ ≤ w.rpos.toNat := by rw [shiftWindow_rpos hw]; exact Nat.le_succ _
        _ ≤ t.rpos.toNat := renormDecLoop_rpos h

theorem decodeSymbol_rpos (h : decodeSymbol s = .ok t) : s.rpos.toNat ≤ t.rpos.toNat := by
  obtain ⟨target, -, h⟩ := bind_ok.1 h
  split at h
  · cases h
  · split at h
    · cases h
    · obtain ⟨u, hu, h⟩ := bind_ok.1 h
      obtain ⟨-, -, hframe, -⟩ := narrow_ok hu
      calc s.rpos.toNat = u.rpos.toNat := by rw [hframe]
        _ ≤ t.rpos.toNat := renormDecLoop_rpos h

/-! ### The commands -/

theorem brBitBody_session (h : DecSession s) (ht : brBitBody s = .ok t) : DecSession t := by
  obtain ⟨⟨bit, u⟩, hr, ht⟩ := bind_ok.1 ht
  obtain ⟨hlt, hr⟩ := readBit_ok hr
  obtain ⟨-, rfl⟩ := Prod.mk.inj hr
  obtain rfl := Except.ok.inj ht
  exact { wf := h.wf, status := h.status, err := h.err, errInfo := h.errInfo, mode := h.mode, codec := h.codec,
          writer := h.writer, primed := by rw [cursor_succ hlt]; exact Nat.le_succ_of_le h.primed, symbols := h.symbols }

theorem decBeginBody_session (h : Resting s) (ht : decBeginBody s = .ok t) : DecSession t ∧ t.sym = [] := by
  have hw := decBeginBody_wf ht h.wf
  obtain ⟨hcodec, -⟩ := (decBeginBody_sound s).answer ht
  obtain ⟨-, u, hu, rfl⟩ := decBeginBody_ok ht
  have hframe := readerInit_frame hu
  have hsym : u.sym = [] := by rw [hframe]
  have hrpos : u.rpos.toNat = 24 := shiftWindows_rpos hu
  obtain ⟨-, -, -, hacc, hnbits, hpending, -⟩ := h.clear
  refine ⟨{ toReady := h.of_keepsStatus hw ?_, mode := rfl, codec := hcodec, writer := ?_, primed := hrpos.ge,
            symbols := hsym ▸ Nat.zero_le _ }, hsym⟩
  · rw [hframe]
    exact ⟨rfl, rfl, rfl⟩
  · rw [hframe]
    exact ⟨hacc, hnbits, hpending⟩

/-- A symbol is decoded only where `TOTAL` leaves one (R176). -/
theorem decodeSymbol_session (h : DecSession s) (hlt : s.sym.length < s.total.toNat) (ht : decodeSymbol s = .ok t) :
    DecSession t ∧ t.total = s.total ∧ t.sym.length = s.sym.length + 1 := by
  obtain ⟨hcodec, htotal⟩ := (decodeSymbol_sound h.codec (by omega)).answer ht
  obtain ⟨-, e, -, -, -, -, hframe⟩ := decodeSymbol_ok ht
  have hsym : t.sym.length = s.sym.length + 1 := by
    rw [hframe]
    exact List.length_append
  refine ⟨{ toReady := h.of_keepsStatus (decodeSymbol_wf ht h.wf) ?_, mode := ?_, codec := hcodec, writer := ?_,
            primed := h.primed.trans (decodeSymbol_rpos ht), symbols := ?_ }, htotal, hsym⟩
  · rw [hframe]
    exact ⟨rfl, rfl, rfl⟩
  · rw [hframe]
    exact h.mode
  · rw [hframe]
    exact h.writer
  · rw [hsym, htotal]
    exact hlt

theorem decSymBody_session (h : DecSession s) (ht : decSymBody s = .ok t) : DecSession t := by
  unfold decSymBody at ht
  split at ht
  · cases ht
  · exact (decodeSymbol_session h (by omega) ht).1

theorem decodeSymbols_session : ∀ {n : Nat} {s t : State}, DecSession s → s.sym.length + n ≤ s.total.toNat →
    decodeSymbols n s = .ok t → DecSession t
  | 0, _, _, h, _, ht => by
    cases ht
    exact h
  | n + 1, s, t, h, hn, ht => by
    obtain ⟨u, hu, ht⟩ := bind_ok.1 ht
    obtain ⟨hus, htotal, hsym⟩ := decodeSymbol_session h (by omega) hu
    refine decodeSymbols_session hus ?_ ht
    rw [hsym, htotal]
    omega

theorem decEndBody_resting (h : DecSession s) (ht : decEndBody s = .ok t) : Resting t := by
  cases ht
  exact h.resting_transientClear

/-- `DEC.RUN` opens its session and closes it, or opens none (R178). -/
theorem decRunBody_resting (h : Resting s) (ht : decRunBody s = .ok t) : Resting t := by
  obtain ⟨-, ⟨-, rfl⟩ | ⟨-, u, v, hu, hv, ht⟩⟩ := decRunBody_ok ht
  · exact h.of_buffers (sym_nil_wf h.wf) rfl
  · obtain ⟨hus, hsym⟩ := decBeginBody_session h hu
    exact decEndBody_resting (decodeSymbols_session hus (by simp [hsym]) hv) ht

end Sys2Proof.Proofs
end

section
/-! PROOF. The bodies that work on buffers alone, and the commands made of others (R260, R261, R268, R269), leave the core at
rest. -/

namespace Sys2Proof.Proofs

open Sys2Proof.Machine Sys2Proof.Safety

variable {s t : State}

theorem fmBuildBody_resting (h : Resting s) (ht : fmBuildBody s = .ok t) : Resting t := by
  have hw := fmBuildBody_wf ht h.wf
  obtain ⟨-, -, rfl⟩ := fmBuildBody_ok ht
  exact h.of_buffers hw rfl

theorem fmCheckBody_resting (h : Resting s) (ht : fmCheckBody s = .ok t) : Resting t := by
  obtain ⟨-, rfl⟩ := fmCheckBody_ok ht
  exact h

theorem dxFindBody_resting (h : Resting s) (ht : dxFindBody s = .ok t) : Resting t := by
  have hw := dxFindBody_wf ht h.wf
  obtain ⟨-, rfl⟩ := dxFindBody_ok ht
  exact h.of_buffers hw rfl

theorem dxSubBody_resting (h : Resting s) (ht : dxSubBody s = .ok t) : Resting t := by
  have hw := dxSubBody_wf ht h.wf
  obtain ⟨-, rfl⟩ := dxSubBody_ok ht
  exact h.of_buffers hw rfl

theorem dxExpBody_resting (h : Resting s) (ht : dxExpBody s = .ok t) : Resting t := by
  have hw := dxExpBody_wf ht h.wf
  obtain ⟨out, -, rfl⟩ := dxExpBody_ok ht
  exact h.of_buffers hw rfl

theorem serBody_resting (h : Resting s) (ht : serBody s = .ok t) : Resting t := by
  have hw := serBody_wf ht h.wf
  obtain ⟨-, rfl⟩ := serBody_ok ht
  exact h.of_buffers hw rfl

theorem desBody_resting (h : Resting s) (ht : desBody s = .ok t) : Resting t := by
  have hw := desBody_wf ht h.wf
  obtain ⟨hframe, -⟩ := desBody_ok ht
  refine h.of_buffers hw ?_
  rw [hframe]
  rfl

theorem encodeBody_resting (h : Resting s) (ht : encodeBody s = .ok t) : Resting t := by
  obtain ⟨a, b, c, ha, hb, hc, ht⟩ := encodeBody_ok ht
  exact encRunBody_resting (fmBuildBody_resting (dxSubBody_resting (dxFindBody_resting h ha) hb) hc) ht

theorem decodeBody_resting (h : Resting s) (ht : decodeBody s = .ok t) : Resting t := by
  obtain ⟨a, ha, ht⟩ := bind_ok.1 ht
  exact dxExpBody_resting (decRunBody_resting h ha) ht

theorem compressBody_resting (h : Resting s) (ht : compressBody s = .ok t) : Resting t := by
  obtain ⟨a, ha, ht⟩ := bind_ok.1 ht
  exact serBody_resting (encodeBody_resting h ha) ht

theorem decompressBody_resting (h : Resting s) (ht : decompressBody s = .ok t) : Resting t := by
  obtain ⟨a, ha, ht⟩ := bind_ok.1 ht
  exact decodeBody_resting (desBody_resting h ha) ht

end Sys2Proof.Proofs
end

section
/-! PROOF. ResetValues, InvAtReset, StepKeepsInv, IntervalInvariant: the invariant holds at reset, every transaction keeps it, and
the bounds of the interval follow from it. -/

namespace Sys2Proof.Proofs

open Sys2Proof.Machine Sys2Proof.Safety

variable {s t : State}

/-! ### Acceptance -/

/-- Acceptance keeps the invariant where the body's faults have a cause and the body that completes keeps it (R99). -/
theorem accept_inv {i : Instr} {body : State → Except Stop State} (h : Inv s) (ht : accept i s body = .next t)
    (hc : RaisesCause (body s)) (hb : s.status = .ready → modeLegal i s.mode = true → body s = .ok t → Inv t) :
    Inv t := by
  obtain ⟨hw, -⟩ := id h
  rcases accept_next.1 ht with ⟨-, rfl⟩ | ⟨hs, hm, hr | ⟨x, info, hr, rfl⟩⟩ | ⟨-, -, rfl⟩
  · exact h
  · exact hb hs hm hr
  · rw [hr] at hc
    exact faultEntry_inv hc hw
  · exact faultEntry_inv (by decide) hw

/-- The same for a command with one legal mode: the body starts in that mode's session. -/
theorem accept_session_inv {i : Instr} {m : Mode} {body : State → Except Stop State} (h : Inv s)
    (ht : accept i s body = .next t) (hl : legalMode i = some m) (hc : RaisesCause (body s))
    (hb : Session m s → body s = .ok t → Inv t) : Inv t :=
  accept_inv h ht hc fun hs hm => hb (session_of_inv h hs (mode_of_legal hl hm))

/-! ### The transactions -/

theorem exec_inv {i : Instr} (h : Inv s) (ht : exec i s = .next t) : Inv t := by
  cases i with
  | nop => exact accept_inv h ht trivial fun _ _ hr => Except.ok.inj hr ▸ h
  | rst =>
    cases ht
    exact (resetState_resting s).inv
  | encBegin => exact accept_session_inv h ht rfl (encBeginBody_raisesCause s) fun hs hr => (encBeginBody_session hs hr).inv
  | encSym x => exact accept_session_inv h ht rfl (encodeSymbol_raisesCause x s) fun hs hr => (encodeSymbol_session hs hr).inv
  | encEnd => exact accept_session_inv h ht rfl (encEndBody_raisesCause s) fun hs hr => (encEndBody_resting hs hr).inv
  | encRun => exact accept_session_inv h ht rfl (encRunBody_raisesCause s) fun hs hr => (encRunBody_resting hs hr).inv
  | bwBit b => exact accept_session_inv h ht rfl (writeBit_raisesCause b s) fun hs hr => (writeBit_session hs hr).inv
  | bwEmit b => exact accept_session_inv h ht rfl (emit_raisesCause b s) fun hs hr => (emit_session hs hr).inv
  | bwDefer => exact accept_session_inv h ht rfl (defer_raisesCause s) fun hs hr => (defer_session hs hr).inv
  | decBegin => exact accept_session_inv h ht rfl (decBeginBody_raisesCause s) fun hs hr => (decBeginBody_session hs hr).1.inv
  | decSym => exact accept_session_inv h ht rfl (decSymBody_raisesCause s) fun hs hr => (decSymBody_session hs hr).inv
  | decEnd => exact accept_session_inv h ht rfl trivial fun hs hr => (decEndBody_resting hs hr).inv
  | decRun => exact accept_session_inv h ht rfl (decRunBody_raisesCause s) fun hs hr => (decRunBody_resting hs hr).inv
  | brBit => exact accept_session_inv h ht rfl (brBitBody_raisesCause s) fun hs hr => (brBitBody_session hs hr).inv
  | fmBuild => exact accept_session_inv h ht rfl (fmBuildBody_raisesCause s) fun hs hr => (fmBuildBody_resting hs hr).inv
  | fmCheck => exact accept_session_inv h ht rfl (fmCheckBody_raisesCause s) fun hs hr => (fmCheckBody_resting hs hr).inv
  | dxFind => exact accept_session_inv h ht rfl (dxFindBody_raisesCause s) fun hs hr => (dxFindBody_resting hs hr).inv
  | dxSub => exact accept_session_inv h ht rfl (dxSubBody_raisesCause s) fun hs hr => (dxSubBody_resting hs hr).inv
  | dxExp => exact accept_session_inv h ht rfl (dxExpBody_raisesCause s) fun hs hr => (dxExpBody_resting hs hr).inv
  | encode => exact accept_session_inv h ht rfl (encodeBody_raisesCause s) fun hs hr => (encodeBody_resting hs hr).inv
  | decode => exact accept_session_inv h ht rfl (decodeBody_raisesCause s) fun hs hr => (decodeBody_resting hs hr).inv
  | ser => exact accept_session_inv h ht rfl (serBody_raisesCause s) fun hs hr => (serBody_resting hs hr).inv
  | des => exact accept_session_inv h ht rfl (desBody_raisesCause s) fun hs hr => (desBody_resting hs hr).inv
  | compress => exact accept_session_inv h ht rfl (compressBody_raisesCause s) fun hs hr => (compressBody_resting hs hr).inv
  | decompress =>
    exact accept_session_inv h ht rfl (decompressBody_raisesCause s) fun hs hr => (decompressBody_resting hs hr).inv

theorem acceptIllegal_inv (w : Command) (h : Inv s) : Inv (acceptIllegal w s) := by
  unfold acceptIllegal
  split
  · exact h
  · exact faultEntry_inv (by decide) h.1

theorem runCommand_inv {w : Command} (h : Inv s) (ht : runCommand w s = .next t) : Inv t := by
  unfold runCommand at ht
  split at ht
  · exact exec_inv h ht
  · cases ht
    exact acceptIllegal_inv w h

/-- A host load that is accepted finds the core at rest, and changes buffers or `TOTAL` (R70, R72). -/
theorem hostLoad_inv {loaded : State} {fits : Bool} (h : Inv s) (hf : BufferFrame s loaded)
    (hw : Memory.wf (hostLoad s fits loaded) = true) : Inv (hostLoad s fits loaded) := by
  rcases hostLoad_cases s loaded fits with ⟨e, -, hs, hm⟩ | e
  · rw [e] at hw ⊢
    exact (Resting.of_buffers (session_of_inv h hs hm) hw hf).inv
  · rw [e]
    exact h

theorem runEvent_inv {e : HostEvent} (h : Inv s) (ht : runEvent e s = .next t) : Inv t := by
  obtain ⟨hw, -⟩ := id h
  cases e with
  | command w => exact runCommand_inv h ht
  | loadIbuf bytes => cases ht; exact hostLoad_inv h rfl (hostLoadIbuf_wf bytes hw)
  | loadSym symbols => cases ht; exact hostLoad_inv h rfl (hostLoadSym_wf symbols hw)
  | loadDict words => cases ht; exact hostLoad_inv h rfl (hostLoadDict_wf words hw)
  | loadFtab entries => cases ht; exact hostLoad_inv h rfl (hostLoadFtab_wf entries hw)
  | loadBits bytes => cases ht; exact hostLoad_inv h rfl (hostLoadBits_wf bytes hw)
  | loadTotal v => cases ht; exact hostLoad_inv h rfl (hostLoadTotal_wf v hw)
  | hardReset => cases ht; exact (resetState_resting s).inv

/-- Settles O58: in `READY` the invariant is one of three, by `MODE`, and each command's body leads from one of them to one of
them; a fault leads to a state with a cause and no session. -/
theorem stepKeepsInv : Obligations.StepKeepsInv := by
  unfold Obligations.StepKeepsInv
  intro s t h ht
  unfold step runPort at ht
  split at ht
  · cases ht
    exact h
  · exact runEvent_inv (inv_port h _) ht

/-! ### The interval -/

/-- A settled interval is wider than the total of a table that passes (R7, R167, R202). -/
theorem total_lt_range (htab : TablePasses s) (hset : Settled s.low.toNat s.high.toNat) :
    s.low.toNat ≤ s.high.toNat ∧ s.total.toNat < s.high.toNat - s.low.toNat + 1 := by
  obtain ⟨hle, hwide⟩ := settled_wide hset
  obtain ⟨hT, -⟩ := (tableCheck_sound s).answer htab
  exact ⟨hle, hT.trans hwide⟩

theorem bound_le_precisionLimit (b : Bound) : b.toNat ≤ precisionLimit := Nat.le_of_lt_succ b.isLt

/-- Settles O60: the step keeps the invariant, and the bounds follow from it in each `MODE`. -/
theorem intervalInvariant : Obligations.IntervalInvariant := by
  unfold Obligations.IntervalInvariant
  refine ⟨by decide, fun s t h ht => ?_⟩
  obtain ⟨-, -, -, hidle, henc, hdec⟩ := stepKeepsInv s t h ht
  have hlimit := bound_le_precisionLimit t.high
  match hm : t.mode with
  | .idle =>
    obtain ⟨hlow, hhigh, -⟩ := hidle hm
    exact ⟨by rw [hlow, hhigh]; decide, hlimit, nofun, fun hne => absurd rfl hne⟩
  | .enc =>
    obtain ⟨htab, hset, -⟩ := henc hm
    obtain ⟨hle, hrange⟩ := total_lt_range htab hset
    exact ⟨hle, hlimit, nofun, fun _ => hrange⟩
  | .dec =>
    obtain ⟨htab, hset, hl, hh, -⟩ := hdec hm
    obtain ⟨hle, hrange⟩ := total_lt_range htab hset
    exact ⟨hle, hlimit, fun _ => ⟨hl, hh⟩, fun _ => hrange⟩

/-! ### Reset -/

theorem resetState_atReset (s : State) : AtReset (resetState s) := by
  simp [AtReset, TransientsClear, RunState.code, Cause.code, Mode.code, State.ilen, State.slen, State.dcount,
    State.fcount, State.blen, State.olen]

/-- Settles O1: `RST` and hardware reset both answer `resetState`. -/
theorem resetValues : Obligations.ResetValues := by
  unfold Obligations.ResetValues
  exact ⟨resetState_atReset State.reset, fun s => ⟨resetState s, rfl, rfl, resetState_atReset s, rfl⟩⟩

/-- Settles O57: the reset state is the state after `RST`, which is at rest. -/
theorem invAtReset : Obligations.InvAtReset := by
  unfold Obligations.InvAtReset
  exact (resetState_resting State.reset).inv

end Sys2Proof.Proofs
end

section
/-! PROOF. HostLoads, HostReads: a load is `hostLoad` of its buffer (R70, R72), and a read answers the element or the register,
zero-extended (R71). -/

namespace Sys2Proof.Proofs

open Sys2Proof.Machine Sys2Proof.Safety

/-! ### Loads -/

/-- The model tests the capacities of a dictionary as rule R70 states them. -/
theorem dictFits_eq_decide (s : State) (d : List (List Byte)) :
    dictFits s d = decide (d.length ≤ s.capDictWords ∧ ∀ w ∈ d, w.length ≤ s.capWordBytes) := by
  rw [Bool.eq_iff_iff, dictFits_iff, decide_eq_true_iff]

/-- Every transaction but a command and hardware reset is a host load (R70). -/
theorem runEvent_eq_hostLoad {e : HostEvent} (hc : ∀ w, e ≠ .command w) (hr : e ≠ .hardReset) (s : State) :
    ∃ fits loaded, runEvent e s = .next (hostLoad s fits loaded) := by
  cases e with
  | command w => exact absurd rfl (hc w)
  | hardReset => exact absurd rfl hr
  | _ => exact ⟨_, _, rfl⟩

/-- In a session a host load is ignored (R72). -/
theorem hostLoad_in_session {s loaded : State} {fits : Bool} (hm : s.mode ≠ .idle) : hostLoad s fits loaded = s := by
  simp [hostLoad, hm]

/-- Settles O55: each load is `hostLoad`, whose definition is the condition; the capacities of a dictionary are `dictFits`. -/
theorem hostLoads : Obligations.HostLoads := by
  unfold Obligations.HostLoads
  rintro s e fits loaded (⟨b, rfl, rfl, rfl⟩ | ⟨x, rfl, rfl, rfl⟩ | ⟨d, rfl, rfl, rfl⟩ | ⟨f, rfl, rfl, rfl⟩ |
    ⟨b, rfl, rfl, rfl⟩ | ⟨v, rfl, rfl, rfl⟩)
  · rfl
  · rfl
  · rw [← dictFits_eq_decide]
    rfl
  · rfl
  · rfl
  · rfl

/-! ### Reads -/

/-- A register number has a value exactly up to 18 (R38). -/
theorem hostReadReg_exists_iff (s : State) (n : Nat) : (∃ v, hostReadReg s n = some v) ↔ n ≤ 18 := by
  refine ⟨fun ⟨v, hv⟩ => ?_, fun hn => ?_⟩
  · by_contra hn
    obtain ⟨k, rfl⟩ := Nat.exists_eq_add_of_le' (Nat.lt_of_not_le hn)
    cases hv
  · interval_cases n <;> exact ⟨_, rfl⟩

/-- An element has a value exactly below the length (R71). -/
theorem read_exists_iff {α : Type} (l : List α) (j : Nat) (f : α → BitVec 64) :
    (∃ v, (l[j]?).map f = some v) ↔ j < l.length := by
  rw [← Option.isSome_iff_exists, Option.isSome_map]
  simp

/-- An entry's field has a value exactly where the entry exists (R60, R71). -/
theorem read_ftab_exists_iff (s : State) (i : Nat) (f : EntryField) :
    (∃ v, hostRead s (.ftab i f) = some v) ↔ i < s.ftab.length := by
  cases f with
  | sym => exact read_exists_iff s.ftab i _
  | count => exact read_exists_iff s.ftab i _
  | cum => exact read_exists_iff s.ftab i _

/-- A read of the dictionary is a read of one of its words (R60, R71). -/
theorem hostRead_dict (s : State) (k j : Nat) :
    hostRead s (.dict k j) = (s.dict[k]?).bind fun w => (w[j]?).map (·.setWidth 64) := rfl

/-- A byte of a dictionary word has a value exactly where the word exists and is longer (R71). -/
theorem read_dict_exists_iff (s : State) (k j : Nat) :
    (∃ v, hostRead s (.dict k j) = some v) ↔ ∃ w, s.dict[k]? = some w ∧ j < w.length := by
  rw [hostRead_dict]
  cases s.dict[k]? with
  | none => simp
  | some w => simpa using read_exists_iff w j (·.setWidth 64)

/-- A register or an element is read as its own value (R71). -/
theorem read_zeroExtend {w : Nat} (x : BitVec w) (hw : w ≤ 64 := by decide) :
    (some (x.setWidth 64)).map (·.toNat) = some x.toNat :=
  congrArg some (BitVec.toNat_setWidth_of_le hw)

theorem read_element {w : Nat} {l : List (BitVec w)} {j : Nat} {x : BitVec w} (hx : l[j]? = some x)
    (hw : w ≤ 64 := by decide) : ((l[j]?).map (·.setWidth 64)).map (·.toNat) = some x.toNat := by
  rw [hx]
  exact read_zeroExtend x hw

theorem read_dict {s : State} {k j : Nat} {w : List Byte} {b : Byte} (hw : s.dict[k]? = some w) (hb : w[j]? = some b) :
    (hostRead s (.dict k j)).map (·.toNat) = some b.toNat := by
  rw [hostRead_dict, hw]
  exact read_element hb

theorem read_ftab {s : State} {i : Nat} {e : Entry} (he : s.ftab[i]? = some e) :
    (hostRead s (.ftab i .sym)).map (·.toNat) = some e.sym.toNat ∧
    (hostRead s (.ftab i .count)).map (·.toNat) = some e.count.toNat ∧
    (hostRead s (.ftab i .cum)).map (·.toNat) = some e.cum.toNat := by
  simp only [hostRead, he]
  exact ⟨read_zeroExtend e.sym, rfl, rfl⟩

/-- A register code is read as it is (R31, R32, R310). -/
theorem read_code {c : Nat} (hc : c < 2 ^ 64) : (some (BitVec.ofNat 64 c)).map (·.toNat) = some c :=
  congrArg some (Nat.mod_eq_of_lt hc)

/-- A length within a capacity fits the length register, so it is read as it is (R10, R11). -/
theorem read_length {len configured : Nat} (h : len ≤ capOf configured) :
    (some ((BitVec.ofNat 32 len).setWidth 64)).map (·.toNat) = some len := by
  have hlimit : capOf configured ≤ 2 ^ 32 - 1 := Nat.min_le_right _ _
  rw [read_zeroExtend, BitVec.toNat_ofNat, Nat.mod_eq_of_lt (by omega)]

/-- The registers by number (R38), `STATE`, `ERR` and `MODE` by their codes (R31, R32, R310). -/
theorem read_register (s : State) : ∀ n v, (n, v) ∈ [
    (0, s.status.code), (1, s.err.code), (2, s.errInfo.toNat), (3, s.mode.code), (4, s.low.toNat), (5, s.high.toNat),
    (6, s.window.toNat), (7, s.acc.toNat), (8, s.nbits.toNat), (9, s.pending.toNat), (10, s.rpos.toNat),
    (11, s.rbit.toNat), (16, s.total.toNat)] → (hostRead s (.reg n)).map (·.toNat) = some v := by
  simp only [List.mem_cons, List.not_mem_nil, or_false, Prod.mk.injEq]
  rintro n v (⟨rfl, rfl⟩ | ⟨rfl, rfl⟩ | ⟨rfl, rfl⟩ | ⟨rfl, rfl⟩ | ⟨rfl, rfl⟩ | ⟨rfl, rfl⟩ | ⟨rfl, rfl⟩ | ⟨rfl, rfl⟩ |
    ⟨rfl, rfl⟩ | ⟨rfl, rfl⟩ | ⟨rfl, rfl⟩ | ⟨rfl, rfl⟩ | ⟨rfl, rfl⟩)
  · exact read_code (by cases s.status <;> decide)
  · exact read_code (by cases s.err <;> decide)
  · rfl
  · exact read_code (by cases s.mode <;> decide)
  · exact read_zeroExtend s.low
  · exact read_zeroExtend s.high
  · exact read_zeroExtend s.window
  · exact read_zeroExtend s.acc
  · exact read_zeroExtend s.nbits
  · exact read_zeroExtend s.pending
  · exact read_zeroExtend s.rpos
  · exact read_zeroExtend s.rbit
  · rfl

/-- The length registers by number (R36, R38), where the buffers are in canonical form. -/
theorem read_lengthRegister {s : State} (h : Memory.wf s = true) : ∀ n len, (n, len) ∈ [
    (12, s.ibuf.length), (13, s.sym.length), (14, s.dict.length), (15, s.ftab.length), (17, s.bits.length),
    (18, s.obuf.length)] → (hostRead s (.reg n)).map (·.toNat) = some len := by
  rw [Memory.wf_iff, dictFits_iff] at h
  obtain ⟨hibuf, hsym, ⟨hdict, -⟩, hftab, hbits, hobuf⟩ := h
  simp only [List.mem_cons, List.not_mem_nil, or_false, Prod.mk.injEq]
  rintro n len (⟨rfl, rfl⟩ | ⟨rfl, rfl⟩ | ⟨rfl, rfl⟩ | ⟨rfl, rfl⟩ | ⟨rfl, rfl⟩ | ⟨rfl, rfl⟩)
  · exact read_length hibuf
  · exact read_length hsym
  · exact read_length hdict
  · exact read_length hftab
  · exact read_length hbits
  · exact read_length hobuf

/-- Settles O56: which places have a value, then the values of the registers, of the length registers and of the elements. -/
theorem hostReads : Obligations.HostReads := by
  unfold Obligations.HostReads
  intro s
  exact ⟨hostReadReg_exists_iff s, fun j => read_exists_iff s.ibuf j _, fun j => read_exists_iff s.sym j _,
    read_dict_exists_iff s, read_ftab_exists_iff s, fun j => read_exists_iff s.bits j _, fun j => read_exists_iff s.obuf j _,
    read_register s, read_lengthRegister, fun _ _ => read_element, fun _ _ => read_element, fun _ _ _ _ => read_dict,
    fun _ _ => read_ftab, fun _ _ => read_element, fun _ _ => read_element⟩

end Sys2Proof.Proofs
end

section
/-! PROOF. StreamBits: the stream and the bits written out agree byte by byte (R62, R79). -/

namespace Sys2Proof.Proofs

open Sys2Proof.Machine Sys2Proof.Safety

/-- Bit `j` of the `n` low bits of a value, the highest first (R62). -/
theorem bitsOf_getElem? (n v j : Nat) :
    (bitsOf n v)[j]? = if j < n then some (BitVec.ofNat 1 (v / 2 ^ (n - 1 - j))) else none := by
  unfold bitsOf
  split <;> simp_all

@[simp] theorem bitsOf_length (n v : Nat) : (bitsOf n v).length = n := by simp [bitsOf]

@[simp] theorem byteBits_nil : byteBits [] = [] := rfl

@[simp] theorem byteBits_cons (b : Byte) (bs : List Byte) : byteBits (b :: bs) = bitsOf 8 b.toNat ++ byteBits bs := rfl

/-- The first eight stream bits are those of the first byte (R62). -/
theorem streamBit_cons_of_lt (b : Byte) (bs : List Byte) {n : Nat} (h : n < 8) :
    streamBit (b :: bs) n = BitVec.ofNat 1 (b.toNat / 2 ^ (7 - n)) := by
  simp [streamBit, Nat.div_eq_of_lt h, Nat.mod_eq_of_lt h]

/-- Past them the stream is that of the other bytes (R62). -/
theorem streamBit_cons_add (b : Byte) (bs : List Byte) (n : Nat) : streamBit (b :: bs) (n + 8) = streamBit bs n := by
  simp [streamBit, Nat.add_div_right]

/-- Settles O20, by induction on the bytes: bit `n` lies in the first byte, or is bit `n - 8` of the others. -/
theorem streamBits : Obligations.StreamBits := by
  unfold Obligations.StreamBits
  intro bits
  induction bits with
  | nil =>
    intro n
    simp [streamBit]
  | cons b bs ih =>
    intro n
    rcases Nat.lt_or_ge n 8 with hn | hn
    · rw [streamBit_cons_of_lt b bs hn, byteBits_cons, List.getElem?_append_left (by simpa using hn), bitsOf_getElem?,
        if_pos hn]
      rfl
    · obtain ⟨m, rfl⟩ := Nat.exists_eq_add_of_le' hn
      rw [streamBit_cons_add, byteBits_cons, List.getElem?_append_right (by simp), ih]
      simp

end Sys2Proof.Proofs
end

section
/-! PROOF. SessionOwnership: in a session a command is refused, faults, or runs one of the session's few bodies, whose
frames say what it writes (R78). -/

namespace Sys2Proof.Proofs

open Sys2Proof.Machine Sys2Proof.Safety

variable {s t : State} {i : Instr}

/-! ### The commands of a session -/

/-- The body each command hands to acceptance; `RST` alone has none (R99). -/
def bodyOf : Instr → State → Except Stop State
  | .nop | .rst => .ok
  | .encBegin => encBeginBody
  | .encSym x => encodeSymbol x
  | .encEnd => encEndBody
  | .encRun => encRunBody
  | .bwBit b => writeBit b
  | .bwEmit b => emit b
  | .bwDefer => defer
  | .decBegin => decBeginBody
  | .decSym => decSymBody
  | .decEnd => decEndBody
  | .decRun => decRunBody
  | .brBit => brBitBody
  | .fmBuild => fmBuildBody
  | .fmCheck => fmCheckBody
  | .dxFind => dxFindBody
  | .dxSub => dxSubBody
  | .dxExp => dxExpBody
  | .encode => encodeBody
  | .decode => decodeBody
  | .ser => serBody
  | .des => desBody
  | .compress => compressBody
  | .decompress => decompressBody

theorem exec_eq_accept (hi : i ≠ .rst) (s : State) : exec i s = accept i s (bodyOf i) := by
  cases i with
  | rst => exact absurd rfl hi
  | _ => rfl

/-- The commands legal in an encode session (R100). -/
theorem modeLegal_enc_iff : modeLegal i .enc = true ↔
    i = .nop ∨ i = .rst ∨ (∃ x, i = .encSym x) ∨ i = .encEnd ∨ (∃ b, i = .bwBit b) ∨ (∃ b, i = .bwEmit b) ∨ i = .bwDefer := by
  cases i <;> simp [modeLegal, legalMode]

/-- The commands legal in a decode session (R100). -/
theorem modeLegal_dec_iff : modeLegal i .dec = true ↔
    i = .nop ∨ i = .rst ∨ i = .decSym ∨ i = .decEnd ∨ i = .brBit := by
  cases i <;> simp [modeLegal, legalMode]

/-- The destination set of a command legal in a session lies within the session's own (R320). -/
theorem destUnion_sessionDest {m : Mode} (hm : m ≠ .idle) (hl : modeLegal i m = true) :
    destUnion (destOf i) (sessionDest m) = sessionDest m := by
  cases m with
  | idle => exact absurd rfl hm
  | enc => rcases modeLegal_enc_iff.1 hl with rfl | rfl | ⟨x, rfl⟩ | rfl | ⟨b, rfl⟩ | ⟨b, rfl⟩ | rfl <;> rfl
  | dec => rcases modeLegal_dec_iff.1 hl with rfl | rfl | rfl | rfl | rfl <;> rfl

/-- In a session a fault empties the session's destination and nothing else: whatever the command, the state is that of fault
entry with the empty set. -/
theorem faultEntry_in_session {x : Cause} {info : Nat} (hm : s.mode ≠ .idle) (hl : modeLegal i s.mode = true) :
    faultEntry x info (destOf i) s = faultEntry x info {} s := by
  have hd : destUnion (destOf i) (sessionDest s.mode) = destUnion {} (sessionDest s.mode) :=
    destUnion_sessionDest hm hl
  unfold faultEntry
  rw [hd]

/-- In a session a command faults, or its mode is legal and its body completes (R99). -/
theorem exec_in_session (hs : s.status = .ready) (hm : s.mode ≠ .idle) (hi : i ≠ .rst) (ht : exec i s = .next t) :
    (∃ x info, t = faultEntry x info {} s) ∨ (modeLegal i s.mode = true ∧ bodyOf i s = .ok t) := by
  rw [exec_eq_accept hi] at ht
  rcases accept_next.1 ht with ⟨hfault, -⟩ | ⟨-, hl, hr | ⟨x, info, -, rfl⟩⟩ | ⟨-, -, rfl⟩
  · rw [hs] at hfault
    cases hfault
  · exact .inr ⟨hl, hr⟩
  · exact .inl ⟨x, info, faultEntry_in_session hm hl⟩
  · exact .inl ⟨_, _, rfl⟩

/-! ### What a session's transaction keeps -/

/-- The buffers no session writes, and `TOTAL`, keep their content (R78). -/
abbrev KeepsShared (s t : State) : Prop :=
  t.ftab = s.ftab ∧ t.total = s.total ∧ t.dict = s.dict ∧ t.obuf = s.obuf ∧ t.ibuf = s.ibuf

/-- A command through which the writer writes no bits (R78). -/
abbrev WritesNoBits (i : Instr) : Prop := i ≠ .encEnd ∧ ∀ x b, i ≠ .encSym x ∧ i ≠ .bwBit b ∧ i ≠ .bwEmit b

/-- The frame of a body that completes in a session: the transient registers, `MODE`, `SYM` and `BITS`. -/
abbrev SessionFrame (s t : State) : Prop :=
  t = { s with
    low := t.low, high := t.high, window := t.window, acc := t.acc, nbits := t.nbits, pending := t.pending,
    rpos := t.rpos, rbit := t.rbit, mode := t.mode, sym := t.sym, bits := t.bits }

theorem SessionFrame.keepsShared (h : SessionFrame s t) : KeepsShared s t := by
  rw [h]
  exact ⟨rfl, rfl, rfl, rfl, rfl⟩

/-- What a command that completes in an encode session writes (R78). -/
structure EncOwned (i : Instr) (s t : State) : Prop where
  frame : SessionFrame s t
  status : t.status = s.status
  sym : t.sym = s.sym
  grows : s.bits <+: t.bits
  unwritten : WritesNoBits i → t.bits = s.bits

theorem EncOwned.of_frame (h : EncFrame s t) (hb : WritesNoBits i → t.bits = s.bits) : EncOwned i s t := by
  obtain ⟨hf, hgrows, -⟩ := h
  exact ⟨by rw [hf], by rw [hf], by rw [hf], hgrows, hb⟩

theorem EncOwned.of_encEnd (h : encEndBody s = .ok t) : EncOwned .encEnd s t := by
  obtain ⟨u, hu, rfl⟩ := encEndBody_ok h
  obtain ⟨hf, hgrows, -⟩ := writerFinish_frame hu
  exact ⟨by rw [hf]; rfl, by rw [hf]; rfl, by rw [hf]; rfl, hgrows, fun hi => absurd rfl hi.1⟩

/-- Of the commands legal in an encode session only the writer's write `BITS` (R78). -/
theorem bodyOf_encOwned (hl : modeLegal i .enc = true) (hi : i ≠ .rst) (h : bodyOf i s = .ok t) : EncOwned i s t := by
  rcases modeLegal_enc_iff.1 hl with rfl | rfl | ⟨x, rfl⟩ | rfl | ⟨b, rfl⟩ | ⟨b, rfl⟩ | rfl
  · obtain rfl := Except.ok.inj h
    exact .of_frame (.refl s) fun _ => rfl
  · exact absurd rfl hi
  · exact .of_frame (encodeSymbol_ok h).1 fun hn => absurd rfl (hn.2 x 0).1
  · exact .of_encEnd h
  · exact .of_frame (.of_writer (writeBit_frame h)) fun hn => absurd rfl (hn.2 0 b).2.1
  · exact .of_frame (.of_writer (emit_frame h)) fun hn => absurd rfl (hn.2 0 b).2.2
  · obtain ⟨-, rfl⟩ := defer_ok h
    exact .of_frame (.of_writer (defer_frame h)) fun _ => rfl

/-- `DEC.SYM` that completes decodes a symbol (R176). -/
theorem decSymBody_ok (h : decSymBody s = .ok t) : decodeSymbol s = .ok t := by
  unfold decSymBody at h
  split at h
  · cases h
  · exact h

/-- Of the commands legal in a decode session none writes `BITS` (R78). -/
theorem bodyOf_decOwned (hl : modeLegal i .dec = true) (hi : i ≠ .rst) (h : bodyOf i s = .ok t) :
    SessionFrame s t ∧ t.bits = s.bits := by
  rcases modeLegal_dec_iff.1 hl with rfl | rfl | rfl | rfl | rfl
  · obtain rfl := Except.ok.inj h
    exact ⟨rfl, rfl⟩
  · exact absurd rfl hi
  · obtain ⟨-, e, -, -, -, -, hf⟩ := decodeSymbol_ok (decSymBody_ok h)
    exact ⟨by rw [hf], by rw [hf]⟩
  · obtain rfl := Except.ok.inj h
    exact ⟨rfl, rfl⟩
  · obtain ⟨⟨bit, u⟩, hr, h⟩ := bind_ok.1 h
    obtain ⟨-, hr⟩ := readBit_ok hr
    obtain ⟨-, rfl⟩ := Prod.mk.inj hr
    obtain rfl := Except.ok.inj h
    exact ⟨rfl, rfl⟩

/-! ### Fault entry in a session (R320) -/

theorem faultEntry_keepsShared {x : Cause} {info : Nat} (s : State) : KeepsShared s (faultEntry x info {} s) := by
  cases hm : s.mode <;> simp [KeepsShared, hm, destUnion, sessionDest]

theorem faultEntry_bits_of_dec {x : Cause} {info : Nat} (hm : s.mode = .dec) : (faultEntry x info {} s).bits = s.bits := by
  simp [hm, destUnion, sessionDest]

theorem faultEntry_bits_of_enc {x : Cause} {info : Nat} (hm : s.mode = .enc) : (faultEntry x info {} s).bits = [] := by
  simp [hm, destUnion, sessionDest]

theorem faultEntry_sym_of_enc {x : Cause} {info : Nat} (hm : s.mode = .enc) : (faultEntry x info {} s).sym = s.sym := by
  simp [hm, destUnion, sessionDest]

/-! ### The transactions -/

theorem row_of_rst : ∀ r ∈ rows, ∀ w, r.read w = .rst → r.mask = maskZ ∧ r.pattern = 0x00000001 := by
  simp [rows]

/-- The one word of `RST` (R100). -/
theorem word_of_rst {w : Command} (h : decodeWord w = .ok .rst) : w = 0x00000001 := by
  obtain ⟨r, hr, hread⟩ := (decodeWord_ok_iff w .rst).1 h
  obtain ⟨hmem, hmatch⟩ := rowOf_spec hr
  obtain ⟨hmask, hpattern⟩ := row_of_rst r hmem w hread
  calc w = w &&& maskZ := (BitVec.and_allOnes (x := w)).symm
    _ = 0x00000001 := by rw [← hmask, hmatch, hpattern]

/-- In a session a command word faults, or it is a command of the session and its body completes (R99). -/
theorem runCommand_in_session {w : Command} (hs : s.status = .ready) (hm : s.mode ≠ .idle) (hw : w ≠ 0x00000001)
    (ht : runCommand w s = .next t) :
    (∃ x info, t = faultEntry x info {} s) ∨
    ∃ i, decodeWord w = .ok i ∧ i ≠ .rst ∧ modeLegal i s.mode = true ∧ bodyOf i s = .ok t := by
  unfold runCommand at ht
  split at ht
  · rename_i i hd
    have hi : i ≠ .rst := fun hrst => hw (word_of_rst (hrst ▸ hd))
    rcases exec_in_session hs hm hi ht with hfault | ⟨hl, hr⟩
    · exact .inl hfault
    · exact .inr ⟨i, hd, hi, hl, hr⟩
  · cases ht
    exact .inl ⟨.illegalCommand, w.toNat, by simp [acceptIllegal, hs]⟩

/-- Settles O9: a load is ignored; a command word faults, which empties the session's destination alone, or its body completes
within the frame of its session. -/
theorem sessionOwnership : Obligations.SessionOwnership := by
  unfold Obligations.SessionOwnership
  intro s t e hs hm ht hreset hrst
  by_cases hload : ∀ w, e ≠ .command w
  · obtain ⟨fits, loaded, hrun⟩ := runEvent_eq_hostLoad hload hreset s
    rw [hrun, hostLoad_in_session hm] at ht
    cases ht
    exact ⟨rfl, rfl, rfl, rfl, rfl, fun _ => rfl, fun _ => rfl, fun _ =>
      ⟨rfl, fun hf => (nomatch hs.symm.trans hf), fun _ => ⟨List.prefix_rfl, fun _ => rfl⟩⟩⟩
  · obtain ⟨w, rfl⟩ : ∃ w, e = .command w := by simpa using hload
    have hw : w ≠ 0x00000001 := fun h => hrst (congrArg HostEvent.command h)
    rcases runCommand_in_session hs hm hw ht with ⟨x, info, rfl⟩ | ⟨i, hd, hi, hl, hr⟩
    · obtain ⟨hftab, htotal, hdict, hobuf, hibuf⟩ := faultEntry_keepsShared (x := x) (info := info) s
      exact ⟨hftab, htotal, hdict, hobuf, hibuf, fun h => absurd h hload, faultEntry_bits_of_dec, fun henc =>
        ⟨faultEntry_sym_of_enc henc, fun _ => faultEntry_bits_of_enc henc, fun h => nomatch h⟩⟩
    · cases hmode : s.mode with
      | idle => exact absurd hmode hm
      | enc =>
        rw [hmode] at hl
        obtain ⟨hframe, hstatus, hsym, hgrows, hunwritten⟩ := bodyOf_encOwned hl hi hr
        obtain ⟨hftab, htotal, hdict, hobuf, hibuf⟩ := hframe.keepsShared
        exact ⟨hftab, htotal, hdict, hobuf, hibuf, fun h => absurd h hload, nofun, fun _ =>
          ⟨hsym, fun hf => (nomatch (hstatus.trans hs).symm.trans hf), fun _ =>
            ⟨hgrows, fun h => hunwritten (h w i rfl hd)⟩⟩⟩
      | dec =>
        rw [hmode] at hl
        obtain ⟨hframe, hbits⟩ := bodyOf_decOwned hl hi hr
        obtain ⟨hftab, htotal, hdict, hobuf, hibuf⟩ := hframe.keepsShared
        exact ⟨hftab, htotal, hdict, hobuf, hibuf, fun h => absurd h hload, fun _ => hbits, nofun⟩

end Sys2Proof.Proofs
end

section
/-! PROOF. DecodeEncode, EncodeDecode, WordsAndFields, WordsDecode, StepRunsDecoded: a row matches a word where the opcode is the
row's and the reserved bits of the immediate are zero, and it reads the other bits of the immediate (R96 to R100). -/

namespace Sys2Proof.Proofs

open Sys2Proof.Machine Sys2Proof.Safety

variable {w : Command} {i : Instr} {r : Row}

/-! ### The two parts of a word (R95) -/

theorem immOf_append_opcodeOf (w : Command) : immOf w ++ opcodeOf w = w := BitVec.extractLsb'_append_extractLsb'

@[simp] theorem immOf_append (imm : BitVec 24) (op : Byte) : immOf (imm ++ op) = imm := BitVec.extractLsb'_append_eq_left

@[simp] theorem opcodeOf_append (imm : BitVec 24) (op : Byte) : opcodeOf (imm ++ op) = op := Laws.OpcodeByte.low_byte imm op

@[simp] theorem immOf_and (v w : Command) : immOf (v &&& w) = immOf v &&& immOf w := BitVec.extractLsb'_and

@[simp] theorem opcodeOf_and (v w : Command) : opcodeOf (v &&& w) = opcodeOf v &&& opcodeOf w := BitVec.extractLsb'_and

theorem word_eq_iff (v w : Command) : v = w ↔ opcodeOf v = opcodeOf w ∧ immOf v = immOf w := by
  constructor
  · rintro rfl
    exact ⟨rfl, rfl⟩
  · rintro ⟨hop, himm⟩
    rw [← immOf_append_opcodeOf v, ← immOf_append_opcodeOf w, hop, himm]

/-- The word as a number: the immediate stands above the opcode (R95). -/
theorem toNat_encodeWord (i : Instr) : (encodeWord i).toNat = (opcode i).toNat + 256 * (immediate i).toNat := by
  have hop : (opcode i).toNat < 2 ^ 8 := (opcode i).isLt
  rw [encodeWord, BitVec.toNat_append, ← Nat.shiftLeft_add_eq_or_of_lt hop, Nat.shiftLeft_eq]
  omega

/-! ### The operands (R97) -/

theorem bitOperand_setWidth (w : Command) : (bitOperand w).setWidth 24 = immOf w &&& 1 := by
  apply BitVec.eq_of_toNat_eq
  have hbit : w.toNat >>> 8 % 2 < 2 ^ 24 := by omega
  simpa [bitOperand, immOf, Nat.and_one_is_mod] using hbit

theorem symOperand_setWidth (w : Command) : (symOperand w).setWidth 24 = immOf w := by
  simp [symOperand]

theorem symOperand_lt (w : Command) : (symOperand w).toNat < 2 ^ 24 := by
  rw [symOperand, BitVec.toNat_setWidth]
  exact (Nat.mod_le _ _).trans_lt (immOf w).isLt

theorem bitOperand_append (b : Bit) (op : Byte) : bitOperand (b.setWidth 24 ++ op) = b := by
  have hlow : bitOperand (b.setWidth 24 ++ op) = (immOf (b.setWidth 24 ++ op)).setWidth 1 := by
    apply BitVec.eq_of_toNat_eq
    simp only [bitOperand, immOf, BitVec.extractLsb'_toNat, BitVec.toNat_setWidth]
    omega
  rw [hlow, immOf_append, BitVec.setWidth_setWidth_of_le b (by decide), BitVec.setWidth_eq]

theorem symOperand_encodeWord {x : Sym} (h : x.toNat < 2 ^ 24) : symOperand (encodeWord (.encSym x)) = x := by
  apply BitVec.eq_of_toNat_eq
  rw [symOperand, encodeWord, immOf_append, immediate, BitVec.toNat_setWidth, BitVec.toNat_setWidth]
  omega

/-! ### The rows of the command list (R100) -/

theorem rows_fixed_bits : ∀ r ∈ rows, opcodeOf r.mask = BitVec.allOnes 8 ∧ immOf r.pattern = 0 := by decide

/-- A row matches a word where the opcode is its own and the immediate's reserved bits are zero (R96, R98). -/
theorem match_iff (hr : r ∈ rows) :
    w &&& r.mask = r.pattern ↔ opcodeOf w = opcodeOf r.pattern ∧ immOf w &&& immOf r.mask = 0 := by
  obtain ⟨hmask, hpattern⟩ := rows_fixed_bits r hr
  rw [word_eq_iff, opcodeOf_and, immOf_and, hmask, BitVec.and_allOnes, hpattern]

theorem rows_opcodes_nodup : (rows.map fun r => opcodeOf r.pattern).Nodup := List.pairwise_map.2 rows_opcodes_distinct

/-- A word is matched by one row at most (R99). -/
theorem rowOf_eq_of_match (hr : r ∈ rows) (hw : w &&& r.mask = r.pattern) : rowOf w = some r := by
  cases hrow : rowOf w with
  | none => simpa [hw] using List.find?_eq_none.1 hrow r hr
  | some r' =>
    obtain ⟨hr', hw'⟩ := rowOf_spec hrow
    have hop : opcodeOf r'.pattern = opcodeOf r.pattern := (opcode_of_match hr' hw').symm.trans (opcode_of_match hr hw)
    exact congrArg some (List.inj_on_of_nodup_map rows_opcodes_nodup hr' hr hop)

theorem decodeWord_of_match (hr : r ∈ rows) (hw : w &&& r.mask = r.pattern) : decodeWord w = .ok (r.read w) :=
  (decodeWord_ok_iff w _).2 ⟨r, rowOf_eq_of_match hr hw, rfl⟩

/-! The bits of an immediate that each format leaves to the operand (R96, R97): none, the lowest, all. -/

theorem and_freeBits_maskZ (imm : BitVec 24) : imm &&& ~~~ immOf maskZ = 0 := BitVec.and_zero
theorem and_freeBits_maskB (imm : BitVec 24) : imm &&& ~~~ immOf maskB = imm &&& 1 := rfl
theorem and_freeBits_maskS (imm : BitVec 24) : imm &&& ~~~ immOf maskS = imm := BitVec.and_allOnes

theorem and_not_of_and_eq_zero {n : Nat} {x m : BitVec n} (h : x &&& m = 0) : x &&& ~~~ m = x := by
  ext j hj
  have hbit : (x[j] && m[j]) = false := by simpa using congrArg (fun v : BitVec n => v[j]) h
  cases hx : x[j] <;> simp_all

/-- What a row reads: a well-formed command of its opcode, whose immediate is the word's but for the reserved bits (R96, R97). -/
theorem row_reads (hr : r ∈ rows) (w : Command) : (r.read w).wf = true ∧ opcode (r.read w) = opcodeOf r.pattern ∧
    immediate (r.read w) = immOf w &&& ~~~ immOf r.mask := by
  revert hr r
  have hsym := symOperand_lt w
  simpa [rows, Instr.wf, opcode, immediate, opcodeOf, symOperand_setWidth, bitOperand_setWidth, and_freeBits_maskZ,
    and_freeBits_maskB, and_freeBits_maskS] using hsym

/-! ### The round trips (R99, R100) -/

/-- A command's word is matched by the row that has its opcode and reserves no bit its immediate sets. -/
theorem decodeWord_encodeWord_of_row (hr : r ∈ rows) (hop : opcode i = opcodeOf r.pattern)
    (himm : immediate i &&& immOf r.mask = 0) (hread : r.read (encodeWord i) = i) : decodeWord (encodeWord i) = .ok i := by
  have hw : encodeWord i &&& r.mask = r.pattern := by
    rw [match_iff hr, encodeWord, opcodeOf_append, immOf_append]
    exact ⟨hop, himm⟩
  rw [decodeWord_of_match hr hw, hread]

/-- Settles O11: a format Z command has one word, which is evaluated; the rows of formats S and B, at places 3, 6 and 7 of
the list, read the operand back from where the encoder put it. -/
theorem decodeEncode : Obligations.DecodeEncode := by
  unfold Obligations.DecodeEncode
  intro i hwf
  cases i with
  | encSym x =>
    have hx : x.toNat < 2 ^ 24 := by simpa [Instr.wf] using hwf
    exact decodeWord_encodeWord_of_row (r := rows[3]) (List.getElem_mem _) rfl BitVec.and_zero
      (congrArg Instr.encSym (symOperand_encodeWord hx))
  | bwBit b =>
    exact decodeWord_encodeWord_of_row (r := rows[6]) (List.getElem_mem _) rfl (by decide +revert)
      (congrArg Instr.bwBit (bitOperand_append b _))
  | bwEmit b =>
    exact decodeWord_encodeWord_of_row (r := rows[7]) (List.getElem_mem _) rfl (by decide +revert)
      (congrArg Instr.bwEmit (bitOperand_append b _))
  | _ => rfl

/-- Settles O12: the row that matches reads the opcode and, the reserved bits being zero, the whole immediate. -/
theorem encodeDecode : Obligations.EncodeDecode := by
  unfold Obligations.EncodeDecode
  intro w i h
  obtain ⟨r, hrow, rfl⟩ := (decodeWord_ok_iff w i).1 h
  obtain ⟨hr, hw⟩ := rowOf_spec hrow
  obtain ⟨hop, hreserved⟩ := (match_iff hr).1 hw
  obtain ⟨hwf, hopcode, himm⟩ := row_reads hr w
  refine ⟨hwf, ?_⟩
  rw [encodeWord, hopcode, himm, and_not_of_and_eq_zero hreserved, ← hop, immOf_append_opcodeOf]

/-- A word decodes to a command exactly where the command is well formed and the word is its word. -/
theorem decodeWord_ok_iff_encodeWord : decodeWord w = .ok i ↔ i.wf = true ∧ w = encodeWord i := by
  constructor
  · intro h
    obtain ⟨hwf, hw⟩ := encodeDecode w i h
    exact ⟨hwf, hw.symm⟩
  · rintro ⟨hwf, rfl⟩
    exact decodeEncode i hwf

/-- The same with the word as a number. -/
theorem decodeWord_ok_iff_toNat :
    decodeWord w = .ok i ↔ i.wf = true ∧ w.toNat = (opcode i).toNat + 256 * (immediate i).toNat := by
  rw [decodeWord_ok_iff_encodeWord, ← BitVec.toNat_inj, toNat_encodeWord]

/-! ### Words as numbers (R96 to R98) -/

theorem toNat_setWidth_bit (b : Bit) : (b.setWidth 24).toNat = b.toNat := BitVec.toNat_setWidth_of_le (by decide)

theorem decodeWord_bwBit_iff (b : Bit) : decodeWord w = .ok (.bwBit b) ↔ w.toNat = 0x14 + 256 * b.toNat := by
  simp [decodeWord_ok_iff_toNat, Instr.wf, opcode, immediate, -BitVec.toNat_setWidth, toNat_setWidth_bit]

theorem decodeWord_bwEmit_iff (b : Bit) : decodeWord w = .ok (.bwEmit b) ↔ w.toNat = 0x15 + 256 * b.toNat := by
  simp [decodeWord_ok_iff_toNat, Instr.wf, opcode, immediate, -BitVec.toNat_setWidth, toNat_setWidth_bit]

theorem decodeWord_encSym_iff (x : Sym) :
    decodeWord w = .ok (.encSym x) ↔ x.toNat < 2 ^ 24 ∧ w.toNat = 0x11 + 256 * x.toNat := by
  simp only [decodeWord_ok_iff_toNat, Instr.wf, opcode, immediate, decide_eq_true_eq, BitVec.toNat_setWidth,
    BitVec.reduceToNat]
  omega

theorem decodeWord_encSym (h : w.toNat % 256 = 0x11) : decodeWord w = .ok (.encSym (BitVec.ofNat 32 (w.toNat / 256))) := by
  rw [decodeWord_encSym_iff, BitVec.toNat_ofNat]
  omega

theorem toNat_ofNat_bit {n : Nat} (h : n < 2) : (BitVec.ofNat 1 n).toNat = n := by
  rw [BitVec.toNat_ofNat]
  omega

/-- The opcodes of format Z (R100): each is a command's word by itself. -/
theorem decodeWord_opcodeZ {op : Nat}
    (h : op ∈ [0x00, 0x01, 0x10, 0x12, 0x13, 0x16, 0x20, 0x21, 0x22, 0x23, 0x24, 0x30, 0x31, 0x40, 0x41, 0x42,
      0x50, 0x51, 0x52, 0x53, 0x54, 0x55]) : ∃ i, decodeWord (BitVec.ofNat 32 op) = .ok i := by
  have hok : (decodeWord (BitVec.ofNat 32 op)).isOk = true := by
    revert op
    decide
  cases hd : decodeWord (BitVec.ofNat 32 op) with
  | ok i => exact ⟨i, rfl⟩
  | error e => simp [hd, Except.isOk, Except.toBool] at hok

/-- Settles O13: a word that decodes is the word of its command, whose opcode and immediate are read off; the other way round,
each opcode with an operand its format admits is the word of a command. -/
theorem wordsAndFields : Obligations.WordsAndFields := by
  unfold Obligations.WordsAndFields
  intro w
  refine ⟨⟨?_, ?_⟩, decodeWord_encSym, decodeWord_bwBit_iff, decodeWord_bwEmit_iff, fun x => (decodeWord_encSym_iff x).1⟩
  · rintro ⟨i, hi⟩
    obtain ⟨-, hw⟩ := decodeWord_ok_iff_toNat.1 hi
    have hop : (opcode i).toNat < 256 := (opcode i).isLt
    have hlow : w.toNat % 256 = (opcode i).toNat := by omega
    have hhigh : w.toNat / 256 = (immediate i).toNat := by omega
    rw [hlow, hhigh]
    cases i with
    | encSym x => exact .inr (.inr rfl)
    | bwBit b => exact .inr (.inl ⟨List.mem_pair.2 (.inl rfl), (toNat_setWidth_bit b).trans_lt b.isLt⟩)
    | bwEmit b => exact .inr (.inl ⟨List.mem_pair.2 (.inr rfl), (toNat_setWidth_bit b).trans_lt b.isLt⟩)
    | _ => exact .inl ⟨by decide, rfl⟩
  · rintro (⟨hop, himm⟩ | ⟨hop, himm⟩ | hop)
    · have hw : w = BitVec.ofNat 32 (w.toNat % 256) := by
        rw [← BitVec.toNat_inj, BitVec.toNat_ofNat]
        omega
      rw [hw]
      exact decodeWord_opcodeZ hop
    · have hb : (BitVec.ofNat 1 (w.toNat / 256)).toNat = w.toNat / 256 := toNat_ofNat_bit himm
      rcases List.mem_pair.1 hop with hop | hop
      · exact ⟨_, (decodeWord_bwBit_iff (BitVec.ofNat 1 (w.toNat / 256))).2 (by omega)⟩
      · exact ⟨_, (decodeWord_bwEmit_iff (BitVec.ofNat 1 (w.toNat / 256))).2 (by omega)⟩
    · exact ⟨_, decodeWord_encSym hop⟩

/-- Settles O14: seven of the words are words of commands; the other two match no row. -/
theorem wordsDecode : Obligations.WordsDecode := by
  unfold Obligations.WordsDecode
  exact ⟨decodeEncode .nop rfl, decodeEncode (.encSym 65) rfl, decodeEncode (.bwBit 1) rfl, decodeEncode .brBit rfl,
    decodeEncode .fmCheck rfl, decodeEncode .dxExp rfl, decodeEncode .des rfl, rfl, rfl⟩

/-! ### The step (R30, R99) -/

variable {s : State} {e : HostEvent} {rest : List HostEvent}

theorem step_of_port_nil (h : s.port = []) : step s = .next s := by
  simp [step, runPort, h]

theorem step_of_port_cons (h : s.port = e :: rest) : step s = runEvent e { s with port := rest } := by
  simp [step, runPort, h]

theorem runEvent_command_of_decode (h : decodeWord w = .ok i) (s : State) : runEvent (.command w) s = exec i s := by
  simp [runEvent, runCommand, h]

theorem decodeTableWord_some {nbits v : Nat} (h : decodeTableWord nbits v = some i) :
    decodeWord (BitVec.ofNat 32 (v % 2 ^ nbits)) = .ok i := by
  unfold decodeTableWord at h
  split at h
  · cases hd : decodeWord (BitVec.ofNat 32 (v % 2 ^ nbits)) with
    | ok j => simpa [hd, Except.toOption] using h
    | error e => simp [hd, Except.toOption] at h
  · cases h

/-- Settles O10: the step performs the oldest transaction, and a word presented is the oldest. -/
theorem stepRunsDecoded : Obligations.StepRunsDecoded := by
  unfold Obligations.StepRunsDecoded
  refine ⟨fun s w rest i hp hd => ?_, fun s e rest => step_of_port_cons, fun s nbits v i hd => ?_, fun s => step_of_port_nil⟩
  · rw [step_of_port_cons hp, runEvent_command_of_decode hd]
  · exact (step_of_port_cons rfl).trans (runEvent_command_of_decode (decodeTableWord_some hd) s)

end Sys2Proof.Proofs
end

section
/-! PROOF. ModeTransitions: what each command's body does to `STATE` and `MODE` (R100, R271). -/

namespace Sys2Proof.Proofs

open Sys2Proof.Machine Sys2Proof.Safety

variable {s t u : State} {i : Instr} {m n : Mode}

/-- The column "MODE after" of the command table (R100, R271), for a command accepted in mode `m`. -/
def modeAfter : Instr → Mode → Mode
  | .encBegin, _ => .enc
  | .decBegin, _ => .dec
  | .encEnd, _ => .idle
  | .decEnd, _ => .idle
  | _, m => m

/-- From `s` to `t` the value of `STATE` stays and `MODE` becomes `m`. -/
structure Leaves (m : Mode) (s t : State) : Prop where
  status : t.status = s.status
  mode : t.mode = m

theorem Leaves.refl (s : State) : Leaves s.mode s s := ⟨rfl, rfl⟩

theorem Leaves.trans (h : Leaves m s t) (k : Leaves n t u) : Leaves n s u := ⟨k.status.trans h.status, k.mode⟩

/-- What comes after keeps the mode. -/
theorem Leaves.keep (h : Leaves m s t) (k : Leaves t.mode t u) : Leaves m s u := h.mode ▸ h.trans k

/-! ### The encoder -/

theorem encFrame_leaves (h : EncFrame s t) : Leaves s.mode s t := by
  rw [h.1]
  exact ⟨rfl, rfl⟩

theorem writerFrame_leaves (h : WriterFrame s t) : Leaves s.mode s t := encFrame_leaves (.of_writer h)

theorem encBeginBody_leaves (h : encBeginBody s = .ok t) : Leaves .enc s t := by
  obtain ⟨-, rfl⟩ := encBeginBody_ok h
  exact ⟨rfl, rfl⟩

theorem encEndBody_leaves (h : encEndBody s = .ok t) : Leaves .idle s t := by
  obtain ⟨u, hu, rfl⟩ := encEndBody_ok h
  exact ⟨(writerFrame_leaves (writerFinish_frame hu)).status, rfl⟩

theorem encRunBody_leaves (hm : s.mode = .idle) (h : encRunBody s = .ok t) : Leaves .idle s t := by
  rcases encRunBody_ok h with ⟨-, rfl⟩ | ⟨-, u, v, hu, hv, ht⟩
  · exact ⟨rfl, hm⟩
  · exact ((encBeginBody_leaves hu).trans (encFrame_leaves (encodeSymbols_frame hv))).trans (encEndBody_leaves ht)

/-! ### The decoder -/

theorem decBeginBody_leaves (h : decBeginBody s = .ok t) : Leaves .dec s t := by
  obtain ⟨-, u, hu, rfl⟩ := decBeginBody_ok h
  exact ⟨by rw [intervalInit_status, readerInit_frame hu], rfl⟩

theorem decodeSymbol_leaves (h : decodeSymbol s = .ok t) : Leaves s.mode s t := by
  obtain ⟨_, _, -, -, -, -, hf⟩ := decodeSymbol_ok h
  rw [hf]
  exact ⟨rfl, rfl⟩

theorem decodeSymbols_leaves : ∀ {k : Nat} {s t : State}, decodeSymbols k s = .ok t → Leaves s.mode s t
  | 0, s, t, h => by
    obtain rfl := Except.ok.inj h
    exact .refl s
  | k + 1, s, t, h => by
    obtain ⟨u, hu, ht⟩ := bind_ok.1 h
    exact (decodeSymbol_leaves hu).keep (decodeSymbols_leaves ht)

theorem decEndBody_leaves (h : decEndBody s = .ok t) : Leaves .idle s t := by
  obtain rfl := Except.ok.inj h
  exact ⟨rfl, rfl⟩

theorem decRunBody_leaves (hm : s.mode = .idle) (h : decRunBody s = .ok t) : Leaves .idle s t := by
  obtain ⟨-, ⟨-, rfl⟩ | ⟨-, u, v, hu, hv, ht⟩⟩ := decRunBody_ok h
  · exact ⟨rfl, hm⟩
  · exact ((decBeginBody_leaves hu).trans (decodeSymbols_leaves hv)).trans (decEndBody_leaves ht)

theorem brBitBody_leaves (h : brBitBody s = .ok t) : Leaves s.mode s t := by
  obtain ⟨⟨bit, u⟩, hr, h⟩ := bind_ok.1 h
  obtain ⟨-, hr⟩ := readBit_ok hr
  obtain ⟨-, rfl⟩ := Prod.mk.inj hr
  obtain rfl := Except.ok.inj h
  exact ⟨rfl, rfl⟩

/-! ### The bodies that work on buffers alone -/

theorem fmBuildBody_leaves (h : fmBuildBody s = .ok t) : Leaves s.mode s t := by
  obtain ⟨-, -, rfl⟩ := fmBuildBody_ok h
  exact ⟨rfl, rfl⟩

theorem fmCheckBody_leaves (h : fmCheckBody s = .ok t) : Leaves s.mode s t := by
  obtain ⟨-, rfl⟩ := fmCheckBody_ok h
  exact .refl t

theorem dxFindBody_leaves (h : dxFindBody s = .ok t) : Leaves s.mode s t := by
  obtain ⟨-, rfl⟩ := dxFindBody_ok h
  exact ⟨rfl, rfl⟩

theorem dxSubBody_leaves (h : dxSubBody s = .ok t) : Leaves s.mode s t := by
  obtain ⟨-, rfl⟩ := dxSubBody_ok h
  exact ⟨rfl, rfl⟩

theorem dxExpBody_leaves (h : dxExpBody s = .ok t) : Leaves s.mode s t := by
  obtain ⟨-, -, rfl⟩ := dxExpBody_ok h
  exact ⟨rfl, rfl⟩

theorem serBody_leaves (h : serBody s = .ok t) : Leaves s.mode s t := by
  obtain ⟨-, rfl⟩ := serBody_ok h
  exact ⟨rfl, rfl⟩

theorem desBody_leaves (h : desBody s = .ok t) : Leaves s.mode s t := by
  rw [(desBody_ok h).1]
  exact ⟨rfl, rfl⟩

/-! ### The commands made of others -/

theorem encodeBody_leaves (hm : s.mode = .idle) (h : encodeBody s = .ok t) : Leaves .idle s t := by
  obtain ⟨a, b, c, ha, hb, hc, ht⟩ := encodeBody_ok h
  have hsc : Leaves s.mode s c := ((dxFindBody_leaves ha).keep (dxSubBody_leaves hb)).keep (fmBuildBody_leaves hc)
  exact hsc.trans (encRunBody_leaves (hsc.mode.trans hm) ht)

theorem decodeBody_leaves (hm : s.mode = .idle) (h : decodeBody s = .ok t) : Leaves .idle s t := by
  obtain ⟨a, ha, ht⟩ := bind_ok.1 h
  exact (decRunBody_leaves hm ha).keep (dxExpBody_leaves ht)

theorem compressBody_leaves (hm : s.mode = .idle) (h : compressBody s = .ok t) : Leaves .idle s t := by
  obtain ⟨a, ha, ht⟩ := bind_ok.1 h
  exact (encodeBody_leaves hm ha).keep (serBody_leaves ht)

theorem decompressBody_leaves (hm : s.mode = .idle) (h : decompressBody s = .ok t) : Leaves .idle s t := by
  obtain ⟨a, ha, ht⟩ := bind_ok.1 h
  have hsa := desBody_leaves ha
  exact hsa.trans (decodeBody_leaves (hsa.mode.trans hm) ht)

/-! ### The commands -/

/-- A command that runs a whole session, or none, is legal in `IDLE` alone and leaves it (R271). -/
theorem leaves_of_idle (hl : modeLegal i s.mode = true) (hi : legalMode i = some .idle)
    (h : s.mode = .idle → Leaves .idle s t) : Leaves s.mode s t := by
  have hm := mode_of_legal hi hl
  exact hm.symm ▸ h hm

/-- A body that completes in a legal mode keeps `STATE` and leaves the mode of the command table (R100, R271). -/
theorem bodyOf_leaves (hl : modeLegal i s.mode = true) (h : bodyOf i s = .ok t) : Leaves (modeAfter i s.mode) s t := by
  cases i with
  | nop | rst =>
    obtain rfl := Except.ok.inj h
    exact .refl s
  | encBegin => exact encBeginBody_leaves h
  | encSym x => exact encFrame_leaves (encodeSymbol_ok h).1
  | encEnd => exact encEndBody_leaves h
  | encRun => exact leaves_of_idle hl rfl fun hm => encRunBody_leaves hm h
  | bwBit b => exact writerFrame_leaves (writeBit_frame h)
  | bwEmit b => exact writerFrame_leaves (emit_frame h)
  | bwDefer => exact writerFrame_leaves (defer_frame h)
  | decBegin => exact decBeginBody_leaves h
  | decSym => exact decodeSymbol_leaves (decSymBody_ok h)
  | decEnd => exact decEndBody_leaves h
  | decRun => exact leaves_of_idle hl rfl fun hm => decRunBody_leaves hm h
  | brBit => exact brBitBody_leaves h
  | fmBuild => exact fmBuildBody_leaves h
  | fmCheck => exact fmCheckBody_leaves h
  | dxFind => exact dxFindBody_leaves h
  | dxSub => exact dxSubBody_leaves h
  | dxExp => exact dxExpBody_leaves h
  | encode => exact leaves_of_idle hl rfl fun hm => encodeBody_leaves hm h
  | decode => exact leaves_of_idle hl rfl fun hm => decodeBody_leaves hm h
  | ser => exact serBody_leaves h
  | des => exact desBody_leaves h
  | compress => exact leaves_of_idle hl rfl fun hm => compressBody_leaves hm h
  | decompress => exact leaves_of_idle hl rfl fun hm => decompressBody_leaves hm h

/-- In `READY` a command enters the fault state, or its mode is legal and its body completes (R99). -/
theorem exec_ready (hs : s.status = .ready) (hi : i ≠ .rst) (ht : exec i s = .next t) :
    (∃ x info d, t = faultEntry x info d s) ∨ (modeLegal i s.mode = true ∧ bodyOf i s = .ok t) := by
  rw [exec_eq_accept hi] at ht
  rcases accept_next.1 ht with ⟨hfault, -⟩ | ⟨-, hl, hr | ⟨x, info, -, rfl⟩⟩ | ⟨-, -, rfl⟩
  · cases hs.symm.trans hfault
  · exact .inr ⟨hl, hr⟩
  · exact .inl ⟨x, info, _, rfl⟩
  · exact .inl ⟨_, _, _, rfl⟩

/-- Settles O7: fault entry leaves `IDLE`; a command that completes had its legal mode and leaves the table's. -/
theorem modeTransitions : Obligations.ModeTransitions := by
  unfold Obligations.ModeTransitions
  intro i s t hs ht
  by_cases hi : i = .rst
  · subst hi
    cases ht
    exact ⟨nofun, fun _ => rfl⟩
  · rcases exec_ready hs hi ht with ⟨x, info, d, rfl⟩ | ⟨hl, hr⟩
    · exact ⟨fun _ => rfl, nofun⟩
    · obtain ⟨hstatus, hmode⟩ := bodyOf_leaves hl hr
      refine ⟨fun hf => (nomatch (hstatus.trans hs).symm.trans hf), fun _ => ?_⟩
      cases i with
      | nop => exact hmode
      | rst => exact absurd rfl hi
      | encBegin | encEnd | decBegin | decEnd => exact ⟨mode_of_legal rfl hl, hmode⟩
      | _ =>
        have hm := mode_of_legal rfl hl
        exact ⟨hm, hmode.trans hm⟩

end Sys2Proof.Proofs
end

section
/-! PROOF. SerLayout: where each part of the flattened artifact stands, and the little-endian value of each field (R92, R93). -/

namespace Sys2Proof.Proofs

open Sys2Proof.Machine Sys2Proof.Safety

variable {s : State} {buf x y : List Byte} {a n v : Nat}

/-! ### Fields at an offset (R61) -/

theorem leValue_leBytes {n v : Nat} (h : v < 256 ^ n) : leValue (leBytes n v) = v := by
  induction n generalizing v with
  | zero => simpa [leBytes, leValue] using (Nat.lt_one_iff.1 h).symm
  | succ n ih =>
    have hrest : v / 256 < 256 ^ n := Nat.div_lt_of_lt_mul (by rwa [Nat.pow_succ'] at h)
    rw [leBytes, leValue, ih hrest, BitVec.toNat_ofNat]
    omega

/-- The bytes `x` stand in `buf` from offset `a` on. -/
def StandsAt (buf : List Byte) (a : Nat) (x : List Byte) : Prop := x <+: buf.drop a

theorem standsAt_zero (buf : List Byte) : StandsAt buf 0 buf := List.prefix_rfl

theorem StandsAt.left (h : StandsAt buf a (x ++ y)) : StandsAt buf a x := (List.prefix_append x y).trans h

theorem StandsAt.right (h : StandsAt buf a (x ++ y)) : StandsAt buf (a + x.length) y := by
  obtain ⟨rest, hrest⟩ := h
  refine ⟨rest, ?_⟩
  rw [← List.drop_drop, ← hrest, List.append_assoc, List.drop_left]

theorem StandsAt.cast {b : Nat} (h : StandsAt buf a x) (hab : a = b) : StandsAt buf b x := hab ▸ h

theorem StandsAt.take_drop (h : StandsAt buf a x) : (buf.drop a).take x.length = x := (List.prefix_iff_eq_take.1 h).symm

/-- The value of a field that stands at an offset (R12 `MemRead`). -/
theorem StandsAt.memRead (h : StandsAt buf a (leBytes n v)) (hv : v < 256 ^ n) : memRead buf a n = v := by
  have hread := h.take_drop
  rw [leBytes_length] at hread
  rw [Machine.memRead, hread, leValue_leBytes hv]

/-- What stands at the end of the buffer is all that is left. -/
theorem StandsAt.drop_eq (h : StandsAt buf a x) (hlen : buf.length = a + x.length) : buf.drop a = x :=
  (h.eq_of_length (by rw [List.length_drop]; omega)).symm

/-- In a list of encodings each stands after those before it. -/
theorem StandsAt.flatMap_getElem? {α : Type} {f : α → List Byte} {l : List α} {k : Nat} {e : α}
    (h : StandsAt buf a (l.flatMap f)) (he : l[k]? = some e) : StandsAt buf (a + ((l.take k).flatMap f).length) (f e) := by
  obtain ⟨hk, rfl⟩ := List.getElem?_eq_some_iff.1 he
  have hl : l = l.take k ++ l[k] :: l.drop (k + 1) := by rw [← List.drop_eq_getElem_cons hk, List.take_append_drop]
  rw [hl, List.flatMap_append, List.flatMap_cons] at h
  exact h.right.left

/-! ### The artifact (R92, R93) -/

theorem length_flatMap_serWord (d : List (List Byte)) : (d.flatMap serWord).length = (d.map fun w => 4 + w.length).sum :=
  flatMap_length_sum _ _ (fun w => by simp [serWord]) _

theorem length_flatMap_serEntry (f : List Entry) : (f.flatMap serEntry).length = 20 * f.length := by
  rw [flatMap_length_sum serEntry (fun _ => 20) (fun e => by simp [serEntry])]
  simp [Nat.mul_comm]

theorem length_flatMap_take_serEntry {f : List Entry} {k : Nat} {e : Entry} (he : f[k]? = some e) :
    ((f.take k).flatMap serEntry).length = 20 * k := by
  obtain ⟨hk, -⟩ := List.getElem?_eq_some_iff.1 he
  rw [length_flatMap_serEntry, List.length_take, Nat.min_eq_left hk.le]

/-- Where each part of the artifact stands, after the dictionary relative to its end `dictOffset d d.length`. -/
structure ArtifactParts (buf : List Byte) (d : List (List Byte)) (f : List Entry) (T : BitVec 64) (bits : List Byte) : Prop where
  length : buf.length = dictOffset d d.length + 16 + 20 * f.length + bits.length
  dictCount : StandsAt buf 0 (leBytes 4 d.length)
  dict : StandsAt buf 4 (d.flatMap serWord)
  ftabCount : StandsAt buf (dictOffset d d.length) (leBytes 4 f.length)
  ftab : StandsAt buf (dictOffset d d.length + 4) (f.flatMap serEntry)
  total : StandsAt buf (dictOffset d d.length + 4 + 20 * f.length) (leBytes 8 T.toNat)
  bitsCount : StandsAt buf (dictOffset d d.length + 12 + 20 * f.length) (leBytes 4 bits.length)
  bits : StandsAt buf (dictOffset d d.length + 16 + 20 * f.length) bits

/-- The parts follow one another, so each stands after the summed length of those before it. -/
theorem serialize_parts (d : List (List Byte)) (f : List Entry) (T : BitVec 64) (bits : List Byte) :
    ArtifactParts (serialize d f T bits) d f T bits := by
  have hd : 4 + (d.flatMap serWord).length = dictOffset d d.length := by
    rw [length_flatMap_serWord, dictOffset, List.take_length]
  have hf := length_flatMap_serEntry f
  -- The last part is split off, time after time: each of these ends with the part it is named after.
  have hbits : StandsAt (serialize d f T bits) 0 (serialize d f T bits) := standsAt_zero _
  have hbitsCount := hbits.left
  have htotal := hbitsCount.left
  have hftab := htotal.left
  have hftabCount := hftab.left
  have hdict := hftabCount.left
  refine ⟨?_, hdict.left, hdict.right.cast ?_, hftabCount.right.cast ?_, hftab.right.cast ?_, htotal.right.cast ?_,
    hbitsCount.right.cast ?_, hbits.right.cast ?_⟩ <;> simp only [serialize, List.length_append, leBytes_length] <;> omega

/-! ### `SER` (R266) -/

theorem lt_of_le_capOf {configured : Nat} (h : n ≤ capOf configured) : n < 256 ^ 4 := by
  have hcap : capOf configured ≤ lengthLimit := Nat.min_le_right _ _
  rw [lengthLimit] at hcap
  omega

section
variable {d : List (List Byte)} {f : List Entry} {T : BitVec 64} {bits : List Byte} {k : Nat}

/-- Word `k` of the dictionary: its length, then its bytes (R92). -/
theorem ArtifactParts.word {w : List Byte} (h : ArtifactParts buf d f T bits) (hw : d[k]? = some w)
    (hlen : w.length < 256 ^ 4) :
    memRead buf (dictOffset d k) 4 = w.length ∧ (buf.drop (dictOffset d k + 4)).take w.length = w := by
  have hword : StandsAt buf (dictOffset d k) (leBytes 4 w.length ++ w) :=
    (h.dict.flatMap_getElem? hw).cast (by rw [length_flatMap_serWord, dictOffset])
  exact ⟨hword.left.memRead hlen, hword.right.take_drop⟩

/-- Entry `k` of the table: its symbol, its count, its cumulative start (R92). -/
theorem ArtifactParts.entry {e : Entry} (h : ArtifactParts buf d f T bits) (he : f[k]? = some e) :
    memRead buf (dictOffset d d.length + 4 + 20 * k) 4 = e.sym.toNat ∧
    memRead buf (dictOffset d d.length + 8 + 20 * k) 8 = e.count.toNat ∧
    memRead buf (dictOffset d d.length + 16 + 20 * k) 8 = e.cum.toNat := by
  have hentry : StandsAt buf (dictOffset d d.length + 4 + 20 * k)
      (leBytes 4 e.sym.toNat ++ leBytes 8 e.count.toNat ++ leBytes 8 e.cum.toNat) :=
    (h.ftab.flatMap_getElem? he).cast (by rw [length_flatMap_take_serEntry he])
  refine ⟨hentry.left.left.memRead e.sym.isLt, ?_, ?_⟩
  · exact (hentry.left.right.cast (by simp only [leBytes_length]; omega)).memRead e.count.isLt
  · exact (hentry.right.cast (by simp only [List.length_append, leBytes_length]; omega)).memRead e.cum.isLt

end

theorem serBody_of_fits (h : serSize s ≤ s.capObuf) :
    serBody s = .ok { s with obuf := serialize s.dict s.ftab s.total s.bits } := if_neg (Nat.not_lt.2 h)

theorem serBody_of_full (h : s.capObuf < serSize s) : serBody s = .error (.raise .capacityFault resObuf) := if_pos h

theorem exec_ser (h : At .ready .idle s) : exec .ser s = finish s { obuf := true } (serBody s) := by
  obtain ⟨hs, hm⟩ := h
  exact accept_run hs (by rw [hm]; rfl)

/-- Settles O47: `SER` writes `serialize`, whose parts stand where the layout says; the capacities keep each length within its
4-byte field. -/
theorem serLayout : Obligations.SerLayout := by
  unfold Obligations.SerLayout
  intro s hat hwf
  refine ⟨fun hfits => ?_, fun hfull => ?_⟩
  · obtain ⟨-, -, hdict, hftab, hbits, -⟩ := (Memory.wf_iff s).1 hwf
    obtain ⟨hwords, hbytes⟩ := (dictFits_iff s s.dict).1 hdict
    have h := serialize_parts s.dict s.ftab s.total s.bits
    refine ⟨{ s with obuf := serialize s.dict s.ftab s.total s.bits }, dictOffset s.dict s.dict.length, ?_, rfl, rfl, h.length,
      h.dictCount.memRead (lt_of_le_capOf hwords), fun k w hw => ?_, h.ftabCount.memRead (lt_of_le_capOf hftab),
      fun i e he => h.entry he, h.total.memRead s.total.isLt, h.bitsCount.memRead (lt_of_le_capOf hbits),
      h.bits.drop_eq h.length⟩
    · rw [exec_ser hat, serBody_of_fits hfits]
      rfl
    · exact h.word hw (lt_of_le_capOf (hbytes w (List.mem_of_getElem? hw)))
  · rw [exec_ser hat, serBody_of_full hfull]
    rfl

end Sys2Proof.Proofs
end

section
/-! PROOF. BwBitWrites, BwEmitWrites, EncEndCloses, BwDeferCounts, BrBitReads: what an operation of the writer does to the bits
written, as one predicate with a rule of sequence: it appends a list of bits, or `BITS` has no room for the bytes they complete
(R131 to R134, R141 (a)). -/

namespace Sys2Proof.Proofs

open Sys2Proof.Machine Sys2Proof.Safety

variable {s t : State} {b : Bit} {l l' : List Bit} {r : Except Stop State}

/-! ### Acceptance in a session (R99) -/

section
variable {i : Instr} {m : Mode} {body : State → Except Stop State}

theorem accept_of_ok (hat : At .ready m s) (hl : modeLegal i m = true) (h : body s = .ok t) : accept i s body = .next t := by
  obtain ⟨hs, rfl⟩ := hat
  rw [accept_run hs hl, h]
  rfl

theorem accept_of_raise {x : Cause} {info : Nat} (hat : At .ready m s) (hl : modeLegal i m = true)
    (h : body s = .error (.raise x info)) : accept i s body = .next (faultEntry x info (destOf i) s) := by
  obtain ⟨hs, rfl⟩ := hat
  rw [accept_run hs hl, h]
  rfl

end

/-! ### Bits as lists (R62) -/

/-- A bit shifted in below a value. -/
theorem bitsOf_shift (n v : Nat) (b : Bit) : bitsOf (n + 1) (2 * v + b.toNat) = bitsOf n v ++ [b] := by
  have hb := b.isLt
  have hlast : BitVec.ofNat 1 (2 * v + b.toNat) = b := by
    apply BitVec.eq_of_toNat_eq
    rw [BitVec.toNat_ofNat]
    omega
  have hinit : ∀ j ∈ List.range n,
      BitVec.ofNat 1 ((2 * v + b.toNat) / 2 ^ (n - j)) = BitVec.ofNat 1 (v / 2 ^ (n - 1 - j)) := by
    intro j hj
    have hj := List.mem_range.1 hj
    have hpow : 2 ^ (n - j) = 2 * 2 ^ (n - 1 - j) := by rw [← pow_succ']; congr 1; omega
    have hhalf : (2 * v + b.toNat) / 2 = v := by omega
    rw [hpow, ← Nat.div_div_eq_div_mul, hhalf]
  simp only [bitsOf, List.range_succ, List.map_append, List.map_singleton, Nat.add_sub_cancel, Nat.sub_self, pow_zero,
    Nat.div_one, hlast, List.map_congr_left hinit]

/-- Zeros shifted in below a value. -/
theorem bitsOf_mul_two_pow (n v k : Nat) : bitsOf (n + k) (v * 2 ^ k) = bitsOf n v ++ List.replicate k 0 := by
  induction k with
  | zero => simp
  | succ k ih =>
    have hshift : v * 2 ^ (k + 1) = 2 * (v * 2 ^ k) + (0 : Bit).toNat := by
      simp only [BitVec.ofNat_eq_ofNat, BitVec.toNat_ofNat, Nat.zero_mod]
      ring
    rw [hshift, ← Nat.add_assoc, bitsOf_shift, ih, List.replicate_succ', List.append_assoc]

theorem byteBits_concat (bs : List Byte) (v : Byte) : byteBits (bs ++ [v]) = byteBits bs ++ bitsOf 8 v.toNat := by
  simp [byteBits]

theorem byteBits_length (bs : List Byte) : (byteBits bs).length = 8 * bs.length := by
  induction bs with
  | nil => rfl
  | cons v bs ih =>
    rw [byteBits_cons, List.length_append, bitsOf_length, ih, List.length_cons]
    omega

theorem writtenBits_length (s : State) : (writtenBits s).length = writtenCount s := by
  rw [writtenBits, List.length_append, byteBits_length, bitsOf_length, writtenCount]

/-- On a byte boundary every bit written is in `BITS`. -/
theorem writtenBits_of_aligned (h : writtenCount s % 8 = 0) : writtenBits s = byteBits s.bits := by
  have hlt := s.nbits.isLt
  have hn : s.nbits.toNat = 0 := by
    rw [writtenCount] at h
    omega
  rw [writtenBits, hn]
  exact List.append_nil _

/-- Where the bytes of more bits fit, those written so far do. -/
theorem bytes_fit {n cap : Nat} (hle : writtenCount s ≤ n) (hfits : n / 8 ≤ cap) : s.bits.length ≤ cap := by
  rw [writtenCount] at hle
  omega

/-! ### What an operation of the writer appends -/

/-- `t` is `s` with the bits `l` written. -/
structure Appended (s : State) (l : List Bit) (t : State) : Prop where
  written : writtenBits t = writtenBits s ++ l
  ok : WriterOk t
  frame : WriterFrame s t

/-- From `s` the bits `l` are written where `BITS` has room for the bytes they complete, else `CapacityFault(5)` is raised. -/
def Appends (s : State) (l : List Bit) (r : Except Stop State) : Prop :=
  ((writtenCount s + l.length) / 8 ≤ s.capBits ∧ ∃ t, r = .ok t ∧ Appended s l t) ∨
  (s.capBits < (writtenCount s + l.length) / 8 ∧ r = .error (.raise .capacityFault resBits))

theorem Appended.count (h : Appended s l t) : writtenCount t = writtenCount s + l.length := by
  rw [← writtenBits_length, h.written, List.length_append, writtenBits_length]

theorem Appended.fits (h : Appended s l t) (hs : s.bits.length ≤ s.capBits) : t.bits.length ≤ t.capBits := by
  rw [h.frame.capBits]
  exact h.frame.2.2 hs

theorem Appended.trans {u : State} (h : Appended s l t) (k : Appended t l' u) : Appended s (l ++ l') u where
  written := by rw [k.written, h.written, List.append_assoc]
  ok := k.ok
  frame := h.frame.trans k.frame

theorem Appends.of_ok (hfits : (writtenCount s + l.length) / 8 ≤ s.capBits) (h : Appended s l t) : Appends s l (.ok t) :=
  .inl ⟨hfits, t, rfl, h⟩

theorem Appends.room (h : Appends s l r) (hfits : (writtenCount s + l.length) / 8 ≤ s.capBits) :
    ∃ t, r = .ok t ∧ Appended s l t := by
  rcases h with ⟨-, h⟩ | ⟨hfull, -⟩
  · exact h
  · omega

theorem Appends.full (h : Appends s l r) (hfull : s.capBits < (writtenCount s + l.length) / 8) :
    r = .error (.raise .capacityFault resBits) := by
  rcases h with ⟨hfits, -⟩ | ⟨-, h⟩
  · omega
  · exact h

/-- The rule of sequence: where the first bits do not fit, neither do all of them. -/
theorem Appends.bind {f : State → Except Stop State} (h : Appends s l r)
    (hf : ∀ t, r = .ok t → Appended s l t → Appends t l' (f t)) : Appends s (l ++ l') (r >>= f) := by
  rw [Appends, List.length_append, ← Nat.add_assoc]
  rcases h with ⟨-, t, rfl, ht⟩ | ⟨hfull, rfl⟩
  · have hl' := hf t rfl ht
    rw [Appends, ht.count, ht.frame.capBits] at hl'
    rcases hl' with ⟨hfits, u, hu, hl'⟩ | ⟨hfull, hu⟩
    · exact .inl ⟨hfits, u, hu, ht.trans hl'⟩
    · exact .inr ⟨hfull, hu⟩
  · exact .inr ⟨by omega, rfl⟩

/-- A write to `PENDING` appends nothing. -/
theorem setPending_appends (p : BitVec 32) (hw : WriterOk s) (hs : s.bits.length ≤ s.capBits) :
    Appends s [] (.ok { s with pending := p }) := by
  have hlt := s.nbits.isLt
  refine .of_ok ?_ ⟨(List.append_nil _).symm, hw, rfl, List.prefix_rfl, id⟩
  rw [writtenCount, List.length_nil]
  omega

theorem nothing_appends (hw : WriterOk s) (hs : s.bits.length ≤ s.capBits) : Appends s [] (.ok s) :=
  setPending_appends s.pending hw hs

/-! ### The writer's operations (R131 to R134) -/

/-- The byte that ends in the bits `l`, after those of the accumulator. -/
theorem appendByte_appends {v : Nat} (hs : s.bits.length ≤ s.capBits) (hv : v < 256) (hlen : s.nbits.toNat + l.length = 8)
    (hbits : bitsOf 8 v = bitsOf s.nbits.toNat s.acc.toNat ++ l) : Appends s l (appendByte v s) := by
  have hcount : (writtenCount s + l.length) / 8 = s.bits.length + 1 := by
    rw [writtenCount]
    omega
  rw [Appends, hcount]
  by_cases hfull : s.bits.length = s.capBits
  · exact .inr ⟨by omega, if_pos hfull⟩
  · have happ : appendByte v s = .ok { s with bits := s.bits ++ [BitVec.ofNat 8 v], acc := 0, nbits := 0 } :=
      (if_neg hfull).trans (bind_ok.2 ⟨_, fit_ok_iff.2 ⟨hv, rfl⟩, rfl⟩)
    refine .inl ⟨by omega, _, happ, ?_, (appendByte_sound hv).answer happ, appendByte_frame happ⟩
    rw [writtenBits_of_aligned (by simp [writtenCount]), byteBits_concat, BitVec.toNat_ofNat, Nat.mod_eq_of_lt hv, hbits,
      writtenBits, List.append_assoc]

theorem writeBit_appends (b : Bit) (hw : WriterOk s) (hs : s.bits.length ≤ s.capBits) : Appends s [b] (writeBit b s) := by
  have hbyte := shifted_acc_lt_byte (b := b) hw
  by_cases h7 : s.nbits = 7
  · have hn : s.nbits.toNat = 7 := by rw [h7]; rfl
    rw [writeBit, if_pos h7]
    refine appendByte_appends hs hbyte (by rw [hn]; rfl) ?_
    rw [hn]
    exact bitsOf_shift 7 _ b
  · have hn : (s.nbits + 1).toNat = s.nbits.toNat + 1 := by bv_omega
    have hlt := (s.nbits + 1).isLt
    have hbit : writeBit b s = .ok { s with acc := BitVec.ofNat 8 (2 * s.acc.toNat + b.toNat), nbits := s.nbits + 1 } :=
      (if_neg h7).trans (bind_ok.2 ⟨_, fit_ok_iff.2 ⟨hbyte, rfl⟩, rfl⟩)
    rw [hbit]
    refine .of_ok ?_ ⟨?_, (writeBit_sound hw).answer hbit, writeBit_frame hbit⟩
    · rw [writtenCount, List.length_singleton]
      omega
    · simp only [writtenBits, hn, BitVec.toNat_ofNat, Nat.mod_eq_of_lt hbyte, bitsOf_shift, List.append_assoc]

theorem writeBit_pending (h : writeBit b s = .ok t) : t.pending = s.pending := by
  obtain ⟨-, ⟨-, -, rfl⟩ | ⟨-, rfl⟩⟩ := writeBit_ok h <;> rfl

theorem writeBits_appends (b : Bit) : ∀ (n : Nat) (s : State), WriterOk s → s.bits.length ≤ s.capBits →
    Appends s (List.replicate n b) (writeBits n b s)
  | 0, _, hw, hs => nothing_appends hw hs
  | n + 1, _, hw, hs => (writeBit_appends b hw hs).bind fun t _ ht => writeBits_appends b n t ht.ok (ht.fits hs)

/-- `Emit`: the bit, then its complement once per pending bit (R132). -/
theorem emit_appends (b : Bit) (hw : WriterOk s) (hs : s.bits.length ≤ s.capBits) :
    Appends s (b :: List.replicate s.pending.toNat (~~~b)) (emit b s) := by
  rw [← List.append_nil (List.replicate _ _)]
  refine (writeBit_appends b hw hs).bind fun t h ht => ?_
  rw [← writeBit_pending h]
  exact (writeBits_appends (~~~b) _ t ht.ok (ht.fits hs)).bind fun u _ hu =>
    setPending_appends 0 hu.ok (hu.fits (ht.fits hs))

/-- How many zeros pad `n` bits to the byte boundary (R134). -/
def padLength (n : Nat) : Nat := (8 - n % 8) % 8

theorem padded_acc_lt_byte (hw : WriterOk s) : s.acc.toNat * 2 ^ (8 - s.nbits.toNat) < 2 ^ 8 := by
  have hlt := s.nbits.isLt
  calc s.acc.toNat * 2 ^ (8 - s.nbits.toNat)
      < 2 ^ s.nbits.toNat * 2 ^ (8 - s.nbits.toNat) := Nat.mul_lt_mul_of_pos_right hw (Nat.two_pow_pos _)
    _ = 2 ^ 8 := by rw [← pow_add, Nat.add_sub_cancel' (by omega)]

theorem padByte_appends (hw : WriterOk s) (hs : s.bits.length ≤ s.capBits) :
    Appends s (List.replicate (padLength (writtenCount s)) 0) (padByte s) := by
  have hlt := s.nbits.isLt
  have hpad : padLength (writtenCount s) = (8 - s.nbits.toNat) % 8 := by
    rw [padLength, writtenCount]
    omega
  rw [hpad]
  by_cases h0 : s.nbits.toNat = 0
  · rw [padByte, if_pos h0, h0]
    exact nothing_appends hw hs
  · have h8 : s.nbits.toNat + (8 - s.nbits.toNat) = 8 := by omega
    have hbits := bitsOf_mul_two_pow s.nbits.toNat s.acc.toNat (8 - s.nbits.toNat)
    rw [h8] at hbits
    rw [padByte, if_neg h0, Nat.mod_eq_of_lt (by omega)]
    exact appendByte_appends hs (padded_acc_lt_byte hw) (by rwa [List.length_replicate]) hbits

/-- Settles O15: one bit fits where it completes no byte or `BITS` has room for one. -/
theorem bwBitWrites : Obligations.BwBitWrites := by
  unfold Obligations.BwBitWrites
  intro s b hat
  refine ⟨fun hw hfits => ?_, fun h7 hfull => ?_⟩
  · have hs := bytes_fit (s := s) (by omega) hfits
    obtain ⟨t, ht, happ⟩ := (writeBit_appends b hw hs).room hfits
    refine ⟨t, accept_of_ok hat rfl ht, happ.written, happ.ok, happ.frame.2.1, ?_⟩
    rw [← writeBit_pending ht]
    exact happ.frame.1
  · have hraise : writeBit b s = .error (.raise .capacityFault resBits) := (if_pos h7).trans (if_pos hfull)
    exact accept_of_raise hat rfl hraise

/-- Settles O16: `Emit` appends the bit and its followers, or finds `BITS` full. -/
theorem bwEmitWrites : Obligations.BwEmitWrites := by
  unfold Obligations.BwEmitWrites
  intro s b hat hw
  have hlen : writtenCount s + (b :: List.replicate s.pending.toNat (~~~b)).length = writtenCount s + 1 + s.pending.toNat := by
    rw [List.length_cons, List.length_replicate]
    omega
  rw [← hlen]
  refine ⟨fun hfits => ?_, fun hs hfull => accept_of_raise hat rfl ((emit_appends b hw hs).full hfull)⟩
  have hs := bytes_fit (Nat.le_add_right _ _) hfits
  obtain ⟨t, ht, happ⟩ := (emit_appends b hw hs).room hfits
  refine ⟨t, accept_of_ok hat rfl ht, happ.written, happ.ok, happ.frame.2.1, ?_⟩
  have hpending : t.pending = 0 := by
    obtain ⟨u, v, -, -, rfl⟩ := emit_ok ht
    rfl
  rw [← hpending]
  exact happ.frame.1

/-! ### The end of the stream (R134, R173) -/

/-- What `WriterFinish` appends to `n` bits with `p` pending: `1`, then `p + 1` zeros, then zeros to the byte boundary. -/
def closing (n p : Nat) : List Bit := 1 :: List.replicate (p + 1) 0 ++ List.replicate (padLength (n + (p + 2))) 0

theorem add_closing_length (n p : Nat) : n + (closing n p).length = 8 * ((n + p + 9) / 8) := by
  simp only [closing, List.length_append, List.length_cons, List.length_replicate, padLength]
  omega

theorem defer_of_lt (hp : s.pending.toNat < 2 ^ 32 - 1) : defer s = .ok { s with pending := s.pending + 1 } :=
  if_neg (Nat.ne_of_lt hp)

theorem defer_of_full (hp : s.pending.toNat = 2 ^ 32 - 1) : defer s = .error (.raise .capacityFault resPending) := if_pos hp

theorem writerFinish_appends (hw : WriterOk s) (hs : s.bits.length ≤ s.capBits) (hp : s.pending.toNat < 2 ^ 32 - 1) :
    Appends s (closing (writtenCount s) s.pending.toNat) (writerFinish s) := by
  have hcounted : (s.pending + 1).toNat = s.pending.toNat + 1 := cursor_succ hp
  have hzero : ~~~(1 : Bit) = 0 := by decide
  rw [writerFinish, defer_of_lt hp, closing, ← hcounted, ← List.nil_append (1 :: _ ++ _), ← hzero]
  refine (setPending_appends (s.pending + 1) hw hs).bind fun t ht hdefer => ?_
  obtain rfl := Except.ok.inj ht
  refine (emit_appends 1 hdefer.ok hs).bind fun u _ hu => ?_
  have hcount := hu.count
  rw [List.length_cons, List.length_replicate, hcounted] at hcount
  rw [hzero]
  exact hcount ▸ padByte_appends hu.ok (hu.fits hs)

/-- Settles O18: `WriterFinish` appends the closing bits up to the byte boundary; then the transient registers are cleared. -/
theorem encEndCloses : Obligations.EncEndCloses := by
  unfold Obligations.EncEndCloses
  intro s hat hw
  have hbytes : (writtenCount s + (closing (writtenCount s) s.pending.toNat).length) / 8 =
      (writtenCount s + s.pending.toNat + 9) / 8 := by
    rw [add_closing_length, Nat.mul_div_cancel_left _ (by decide)]
  refine ⟨fun hp hfits => ?_, fun hp hs hfull => ?_, fun hp => ?_⟩
  · have hs := bytes_fit (s := s) (by omega) hfits
    obtain ⟨t, ht, happ⟩ := (writerFinish_appends hw hs hp).room (by rwa [hbytes])
    have hbody : encEndBody s = .ok { transientClear t with mode := .idle } := bind_ok.2 ⟨t, ht, rfl⟩
    have haligned : byteBits t.bits = writtenBits t := by
      refine (writtenBits_of_aligned ?_).symm
      rw [happ.count, add_closing_length]
      exact Nat.mul_mod_right _ _
    refine ⟨_, padLength (writtenCount s + (s.pending.toNat + 2)), accept_of_ok hat rfl hbody, Nat.mod_lt _ (by decide), ?_,
      by simp [TransientsClear], ?_⟩
    · exact haligned.trans (happ.written.trans (List.append_assoc _ _ _).symm)
    · rw [happ.frame.1]
      rfl
  · have hfinish := (writerFinish_appends hw hs hp).full (by rwa [hbytes])
    exact accept_of_raise hat rfl (bind_error.2 (.inl hfinish))
  · have hfinish : writerFinish s = .error (.raise .capacityFault resPending) := bind_error.2 (.inl (defer_of_full hp))
    exact accept_of_raise hat rfl (bind_error.2 (.inl hfinish))

/-! ### The counter and the reader (R133, R136) -/

/-- Settles O17: `Defer` counts, or finds the counter full. -/
theorem bwDeferCounts : Obligations.BwDeferCounts := by
  unfold Obligations.BwDeferCounts
  intro s hat
  refine ⟨fun hp => ?_, fun hp => accept_of_raise hat rfl (defer_of_full hp)⟩
  exact ⟨_, accept_of_ok hat rfl (defer_of_lt hp), rfl, cursor_succ hp⟩

theorem brBitBody_of_lt (hp : s.rpos.toNat < 2 ^ 32 - 1) :
    brBitBody s = .ok { s with rbit := streamBit s.bits s.rpos.toNat, rpos := s.rpos + 1 } :=
  bind_ok.2 ⟨_, if_neg (Nat.ne_of_lt hp), rfl⟩

theorem brBitBody_of_full (hp : s.rpos.toNat = 2 ^ 32 - 1) : brBitBody s = .error (.raise .capacityFault resRpos) :=
  bind_error.2 (.inl (if_pos hp))

/-- Settles O21: `ReadBit` advances the cursor, or finds it at its last value. -/
theorem brBitReads : Obligations.BrBitReads := by
  unfold Obligations.BrBitReads
  intro s hat
  refine ⟨fun hp => ?_, fun hp => accept_of_raise hat rfl (brBitBody_of_full hp)⟩
  exact ⟨_, accept_of_ok hat rfl (brBitBody_of_lt hp), rfl, cursor_succ hp⟩

end Sys2Proof.Proofs
end

section
/-! PROOF. WriterCapacity: of the configuration the encoder's operations read the capacity of `BITS` alone, and only to raise
`CapacityFault(5)` (R131, R134, R316). `Recaps` says this of an operation that never shortens `BITS`; it has one rule per way the
operations are put together. -/

namespace Sys2Proof.Proofs

open Sys2Proof.Machine Sys2Proof.Safety

variable {s u : State} {c : Config}

/-- What a run from `s` answers that completes in `u` under other capacities. -/
def recap (s u : State) : Except Stop State :=
  if u.bits.length ≤ s.capBits then .ok { u with cfg := s.cfg } else .error (.raise .capacityFault resBits)

theorem recap_of_fits (h : u.bits.length ≤ s.capBits) : recap s u = .ok { u with cfg := s.cfg } := if_pos h

theorem recap_of_full (h : s.capBits < u.bits.length) : recap s u = .error (.raise .capacityFault resBits) :=
  if_neg (Nat.not_le.2 h)

/-- From `s` the operation keeps the configuration, does not shorten `BITS`, and what it answers under other capacities decides
what it answers under those of `s`. -/
def Recaps (f : State → Except Stop State) (s : State) : Prop :=
  ∀ c u, f { s with cfg := c } = .ok u →
    u.cfg = c ∧ s.bits.length ≤ u.bits.length ∧ (s.bits.length ≤ s.capBits → f s = recap s u)

/-! ### The rules -/

theorem Recaps.congr {f g : State → Except Stop State} (hg : Recaps g s)
    (h : ∀ c, f { s with cfg := c } = g { s with cfg := c }) : Recaps f s := by
  intro c u hu
  rw [h c] at hu
  have hs : f s = g s := h s.cfg
  rw [hs]
  exact hg c u hu

theorem Recaps.error {e : Stop} : Recaps (fun _ => .error e) s := nofun

/-- An update that writes neither the configuration nor `BITS`, and does not depend on the configuration. -/
theorem Recaps.ok {g : State → State} (hg : ∀ c, g { s with cfg := c } = { g s with cfg := c } := by exact fun _ => rfl)
    (hb : (g s).bits = s.bits := by rfl) : Recaps (fun s => .ok (g s)) s := by
  intro c u hu
  obtain rfl := Except.ok.inj hu
  rw [hg c]
  refine ⟨rfl, Nat.le_of_eq (congrArg _ hb.symm), fun hs => ?_⟩
  have hself : g s = { g s with cfg := s.cfg } := hg s.cfg
  rw [recap_of_fits (by rwa [hb]), ← hself]

/-- A value that does not depend on the configuration. -/
theorem Recaps.read {α : Type} {x : State → Except Stop α} {f : α → State → Except Stop State}
    (hf : ∀ a, Recaps (f a) s) (hx : ∀ c, x { s with cfg := c } = x s := by exact fun _ => rfl) :
    Recaps (fun s => x s >>= fun a => f a s) s := by
  intro c u hu
  obtain ⟨a, ha, hu⟩ := bind_ok.1 hu
  rw [hx] at ha
  simp only [ha]
  exact hf a c u hu

/-- A test that does not depend on the configuration. -/
theorem Recaps.ite {p : State → Prop} [DecidablePred p] {f g : State → Except Stop State} (hf : Recaps f s)
    (hg : Recaps g s) (hp : ∀ c, p { s with cfg := c } ↔ p s := by exact fun _ => Iff.rfl) :
    Recaps (fun s => if p s then f s else g s) s := by
  by_cases h : p s
  · exact hf.congr fun c => if_pos ((hp c).2 h)
  · exact hg.congr fun c => if_neg (mt (hp c).1 h)

/-- The rule of sequence: where the first operation leaves too many bytes, so does the second. -/
theorem Recaps.bind {f g : State → Except Stop State} (hf : Recaps f s) (hg : ∀ t, Recaps g t) :
    Recaps (fun s => f s >>= g) s := by
  intro c u h
  obtain ⟨t, ht, hu⟩ := bind_ok.1 h
  obtain ⟨rfl, htlen, hft⟩ := hf c t ht
  obtain ⟨hcfg, hulen, hgu⟩ := hg { t with cfg := s.cfg } t.cfg u hu
  refine ⟨hcfg, Nat.le_trans htlen hulen, fun hs => ?_⟩
  rcases Nat.lt_or_ge s.capBits t.bits.length with hfull | hfits
  · rw [recap_of_full (Nat.lt_of_lt_of_le hfull hulen)]
    exact bind_error.2 (.inl ((hft hs).trans (recap_of_full hfull)))
  · have hfirst : f s = .ok { t with cfg := s.cfg } := (hft hs).trans (recap_of_fits hfits)
    have hbind : f s >>= g = g { t with cfg := s.cfg } := by rw [hfirst]; rfl
    exact hbind.trans (hgu hfits)

/-! ### The writer (R131 to R134) -/

theorem appendByte_recaps (v : Nat) (s : State) : Recaps (appendByte v) s := by
  intro c u hu
  obtain ⟨-, hv, rfl⟩ := appendByte_ok hu
  have hlen : (s.bits ++ [BitVec.ofNat 8 v]).length = s.bits.length + 1 := List.length_append
  refine ⟨rfl, by simp, fun hs => ?_⟩
  by_cases hfull : s.bits.length = s.capBits
  · rw [recap_of_full (by simp [hfull])]
    exact if_pos hfull
  · rw [recap_of_fits (by rw [hlen]; omega)]
    exact (if_neg hfull).trans (bind_ok.2 ⟨_, fit_ok_iff.2 ⟨hv, rfl⟩, rfl⟩)

theorem writeBit_recaps (b : Bit) (s : State) : Recaps (writeBit b) s :=
  .ite (appendByte_recaps (2 * s.acc.toNat + b.toNat) s) (.read fun _ => .ok)

theorem writeBits_recaps (b : Bit) : ∀ (n : Nat) (s : State), Recaps (writeBits n b) s
  | 0, _ => .ok
  | n + 1, s => .bind (writeBit_recaps b s) fun t => writeBits_recaps b n t

theorem emit_recaps (b : Bit) (s : State) : Recaps (emit b) s :=
  .bind (writeBit_recaps b s) fun t => .bind (writeBits_recaps (~~~b) t.pending.toNat t) fun _ => .ok

theorem defer_recaps (s : State) : Recaps defer s := .ite .error .ok

theorem padByte_recaps (s : State) : Recaps padByte s :=
  .ite .ok (appendByte_recaps (s.acc.toNat * 2 ^ (8 - s.nbits.toNat)) s)

theorem writerFinish_recaps (s : State) : Recaps writerFinish s :=
  .bind (defer_recaps s) fun t => .bind (emit_recaps 1 t) padByte_recaps

/-! ### The encoder (R161 to R174) -/

theorem narrow_recaps (cs ce T : Nat) (s : State) : Recaps (narrow cs ce T) s :=
  .read fun _ => .read fun _ => .read fun _ => .read fun _ => .read fun _ => .read fun _ => .ok

theorem scale_recaps (s : State) : Recaps scale s :=
  .read fun _ => .read fun _ => .ok

theorem lowerBounds_recaps (d : Nat) (s : State) : Recaps (lowerBounds d) s :=
  .read fun _ => .read fun _ => .ok

theorem encCase_recaps (k : RenormCase) (s : State) : Recaps (encCase k) s :=
  match k with
  | .e1 => emit_recaps 0 s
  | .e2 => .bind (emit_recaps 1 s) (lowerBounds_recaps half)
  | .e3 => .bind (defer_recaps s) (lowerBounds_recaps firstQtr)
  | .stop => .ok

theorem renormEncLoop_recaps : ∀ (n : Nat) (s : State), Recaps (renormEncLoop n) s
  | 0, _ => .ite .ok .error
  | n + 1, s => .ite .ok <|
    .bind (encCase_recaps (classify s.low s.high) s) fun t => .bind (scale_recaps t) (renormEncLoop_recaps n)

theorem encodeSymbol_of_none {x : Sym} (h : findSym s.ftab x = none) :
    encodeSymbol x s = .error (.raise .modelError x.toNat) := by
  rw [encodeSymbol, h]

theorem encodeSymbol_of_some {x : Sym} {e : Entry} (h : findSym s.ftab x = some e) :
    encodeSymbol x s = narrow e.cum.toNat (e.cum.toNat + e.count.toNat) s.total.toNat s >>= renormEnc := by
  rw [encodeSymbol, h]

theorem encodeSymbol_recaps (x : Sym) (s : State) : Recaps (encodeSymbol x) s := by
  match h : findSym s.ftab x with
  | none => exact Recaps.error.congr fun c => encodeSymbol_of_none (s := { s with cfg := c }) h
  | some e =>
    exact ((narrow_recaps e.cum.toNat (e.cum.toNat + e.count.toNat) s.total.toNat s).bind (renormEncLoop_recaps 24)).congr
      fun c => encodeSymbol_of_some (s := { s with cfg := c }) h

theorem encodeSymbols_recaps : ∀ (xs : List Sym) (s : State), Recaps (encodeSymbols xs) s
  | [], _ => .ok
  | x :: xs, s => .bind (encodeSymbol_recaps x s) (encodeSymbols_recaps xs)

theorem encEndBody_recaps (s : State) : Recaps encEndBody s :=
  .bind (writerFinish_recaps s) fun _ => .ok

/-- `ENC.RUN` empties `BITS` first, and runs like the other commands from there (R171, R174). -/
theorem encRunBody_recap (h : encRunBody { s with cfg := c } = .ok u) : encRunBody s = recap s u := by
  rcases encRunBody_ok h with ⟨hsym, rfl⟩ | ⟨hsym, v, w, hv, hw, hu⟩
  · rw [recap_of_fits (Nat.zero_le _)]
    exact if_pos (List.length_eq_zero_iff.2 hsym)
  · obtain ⟨htab, rfl⟩ := encBeginBody_ok hv
    have hbegin : encBeginBody s = .ok { intervalInit (writerInit s) with mode := .enc } := bind_ok.2 ⟨(), htab, rfl⟩
    have hrun : encRunBody s =
        encodeSymbols s.sym { intervalInit (writerInit s) with mode := .enc } >>= encEndBody := by
      rw [encRunBody, if_neg (mt List.length_eq_zero_iff.1 hsym), hbegin]
      rfl
    obtain ⟨-, -, hrest⟩ := (encodeSymbols_recaps s.sym { intervalInit (writerInit s) with mode := .enc }).bind
      encEndBody_recaps c u (bind_ok.2 ⟨w, hw, hu⟩)
    exact hrun.trans (hrest (Nat.zero_le _))

/-! ### The commands -/

/-- The commands that write bits and no other buffer (R131, R134). -/
abbrev WritesBits (i : Instr) : Prop :=
  (∃ x, i = .encSym x) ∨ (∃ b, i = .bwBit b) ∨ (∃ b, i = .bwEmit b) ∨ i = .encEnd ∨ i = .encRun

theorem destOf_of_writesBits {i : Instr} (hi : WritesBits i) : i ≠ .rst ∧ destOf i = { bits := true } := by
  rcases hi with ⟨x, rfl⟩ | ⟨b, rfl⟩ | ⟨b, rfl⟩ | rfl | rfl <;> exact ⟨nofun, rfl⟩

theorem bodyOf_recap {i : Instr} (hi : WritesBits i) (hs : s.bits.length ≤ s.capBits)
    (h : bodyOf i { s with cfg := c } = .ok u) : bodyOf i s = recap s u := by
  rcases hi with ⟨x, rfl⟩ | ⟨b, rfl⟩ | ⟨b, rfl⟩ | rfl | rfl
  · exact (encodeSymbol_recaps x s c u h).2.2 hs
  · exact (writeBit_recaps b s c u h).2.2 hs
  · exact (emit_recaps b s c u h).2.2 hs
  · exact (encEndBody_recaps s c u h).2.2 hs
  · exact encRunBody_recap h

/-- Settles O19: a run that completes under other capacities ran the body, whose answer decides the answer at hand. -/
theorem writerCapacity : Obligations.WriterCapacity := by
  unfold Obligations.WriterCapacity
  intro s u c i hi hs hbits h hu
  obtain ⟨hrst, hdest⟩ := destOf_of_writesBits hi
  rcases exec_ready (s := { s with cfg := c }) hs hrst h with ⟨x, info, d, rfl⟩ | ⟨hl, hbody⟩
  · nomatch hu
  · rw [exec_eq_accept hrst, accept_run hs hl, bodyOf_recap hi hbits hbody, hdest, recap]
    split <;> rfl

end Sys2Proof.Proofs
end

section
/-! PROOF. A valid table (R200) passes the check (R202), and in a table that passes a symbol, and a target below the total, has its
one entry (R203, R204). -/

namespace Sys2Proof.Proofs

open Sys2Proof.Machine Sys2Proof.Safety

/-- Entries in order from the start `expect` on, all after the symbol `before`, with the closing sum `sum` (R200, R202). -/
inductive Chained : (expect : Nat) → (before : Option Sym) → List Entry → (sum : Nat) → Prop
  | nil {expect : Nat} {before : Option Sym} : Chained expect before [] expect
  | cons {expect sum : Nat} {before : Option Sym} {e : Entry} {es : List Entry} (cum : e.cum.toNat = expect)
      (count : 1 ≤ e.count.toNat) (after : ∀ p ∈ before, p.toNat < e.sym.toNat)
      (rest : Chained (expect + e.count.toNat) (some e.sym) es sum) : Chained expect before (e :: es) sum

variable {s : State} {expect sum target : Nat} {before : Option Sym} {e : Entry} {es : List Entry}

/-! ### The check -/

theorem checkEntries_of_chained (h : Chained expect before es sum) (i : Nat) : checkEntries i expect before es = .ok sum := by
  induction h generalizing i with
  | nil => rfl
  | @cons expect sum before e es cum count after _ ih =>
    have hafter : ¬ before.any (fun p => decide (e.sym.toNat ≤ p.toNat)) = true := by
      simpa [Option.any_eq_true] using after
    rw [checkEntries, if_neg (not_not.2 cum), if_neg (by omega), if_neg hafter]
    exact ih (i + 1)

theorem chained_of_checkEntries : ∀ {es : List Entry} {i expect : Nat} {before : Option Sym},
    checkEntries i expect before es = .ok sum → Chained expect before es sum
  | [], _, _, _, h => by
    obtain rfl := Except.ok.inj h
    exact .nil
  | e :: es, i, expect, before, h => by
    rw [checkEntries] at h
    split at h
    · cases h
    · split at h
      · cases h
      · split at h
        · cases h
        · rename_i hcum hcount hafter
          refine .cons (not_not.1 hcum) (by omega) ?_ (chained_of_checkEntries h)
          simpa [Option.any_eq_true] using hafter

/-- `TableCheck` passes where the entries are in order from 0 on and close at a total below the bound (R202). -/
theorem tablePasses_iff_chained : TablePasses s ↔ s.total.toNat < maxTotal ∧ Chained 0 none s.ftab s.total.toNat := by
  unfold TablePasses tableCheck
  constructor
  · intro h
    split at h
    · cases h
    · split at h
      · cases h
      · rename_i hmax _ sum hsum
        split at h
        · cases h
        · rename_i hclosed
          rw [not_not.1 hclosed] at hsum
          exact ⟨Nat.lt_of_not_le hmax, chained_of_checkEntries hsum⟩
  · rintro ⟨hmax, hchained⟩
    rw [if_neg (Nat.not_le.2 hmax), checkEntries_of_chained hchained]
    exact if_neg (not_not.2 rfl)

/-! ### Valid tables -/

/-- One entry follows another in a valid table: items 1 and 3 of rule R200. -/
def Follows (a b : Entry) : Prop := a.sym.toNat < b.sym.toNat ∧ b.cum.toNat = a.cum.toNat + a.count.toNat

theorem chained_of_follows : ∀ {es : List Entry} {a : Entry} {before : Option Sym}, (a :: es).IsChain Follows →
    (∀ e ∈ a :: es, 1 ≤ e.count.toNat) → (∀ p ∈ before, p.toNat < a.sym.toNat) →
    (∀ e, (a :: es).getLast? = some e → sum = e.cum.toNat + e.count.toNat) →
    Chained a.cum.toNat before (a :: es) sum
  | [], a, _, _, hcount, hafter, hclosed => by
    obtain rfl := hclosed a rfl
    exact .cons rfl (hcount a (by simp)) hafter .nil
  | b :: es, a, _, hchain, hcount, hafter, hclosed => by
    obtain ⟨⟨hsym, hcum⟩, hchain⟩ := List.isChain_cons_cons.1 hchain
    refine .cons rfl (hcount a (by simp)) hafter ?_
    rw [← hcum]
    refine chained_of_follows hchain (fun e he => hcount e (.tail _ he)) (by simpa using hsym) fun e he => hclosed e ?_
    rwa [List.getLast?_cons_cons]

theorem chained_of_validTable {ftab : List Entry} {total : Nat} (h : ValidTable ftab total) :
    Chained 0 none ftab total := by
  match ftab with
  | [] =>
    rw [h.empty rfl]
    exact .nil
  | a :: es =>
    have hfollows : (a :: es).IsChain Follows := List.isChain_iff_getElem.2 fun i hi =>
      ⟨h.ascending i _ _ (List.getElem?_eq_getElem (by omega)) (List.getElem?_eq_getElem hi),
        h.next i _ _ (List.getElem?_eq_getElem (by omega)) (List.getElem?_eq_getElem hi)⟩
    rw [← h.first a rfl]
    exact chained_of_follows hfollows h.positive (by simp) h.closed

/-- A valid table below the bound passes the check (R200, R202). -/
theorem tablePasses_of_validTable (hT : s.total.toNat < maxTotal) (h : ValidTable s.ftab s.total.toNat) : TablePasses s :=
  tablePasses_iff_chained.2 ⟨hT, chained_of_validTable h⟩

/-! ### The entry of a symbol and of a target -/

theorem Chained.after_all (h : Chained expect before es sum) :
    ∀ e ∈ es, expect ≤ e.cum.toNat ∧ ∀ p ∈ before, p.toNat < e.sym.toNat := by
  induction h with
  | nil => simp
  | @cons expect sum before a es cum count after _ ih =>
    rintro e (_ | ⟨_, he⟩)
    · exact ⟨cum.ge, after⟩
    · obtain ⟨hcum, hsym⟩ := ih e he
      have hae := hsym a.sym rfl
      exact ⟨by omega, fun p hp => (after p hp).trans hae⟩

theorem Chained.findSym (h : Chained expect before es sum) (he : e ∈ es) : findSym es e.sym = some e := by
  induction h with
  | nil => cases he
  | @cons expect sum before a es _ _ _ rest ih =>
    cases he with
    | head => exact List.find?_cons_of_pos (by simp)
    | tail _ he =>
      obtain ⟨-, hsym⟩ := rest.after_all e he
      have hlt := hsym a.sym rfl
      refine (List.find?_cons_of_neg ?_).trans (ih he)
      simpa using fun heq : a.sym = e.sym => Nat.lt_irrefl _ (heq ▸ hlt)

theorem Chained.findCum_of_inRange (h : Chained expect before es sum) (he : e ∈ es) (hr : inRange e target = true) :
    findCum es target = some e := by
  induction h with
  | nil => cases he
  | @cons expect sum before a es cum _ _ rest ih =>
    cases he with
    | head => exact List.find?_cons_of_pos hr
    | tail _ he =>
      obtain ⟨hcum, -⟩ := rest.after_all e he
      refine (List.find?_cons_of_neg ?_).trans (ih he)
      simp only [inRange, Bool.and_eq_true, decide_eq_true_eq] at hr ⊢
      omega

theorem Chained.exists_inRange (h : Chained expect before es sum) (hle : expect ≤ target) (hlt : target < sum) :
    ∃ e ∈ es, inRange e target = true := by
  induction h with
  | nil => omega
  | @cons expect sum before a es cum _ _ _ ih =>
    rcases Nat.lt_or_ge target (expect + a.count.toNat) with ha | ha
    · refine ⟨a, .head _, ?_⟩
      simp only [inRange, Bool.and_eq_true, decide_eq_true_eq]
      omega
    · obtain ⟨e, he, hr⟩ := ih ha hlt
      exact ⟨e, .tail _ he, hr⟩

/-- In a table that passes a symbol has one entry (R203). -/
theorem findSym_of_mem (h : TablePasses s) (he : e ∈ s.ftab) : findSym s.ftab e.sym = some e :=
  (tablePasses_iff_chained.1 h).2.findSym he

/-- In a table that passes a target lies in the range of one entry at most (R204). -/
theorem findCum_of_inRange (h : TablePasses s) (he : e ∈ s.ftab) (hr : inRange e target = true) :
    findCum s.ftab target = some e :=
  (tablePasses_iff_chained.1 h).2.findCum_of_inRange he hr

/-- In a table that passes a target below the total lies in the range of an entry (R204). -/
theorem exists_inRange (h : TablePasses s) (ht : target < s.total.toNat) : ∃ e ∈ s.ftab, inRange e target = true :=
  (tablePasses_iff_chained.1 h).2.exists_inRange (Nat.zero_le _) ht

end Sys2Proof.Proofs
end

section
/-! PROOF. Lists of bits as numbers: the bits written (R141) and the stream the decoder reads (R62, R79). -/

namespace Sys2Proof.Proofs

open Sys2Proof.Machine Sys2Proof.Safety

variable {s t : State} {b : Bit} {l l' : List Bit} {bits : List Byte}

/-! ### Values of lists of bits -/

theorem bitsValue_append (l l' : List Bit) : bitsValue (l ++ l') = bitsValue l * 2 ^ l'.length + bitsValue l' := by
  induction l' using List.reverseRecOn with
  | nil => simp [bitsValue]
  | append_singleton l' b ih =>
    have hconcat : ∀ m : List Bit, bitsValue (m ++ [b]) = 2 * bitsValue m + b.toNat := fun m => by simp [bitsValue]
    rw [← List.append_assoc, hconcat, hconcat, ih, List.length_append, List.length_singleton, pow_succ]
    ring

@[simp] theorem bitsValue_nil : bitsValue [] = 0 := rfl

@[simp] theorem bitsValue_singleton (b : Bit) : bitsValue [b] = b.toNat := by simp [bitsValue]

theorem bitsValue_cons (b : Bit) (l : List Bit) : bitsValue (b :: l) = b.toNat * 2 ^ l.length + bitsValue l := by
  rw [← List.singleton_append, bitsValue_append, bitsValue_singleton]

theorem bitsValue_replicate_zero (n : Nat) : bitsValue (List.replicate n 0) = 0 := by
  induction n with
  | zero => rfl
  | succ n ih =>
    rw [List.replicate_succ, bitsValue_cons, ih]
    exact Nat.zero_mul _

theorem bitsValue_replicate_one (n : Nat) : bitsValue (List.replicate n 1) + 1 = 2 ^ n := by
  induction n with
  | zero => rfl
  | succ n ih =>
    rw [List.replicate_succ, bitsValue_cons, List.length_replicate, Nat.add_assoc, ih, pow_succ]
    simp only [BitVec.ofNat_eq_ofNat, BitVec.toNat_ofNat]
    omega

theorem bitsValue_lt (l : List Bit) : bitsValue l < 2 ^ l.length := by
  induction l with
  | nil => decide
  | cons b l ih =>
    have hb := b.isLt
    have hmul : b.toNat * 2 ^ l.length ≤ 1 * 2 ^ l.length := Nat.mul_le_mul_right _ (by omega)
    rw [bitsValue_cons, List.length_cons, pow_succ]
    omega

theorem bitsValue_bitsOf (n v : Nat) : bitsValue (bitsOf n v) = v % 2 ^ n := by
  induction n generalizing v with
  | zero => simp [bitsOf, Nat.mod_one]
  | succ n ih =>
    have hbit : v = 2 * (v / 2) + (BitVec.ofNat 1 v).toNat := by
      rw [BitVec.toNat_ofNat]
      omega
    have hmod : v % 2 ^ (n + 1) = v % 2 + 2 * (v / 2 % 2 ^ n) := by rw [pow_succ', Nat.mod_mul]
    rw [hmod, hbit, bitsOf_shift, bitsValue_append, ih, ← hbit, bitsValue_singleton, List.length_singleton,
      BitVec.toNat_ofNat]
    omega

/-- What `Emit` writes, as a number (R132). -/
theorem bitsValue_emitted (b : Bit) (n : Nat) : bitsValue (b :: List.replicate n (~~~b)) + 1 = 2 ^ n + b.toNat := by
  rw [bitsValue_cons, List.length_replicate]
  rcases BitVec.eq_zero_or_eq_one b with rfl | rfl
  · have hones : bitsValue (List.replicate n (~~~0#1)) + 1 = 2 ^ n := bitsValue_replicate_one n
    simp only [BitVec.toNat_ofNat]
    omega
  · have hzeros : bitsValue (List.replicate n (~~~1#1)) = 0 := bitsValue_replicate_zero n
    simp only [BitVec.toNat_ofNat]
    omega

/-! ### The code line -/

/-- A bit written with its followers moves the code line by two units, or by none, as it is doubled (R164, R165). -/
theorem codeOffset_of_emitted (hwritten : writtenBits t = writtenBits s ++ b :: List.replicate s.pending.toNat (~~~b))
    (hp : t.pending = 0) : codeOffset t = 2 * codeOffset s + 2 * b.toNat := by
  have hpow := Nat.two_pow_pos s.pending.toNat
  have hvalue := bitsValue_emitted b s.pending.toNat
  have hzero : 2 ^ t.pending.toNat = 1 := by rw [hp]; rfl
  have hassoc := Nat.mul_assoc 2 (bitsValue (writtenBits s)) (2 ^ s.pending.toNat)
  rw [codeOffset, codeOffset, hwritten, hzero, bitsValue_append, List.length_cons, List.length_replicate, pow_succ,
    ← Nat.mul_assoc]
  omega

/-- A deferred bit moves the code line by one unit as it is doubled (R166). -/
theorem codeOffset_of_deferred (hwritten : writtenBits t = writtenBits s) (hp : t.pending.toNat = s.pending.toNat + 1) :
    codeOffset t = 2 * codeOffset s + 1 := by
  have hpow := Nat.two_pow_pos s.pending.toNat
  rw [codeOffset, codeOffset, hwritten, hp, pow_succ, ← Nat.mul_assoc]
  omega

/-! ### The stream -/

theorem streamValue_add (bits : List Byte) (n k j : Nat) :
    streamValue bits n (k + j) = streamValue bits n k * 2 ^ j + streamValue bits (n + k) j := by
  rw [streamValue, List.range_add, List.map_append, bitsValue_append, List.length_map, List.length_map,
    List.length_range, List.map_map]
  simp only [streamValue, Function.comp_def, Nat.add_assoc]

@[simp] theorem streamValue_zero (bits : List Byte) (n : Nat) : streamValue bits n 0 = 0 := rfl

theorem streamValue_one (bits : List Byte) (n : Nat) : streamValue bits n 1 = (streamBit bits n).toNat := by
  simp [streamValue]

theorem streamValue_lt (bits : List Byte) (n k : Nat) : streamValue bits n k < 2 ^ k := by
  simpa [streamValue] using bitsValue_lt ((List.range k).map fun j => streamBit bits (n + j))

/-- Eight stream bits from a byte boundary are the byte, 0 past the end (R62, R79). -/
theorem streamValue_byte (bits : List Byte) (i : Nat) : streamValue bits (8 * i) 8 = (bits[i]?.getD 0).toNat := by
  have hbyte : (List.range 8).map (fun j => streamBit bits (8 * i + j)) = bitsOf 8 (bits[i]?.getD 0).toNat := by
    refine List.map_congr_left fun j hj => ?_
    have hj := List.mem_range.1 hj
    have hdiv : (8 * i + j) / 8 = i := by omega
    have hmod : (8 * i + j) % 8 = j := by omega
    rw [streamBit, hdiv, hmod]
    cases bits[i]? with
    | none => simp
    | some v => rfl
  rw [streamValue, hbyte, bitsValue_bitsOf]
  exact Nat.mod_eq_of_lt (BitVec.isLt _)

/-- Where the stream is a list of bits followed by zeros, it reads as the list shifted up (R79). -/
theorem streamValue_of_padded {n : Nat} (h : byteBits bits = l ++ List.replicate n 0) (k : Nat) :
    streamValue bits 0 (l.length + k) = bitsValue l * 2 ^ k := by
  have hbit : ∀ j, streamBit bits j = (l ++ List.replicate n 0)[j]?.getD 0 := h ▸ streamBits bits
  have hread : (List.range l.length).map (fun j => streamBit bits (0 + j)) = l := by
    refine List.ext_getElem (by simp) fun j hj hj' => ?_
    simp [hbit, List.getElem?_append_left hj', List.getElem?_eq_getElem hj']
  have hzero : (List.range k).map (fun j => streamBit bits (0 + l.length + j)) = List.replicate k 0 := by
    refine List.ext_getElem (by simp) fun j hj hj' => ?_
    simp only [List.getElem_map, List.getElem_range, List.getElem_replicate, hbit]
    rw [List.getElem?_append_right (by omega), List.getElem?_replicate]
    split <;> rfl
  rw [streamValue_add, streamValue, hread, streamValue, hzero, bitsValue_replicate_zero, Nat.add_zero]

end Sys2Proof.Proofs
end

section
/-! PROOF. NarrowNests, RenormalizationsAgree: `Narrow` answers an interval inside the old one (R161), and an iteration of either
renormalization does the same to the bounds (R163 to R168, R170). -/

namespace Sys2Proof.Proofs

open Sys2Proof.Machine Sys2Proof.Safety

variable {s s' t t' u : State} {e : Entry}

/-! ### Narrowing -/

/-- `u` is `s` with the interval narrowed to `[cs, ce)` out of `T` (R161). -/
structure Narrowed (cs ce T : Nat) (s u : State) : Prop where
  frame : u = { s with low := u.low, high := u.high }
  low : u.low.toNat = narrowLow s.low.toNat s.high.toNat cs T
  high : u.high.toNat = narrowHigh s.low.toNat s.high.toNat ce T
  above : s.low.toNat ≤ u.low.toNat
  nonempty : u.low.toNat ≤ u.high.toNat
  below : u.high.toNat ≤ s.high.toNat
  /-- So the 1 that `narrowHigh` subtracts is there. -/
  part : 0 < (s.high.toNat - s.low.toNat + 1) * ce / T

theorem narrow_answers {cs ce T : Nat} (hc : cs < ce) (he : ce ≤ T) (hle : s.low.toNat ≤ s.high.toNat)
    (hT : T < s.high.toNat - s.low.toNat + 1) : ∃ u, narrow cs ce T s = .ok u ∧ Narrowed cs ce T s u := by
  have hbound := s.high.isLt
  have hpart := part_nonempty (R := s.high.toNat - s.low.toNat + 1) (by omega) hT.le hc
  have hwithin := part_within (R := s.high.toNat - s.low.toNat + 1) he
  have hpos := Nat.zero_lt_of_lt hpart
  have hanswer : ∃ u, narrow cs ce T s = .ok u :=
    ⟨_, bind_ok.2 ⟨_, bind_ok.2 ⟨_, minus_ok_iff.2 ⟨hle, rfl⟩, rfl⟩,
      bind_ok.2 ⟨_, divide_ok_iff.2 ⟨by omega, rfl⟩,
      bind_ok.2 ⟨_, divide_ok_iff.2 ⟨by omega, rfl⟩,
      bind_ok.2 ⟨_, minus_ok_iff.2 ⟨by omega, rfl⟩,
      bind_ok.2 ⟨_, fit_ok_iff.2 ⟨by omega, rfl⟩,
      bind_ok.2 ⟨_, fit_ok_iff.2 ⟨by omega, rfl⟩, rfl⟩⟩⟩⟩⟩⟩⟩
  obtain ⟨u, hu⟩ := hanswer
  obtain ⟨-, -, hframe, hhigh, hlow⟩ := narrow_ok hu
  exact ⟨u, hu, hframe, hlow, hhigh, hlow ▸ Nat.le_add_right _ _, by omega, by omega, hpos⟩

/-- Settles O31: the symbol's part of the range is not empty, since the range is wider than the total, and lies within it. -/
theorem narrowNests : Obligations.NarrowNests := by
  unfold Obligations.NarrowNests
  intro s cs ce T hc he hle hT
  obtain ⟨u, hu, h⟩ := narrow_answers hc he hle hT
  exact ⟨u, hu, h.frame, h.low, h.high, h.above, h.nonempty, h.below⟩

/-- In a session `Narrow` answers for every entry of the table (R172, R176). -/
theorem narrow_entry (htab : TablePasses s) (hset : Settled s.low.toNat s.high.toNat) (he : e ∈ s.ftab) :
    ∃ u, narrow e.cum.toNat (e.cum.toNat + e.count.toNat) s.total.toNat s = .ok u ∧
      Narrowed e.cum.toNat (e.cum.toNat + e.count.toNat) s.total.toNat s u := by
  obtain ⟨-, hentries⟩ := (tableCheck_sound s).answer htab
  obtain ⟨hcount, hend⟩ := hentries e he
  obtain ⟨hle, hwide⟩ := total_lt_range htab hset
  exact narrow_answers (by omega) hend hle hwide

/-! ### One iteration of renormalization -/

theorem lowerBounds_answers {d : Nat} (hd : d ≤ s.low.toNat) (hle : s.low.toNat ≤ s.high.toNat) :
    ∃ t, lowerBounds d s = .ok t :=
  ⟨_, bind_ok.2 ⟨_, minus_ok_iff.2 ⟨hd, rfl⟩, bind_ok.2 ⟨_, minus_ok_iff.2 ⟨hd.trans hle, rfl⟩, rfl⟩⟩⟩

theorem scale_answers (hle : s.low.toNat ≤ s.high.toNat) (hh : s.high.toNat < half) : ∃ t, scale s = .ok t := by
  rw [half_eq] at hh
  exact ⟨_, bind_ok.2 ⟨_, fit_ok_iff.2 ⟨by omega, rfl⟩, bind_ok.2 ⟨_, fit_ok_iff.2 ⟨by omega, rfl⟩, rfl⟩⟩⟩

/-- An iteration of `RenormEnc` (R163 to R166, R168). -/
def encIteration (s : State) : Except Stop State := encCase (classify s.low s.high) s >>= scale

/-- An iteration of `RenormDec` (R170). -/
def decIteration (s : State) : Except Stop State :=
  decCase (classify s.low s.high) s >>= fun u => scale u >>= shiftWindow

theorem renormEncLoop_of_stop (h : classify s.low s.high = .stop) (n : Nat) : renormEncLoop n s = .ok s := by
  cases n <;> exact if_pos h

theorem renormDecLoop_of_stop (h : classify s.low s.high = .stop) (n : Nat) : renormDecLoop n s = .ok s := by
  cases n <;> exact if_pos h

theorem renormEncLoop_succ (h : classify s.low s.high ≠ .stop) (n : Nat) :
    renormEncLoop (n + 1) s = encIteration s >>= renormEncLoop n := by
  rw [encIteration, bind_assoc]
  exact if_neg h

theorem renormDecLoop_succ (h : classify s.low s.high ≠ .stop) (n : Nat) :
    renormDecLoop (n + 1) s = decIteration s >>= renormDecLoop n := by
  rw [decIteration, bind_assoc]
  simp only [bind_assoc]
  exact if_neg h

/-- `t` has the bounds of `s`, lowered by `d`. -/
def LoweredBy (d : Nat) (s t : State) : Prop := t.low.toNat = s.low.toNat - d ∧ t.high.toNat = s.high.toNat - d

/-- `t` has the bounds of `s`, lowered by `d` and doubled (R164 to R168). -/
def DoubledFrom (d : Nat) (s t : State) : Prop :=
  t.low.toNat = 2 * (s.low.toNat - d) ∧ t.high.toNat = 2 * (s.high.toNat - d) + 1

theorem LoweredBy.congr {d : Nat} (h : LoweredBy d u t) (hlow : u.low = s.low) (hhigh : u.high = s.high) :
    LoweredBy d s t := by
  unfold LoweredBy at *
  rwa [← hlow, ← hhigh]

theorem lowerBounds_lowered {d : Nat} (h : lowerBounds d s = .ok t) : LoweredBy d s t := by
  obtain ⟨-, -, -, hlow, hhigh⟩ := lowerBounds_ok h
  exact ⟨hlow, hhigh⟩

theorem lowerWindow_lowered {d : Nat} (h : (lowerBounds d s >>= lowerWindow d) = .ok t) : LoweredBy d s t := by
  obtain ⟨u, hu, ht⟩ := bind_ok.1 h
  obtain ⟨-, hframe, -⟩ := lowerWindow_ok ht
  have hu : LoweredBy d s u := lowerBounds_lowered hu
  rw [hframe]
  exact hu

theorem encCase_lowered {c : RenormCase} (h : encCase c s = .ok t) : LoweredBy (caseOffset c) s t := by
  match c with
  | .e1 =>
    obtain ⟨hlow, hhigh⟩ := writer_bounds (emit_frame h)
    exact ⟨congrArg _ hlow, congrArg _ hhigh⟩
  | .e2 =>
    obtain ⟨u, hu, ht⟩ := bind_ok.1 h
    obtain ⟨hlow, hhigh⟩ := writer_bounds (emit_frame hu)
    exact (lowerBounds_lowered ht).congr hlow hhigh
  | .e3 =>
    obtain ⟨u, hu, ht⟩ := bind_ok.1 h
    obtain ⟨hlow, hhigh⟩ := writer_bounds (defer_frame hu)
    exact (lowerBounds_lowered ht).congr hlow hhigh
  | .stop =>
    obtain rfl := Except.ok.inj h
    exact ⟨rfl, rfl⟩

theorem decCase_lowered {c : RenormCase} (h : decCase c s = .ok t) : LoweredBy (caseOffset c) s t := by
  match c with
  | .e1 | .stop =>
    obtain rfl := Except.ok.inj h
    exact ⟨rfl, rfl⟩
  | .e2 => exact lowerWindow_lowered h
  | .e3 => exact lowerWindow_lowered h

theorem LoweredBy.scale {d : Nat} (h : LoweredBy d s u) (ht : scale u = .ok t) : DoubledFrom d s t := by
  obtain ⟨hlow, hhigh⟩ := h
  obtain ⟨-, htlow, hthigh⟩ := scale_ok ht
  exact ⟨by rw [htlow, hlow], by rw [hthigh, hhigh]⟩

theorem encIteration_doubled (h : encIteration s = .ok t) : DoubledFrom (caseOffset (classify s.low s.high)) s t := by
  obtain ⟨u, hu, ht⟩ := bind_ok.1 h
  exact (encCase_lowered hu).scale ht

theorem decIteration_doubled (h : decIteration s = .ok t) : DoubledFrom (caseOffset (classify s.low s.high)) s t := by
  obtain ⟨u, hu, h⟩ := bind_ok.1 h
  obtain ⟨v, hv, ht⟩ := bind_ok.1 h
  obtain ⟨-, hframe, -⟩ := shiftWindow_ok ht
  have hv : DoubledFrom (caseOffset (classify s.low s.high)) s v := (decCase_lowered hu).scale hv
  rw [hframe]
  exact hv

/-! ### Equal bounds -/

/-- `s` and `s'` have equal bounds. -/
abbrev SameBounds (s s' : State) : Prop := s.low = s'.low ∧ s.high = s'.high

theorem DoubledFrom.sameBounds {d : Nat} (hs : SameBounds s s') (h : DoubledFrom d s t) (h' : DoubledFrom d s' t') :
    SameBounds t t' := by
  obtain ⟨hlow, hhigh⟩ := hs
  obtain ⟨htlow, hthigh⟩ := h
  obtain ⟨htlow', hthigh'⟩ := h'
  exact ⟨BitVec.eq_of_toNat_eq (by rw [htlow, htlow', hlow]), BitVec.eq_of_toNat_eq (by rw [hthigh, hthigh', hhigh])⟩

theorem renormLoops_sameBounds : ∀ {n : Nat} {s s' t t' : State}, SameBounds s s' → renormEncLoop n s = .ok t →
    renormDecLoop n s' = .ok t' → SameBounds t t'
  | n, s, s', t, t', hs, h, h' => by
    have hclass : classify s'.low s'.high = classify s.low s.high := by rw [hs.1, hs.2]
    by_cases hstop : classify s.low s.high = .stop
    · rw [renormEncLoop_of_stop hstop] at h
      rw [renormDecLoop_of_stop (hclass.trans hstop)] at h'
      obtain rfl := Except.ok.inj h
      obtain rfl := Except.ok.inj h'
      exact hs
    · match n with
      | 0 =>
        have hbroken : renormEncLoop 0 s = .error (.broken .loopBound) := if_neg hstop
        cases hbroken.symm.trans h
      | n + 1 =>
        rw [renormEncLoop_succ hstop] at h
        rw [renormDecLoop_succ (by rwa [hclass])] at h'
        obtain ⟨u, hu, ht⟩ := bind_ok.1 h
        obtain ⟨u', hu', ht'⟩ := bind_ok.1 h'
        exact renormLoops_sameBounds ((encIteration_doubled hu).sameBounds hs (hclass ▸ decIteration_doubled hu')) ht ht'

/-- Settles O35, by induction on the iterations: each does the same to equal bounds. -/
theorem renormalizationsAgree : Obligations.RenormalizationsAgree := by
  unfold Obligations.RenormalizationsAgree
  intro s s' t t' hlow hhigh h h'
  exact renormLoops_sameBounds ⟨hlow, hhigh⟩ h h'

end Sys2Proof.Proofs
end

section
/-! PROOF. EncBeginOpens, EncSymCodes: what the encoder takes from the interval moves the code line (R171, R172). -/

namespace Sys2Proof.Proofs

open Sys2Proof.Machine Sys2Proof.Safety

variable {s t u v : State} {e : Entry} {d k n : Nat}

/-! ### The session opened -/

theorem encBeginBody_of_passes (h : TablePasses s) :
    encBeginBody s = .ok { intervalInit (writerInit s) with mode := .enc } :=
  bind_ok.2 ⟨(), h, rfl⟩

/-- Settles O28: a valid table passes the check, and the body is two updates and the mode. -/
theorem encBeginOpens : Obligations.EncBeginOpens := by
  unfold Obligations.EncBeginOpens
  intro s hat hT hvalid
  exact accept_of_ok hat rfl (encBeginBody_of_passes (tablePasses_of_validTable hT hvalid))

/-! ### Room for the bits to come -/

/-- `BITS` and `PENDING` have room for `n` more bits, written or pending. -/
def Room (n : Nat) (s : State) : Prop :=
  (writtenCount s + s.pending.toNat + n) / 8 ≤ s.capBits ∧ s.pending.toNat + n < 2 ^ 32

theorem Room.bits (h : Room n s) : s.bits.length ≤ s.capBits := bytes_fit (by omega) h.1

theorem Room.mono {m : Nat} (h : Room n s) (hm : m ≤ n) : Room m s := by
  unfold Room at *
  omega

/-- Where `k` bits came, there is room for `k` fewer. -/
theorem Room.after (h : Room (k + n) s) (hf : EncFrame s t) (hwritten : writtenBits s <+: writtenBits t)
    (hcount : writtenCount t + t.pending.toNat = writtenCount s + s.pending.toNat + k) : Room n t := by
  obtain ⟨hfits, hp⟩ := h
  have hlen := hwritten.length_le
  rw [writtenBits_length, writtenBits_length] at hlen
  rw [Room, hf.capBits]
  omega

/-! ### One bit -/

/-- One bit more is written or pending in `t` than in `s`, and `d` is moved from the interval to the code line as it is doubled. -/
structure Pushed (d : Nat) (s t : State) : Prop where
  written : writtenBits s <+: writtenBits t
  count : writtenCount t + t.pending.toNat = writtenCount s + s.pending.toNat + 1
  offset : half * codeOffset t = 2 * (half * codeOffset s + d)

theorem Pushed.of_bounds (h : Pushed d s u) (hv : v = { u with low := v.low, high := v.high }) : Pushed d s v := by
  rw [hv]
  exact ⟨h.written, h.count, h.offset⟩

theorem emit_pushed (b : Bit) (hw : WriterOk s) (hr : Room 1 s) : ∃ t, emit b s = .ok t ∧ Pushed (half * b.toNat) s t := by
  obtain ⟨hfits, -⟩ := id hr
  have hlen : (b :: List.replicate s.pending.toNat (~~~b)).length = s.pending.toNat + 1 := by simp
  obtain ⟨t, ht, happ⟩ := (emit_appends b hw hr.bits).room (by rwa [hlen, ← Nat.add_assoc])
  have hp : t.pending = 0 := by
    obtain ⟨u, v, -, -, rfl⟩ := emit_ok ht
    rfl
  have hp0 : t.pending.toNat = 0 := by rw [hp]; rfl
  refine ⟨t, ht, happ.written ▸ List.prefix_append _ _, ?_, ?_⟩
  · rw [happ.count, hlen, hp0, Nat.add_assoc]
    rfl
  · rw [codeOffset_of_emitted happ.written hp]
    ring

theorem defer_pushed (hr : Room 1 s) : ∃ t, defer s = .ok t ∧ Pushed firstQtr s t := by
  obtain ⟨-, hp⟩ := hr
  have hcount : (s.pending + 1).toNat = s.pending.toNat + 1 := cursor_succ (by omega)
  refine ⟨_, defer_of_lt (by omega), List.prefix_rfl, ?_, ?_⟩
  · exact (congrArg (writtenCount s + ·) hcount).trans (Nat.add_assoc _ _ _).symm
  · rw [codeOffset_of_deferred (s := s) (t := { s with pending := s.pending + 1 }) rfl hcount, half]
    ring

/-- The subtraction after the writer's part of an iteration. -/
theorem lowerBounds_pushed (hf : WriterFrame s u) (hd : d ≤ s.low.toNat) (hle : s.low.toNat ≤ s.high.toNat)
    (hu : Pushed d s u) : ∃ t, lowerBounds d u = .ok t ∧ Pushed d s t := by
  obtain ⟨hlow, hhigh⟩ := writer_bounds hf
  obtain ⟨t, ht⟩ := lowerBounds_answers (s := u) (d := d) (by rwa [hlow]) (by rwa [hlow, hhigh])
  exact ⟨t, ht, hu.of_bounds (lowerBounds_ok ht).2.2.1⟩

/-- In each case what is subtracted from the bounds is what the writer's part moves the code line by (R164 to R166). -/
theorem encCase_pushed {c : RenormCase} (hc : c ≠ .stop) (hw : WriterOk s) (hr : Room 1 s) (hle : s.low.toNat ≤ s.high.toNat)
    (hlow : caseOffset c ≤ s.low.toNat) : ∃ t, encCase c s = .ok t ∧ Pushed (caseOffset c) s t := by
  match c with
  | .e1 => exact emit_pushed 0 hw hr
  | .e2 =>
    obtain ⟨u, hu, hpush⟩ := emit_pushed 1 hw hr
    obtain ⟨t, ht, hpush⟩ := lowerBounds_pushed (emit_frame hu) hlow hle hpush
    exact ⟨t, bind_ok.2 ⟨u, hu, ht⟩, hpush⟩
  | .e3 =>
    obtain ⟨u, hu, hpush⟩ := defer_pushed hr
    obtain ⟨t, ht, hpush⟩ := lowerBounds_pushed (defer_frame hu) hlow hle hpush
    exact ⟨t, bind_ok.2 ⟨u, hu, ht⟩, hpush⟩
  | .stop => exact absurd rfl hc

/-! ### Renormalization -/

/-- The interval of `s`, placed on the code line, scaled up by `2 ^ k` gives that of `t`; `k` bits more are written or pending. -/
structure EncScaled (k : Nat) (s t : State) : Prop where
  written : writtenBits s <+: writtenBits t
  count : writtenCount t + t.pending.toNat = writtenCount s + s.pending.toNat + k
  low : t.low.toNat + half * codeOffset t = 2 ^ k * (s.low.toNat + half * codeOffset s)
  high : t.high.toNat + 1 + half * codeOffset t = 2 ^ k * (s.high.toNat + 1 + half * codeOffset s)

theorem EncScaled.refl (s : State) : EncScaled 0 s s := ⟨List.prefix_rfl, rfl, (Nat.one_mul _).symm, (Nat.one_mul _).symm⟩

theorem EncScaled.trans {j : Nat} (h : EncScaled j s t) (h' : EncScaled k t u) : EncScaled (j + k) s u where
  written := h.written.trans h'.written
  count := by rw [h'.count, h.count, Nat.add_assoc]
  low := by rw [h'.low, h.low, pow_add]; ring
  high := by rw [h'.high, h.high, pow_add]; ring

theorem DoubledFrom.encScaled (h : DoubledFrom d s t) (hp : Pushed d s t) (hd : d ≤ s.low.toNat)
    (hle : s.low.toNat ≤ s.high.toNat) : EncScaled 1 s t := by
  obtain ⟨hlow, hhigh⟩ := h
  have hoffset := hp.offset
  exact ⟨hp.written, hp.count, by omega, by omega⟩

theorem encIteration_frame (h : encIteration s = .ok t) : EncFrame s t := by
  obtain ⟨u, hu, ht⟩ := bind_ok.1 h
  exact (encCase_frame hu).trans (.of_bounds (scale_ok ht).1)

theorem encIteration_scaled (hc : classify s.low s.high ≠ .stop) (hw : WriterOk s) (hr : Room 1 s)
    (hle : s.low.toNat ≤ s.high.toNat) : ∃ t, encIteration s = .ok t ∧ WriterOk t ∧ EncScaled 1 s t := by
  obtain ⟨hlow, hhigh⟩ := caseOffset_le_low hc
  obtain ⟨u, hu, hpush⟩ := encCase_pushed hc hw hr hle hlow
  obtain ⟨hwu, hul, huh⟩ := (encCase_sound hw hlow hle).answer hu
  obtain ⟨t, ht⟩ := scale_answers (s := u) (by omega) (by omega)
  have hframe := (scale_ok ht).1
  have hiter : encIteration s = .ok t := bind_ok.2 ⟨u, hu, ht⟩
  refine ⟨t, hiter, ?_, (encIteration_doubled hiter).encScaled (hpush.of_bounds hframe) hlow hle⟩
  rw [hframe]
  exact hwu

/-- The loop scales the interval up until renormalization stops (R163, R167, R180). -/
theorem renormEncLoop_scaled : ∀ (n : Nat) (s : State), WriterOk s → Room n s → Spans n s.low.toNat s.high.toNat →
    ∃ t k, renormEncLoop n s = .ok t ∧ k ≤ n ∧ EncScaled k s t
  | n, s, hw, hr, hs => by
    by_cases hc : classify s.low s.high = .stop
    · exact ⟨s, 0, renormEncLoop_of_stop hc n, Nat.zero_le _, .refl s⟩
    · match n with
      | 0 => exact absurd (classify_of_spans_zero hs) hc
      | n + 1 =>
        obtain ⟨u, hu, hwu, hscaled⟩ := encIteration_scaled hc hw (hr.mono (by omega)) hs.1
        have hspans : Spans n u.low.toNat u.high.toNat := by
          obtain ⟨hlow, hhigh⟩ := encIteration_doubled hu
          rw [hlow, hhigh]
          exact spans_double hs (caseOffset_le_low hc).1
        have hroom : Room n u :=
          (Nat.add_comm n 1 ▸ hr).after (encIteration_frame hu) hscaled.written hscaled.count
        obtain ⟨t, k, ht, hk, hscaled'⟩ := renormEncLoop_scaled n u hwu hroom hspans
        rw [renormEncLoop_succ hc]
        exact ⟨t, 1 + k, bind_ok.2 ⟨u, hu, ht⟩, by omega, hscaled.trans hscaled'⟩

/-! ### One symbol -/

/-- `t` is `s` with the symbol of the entry `e` coded in `k` bits: the part of the interval that belongs to `e`, placed on the
code line, is scaled up by `2 ^ k` (R161, R172). -/
structure SymCoded (e : Entry) (k : Nat) (s t : State) : Prop where
  frame : EncFrame s t
  ready : EncReady t
  written : writtenBits s <+: writtenBits t
  count : writtenCount t + t.pending.toNat = writtenCount s + s.pending.toNat + k
  low : t.low.toNat + half * codeOffset t =
    2 ^ k * (narrowLow s.low.toNat s.high.toNat e.cum.toNat s.total.toNat + half * codeOffset s)
  high : t.high.toNat + 1 + half * codeOffset t =
    2 ^ k * (narrowHigh s.low.toNat s.high.toNat (e.cum.toNat + e.count.toNat) s.total.toNat + 1 + half * codeOffset s)

theorem encodeSymbol_coded (h : EncReady s) (he : e ∈ s.ftab) (hr : Room 24 s) :
    ∃ t k, encodeSymbol e.sym s = .ok t ∧ k ≤ 24 ∧ SymCoded e k s t := by
  obtain ⟨hw, htab, hset⟩ := id h
  obtain ⟨u, hu, hn⟩ := narrow_entry htab hset he
  have hframe := hn.frame
  have hwu : WriterOk u := by rw [hframe]; exact hw
  have hru : Room 24 u := by rw [hframe]; exact hr
  obtain ⟨t, k, ht, hk, hscaled⟩ := renormEncLoop_scaled 24 u hwu hru (spans_24 hn.nonempty)
  have hcode : encodeSymbol e.sym s = .ok t := by
    rw [encodeSymbol_of_some (findSym_of_mem htab he)]
    exact bind_ok.2 ⟨u, hu, ht⟩
  have hlow := hscaled.low
  have hhigh := hscaled.high
  have hwritten := hscaled.written
  have hcount := hscaled.count
  have hoffset : codeOffset u = codeOffset s := by rw [hframe]; rfl
  rw [hn.low, hoffset] at hlow
  rw [hn.high, hoffset] at hhigh
  rw [hframe] at hwritten hcount
  exact ⟨t, k, hcode, hk, (encodeSymbol_ok hcode).1, (encodeSymbol_sound h).answer hcode, hwritten, hcount, hlow, hhigh⟩

theorem SymCoded.room (h : SymCoded e k s t) (hr : Room (k + n) s) : Room n t :=
  hr.after h.frame h.written h.count

/-- Settles O32: the interval narrowed to the symbol's entry is scaled up; a symbol without an entry is not coded. -/
theorem encSymCodes : Obligations.EncSymCodes := by
  unfold Obligations.EncSymCodes
  refine ⟨?_, fun s x hat hx => ?_⟩
  · rintro s _ e hinv hat he rfl hfits hp
    obtain ⟨t, k, ht, hk, h⟩ := encodeSymbol_coded (encReady_of_inv hinv hat.2) he ⟨hfits, hp⟩
    obtain ⟨hw, -, hset⟩ := h.ready
    exact ⟨t, k, accept_of_ok hat rfl ht, hk, h.frame.1, h.written, hw, h.count, hset, h.low, h.high⟩
  · have hnone : findSym s.ftab x = none := List.find?_eq_none.2 fun e he => by simpa using hx e he
    exact accept_of_raise hat rfl (encodeSymbol_of_none hnone)

end Sys2Proof.Proofs
end

section
/-! PROOF. DecBeginOpens, DecSymDecodes, DecEndCloses: the decoder scales its window with its interval, and the target finds the
symbol in whose part of the interval the window lies (R169, R170, R175 to R177). -/

namespace Sys2Proof.Proofs

open Sys2Proof.Machine Sys2Proof.Safety

variable {s t u v : State} {e : Entry} {k n D : Nat}

/-! ### The window -/

theorem shiftWindow_answers (hp : s.rpos.toNat < 2 ^ 32 - 1) (hw : s.window.toNat < half) : ∃ t, shiftWindow s = .ok t := by
  have hbit := (streamBit s.bits s.rpos.toNat).isLt
  have hfit : 2 * s.window.toNat + (streamBit s.bits s.rpos.toNat).toNat < 2 ^ 24 := by
    rw [half_eq] at hw
    omega
  exact ⟨_, bind_ok.2 ⟨_, if_neg (Nat.ne_of_lt hp), bind_ok.2 ⟨_, fit_ok_iff.2 ⟨hfit, rfl⟩, rfl⟩⟩⟩

/-- The loop of `ReaderInit` shifts the next `n` stream bits into the window (R135). -/
theorem shiftWindows_reads : ∀ (n : Nat) (s : State), n ≤ 24 → s.window.toNat < 2 ^ (24 - n) → s.rpos.toNat + n < 2 ^ 32 →
    ∃ t, shiftWindows n s = .ok t ∧
      t.window.toNat = s.window.toNat * 2 ^ n + streamValue s.bits s.rpos.toNat n
  | 0, s, _, _, _ => ⟨s, rfl, by simp⟩
  | n + 1, s, hn, hw, hp => by
    have hhalf : s.window.toNat < half := by
      rw [half_eq]
      exact hw.trans_le (Nat.pow_le_pow_right (by decide) (by omega))
    obtain ⟨u, hu⟩ := shiftWindow_answers (by omega) hhalf
    obtain ⟨-, hframe, hwindow⟩ := shiftWindow_ok hu
    have hrpos := shiftWindow_rpos hu
    have hbits : u.bits = s.bits := by rw [hframe]
    have hroom : u.window.toNat < 2 ^ (24 - n) := by
      have hbit := (streamBit s.bits s.rpos.toNat).isLt
      have hpow : 2 ^ (24 - n) = 2 ^ (24 - (n + 1)) * 2 := by rw [← pow_succ]; congr 1; omega
      rw [hwindow, hpow]
      omega
    obtain ⟨t, ht, htw⟩ := shiftWindows_reads n u (by omega) hroom (by omega)
    refine ⟨t, bind_ok.2 ⟨u, hu, ht⟩, ?_⟩
    rw [htw, hwindow, hbits, hrpos, Nat.add_comm n 1, streamValue_add, streamValue_one, pow_add]
    ring

/-- `ReaderInit` primes the window with the first 24 stream bits (R135). -/
theorem readerInit_reads (s : State) : ∃ t, readerInit s = .ok t ∧ t.window.toNat = streamValue s.bits 0 24 ∧
    t.rpos = 24 ∧ t = { s with rpos := t.rpos, window := t.window } := by
  obtain ⟨t, ht, hw⟩ := shiftWindows_reads 24 { s with rpos := 0, window := 0 } (Nat.le_refl _) (by simp) (by simp)
  have hrpos : t.rpos.toNat = 24 := shiftWindows_rpos ht
  exact ⟨t, ht, hw.trans (by simp), BitVec.eq_of_toNat_eq hrpos, readerInit_frame ht⟩

/-! ### The session opened and closed -/

theorem decBeginBody_of_passes (h : TablePasses s) : ∃ t, decBeginBody s = .ok t ∧
    t = { s with low := 0, high := 0xFFFFFF, window := t.window, rpos := 24, sym := [], mode := .dec } ∧
    t.window.toNat = streamValue s.bits 0 24 := by
  obtain ⟨u, hu, hw, hrpos, hframe⟩ := readerInit_reads { s with sym := [] }
  rw [hrpos] at hframe
  refine ⟨{ intervalInit u with mode := .dec }, bind_ok.2 ⟨(), h, bind_ok.2 ⟨u, hu, rfl⟩⟩, ?_, hw⟩
  rw [hframe]
  rfl

/-- The first three bytes of the stream (R62, R135). -/
theorem streamValue_three_bytes (bits : List Byte) : streamValue bits 0 24 =
    (bits[0]?.getD 0).toNat * 2 ^ 16 + (bits[1]?.getD 0).toNat * 2 ^ 8 + (bits[2]?.getD 0).toNat := by
  have h0 := streamValue_byte bits 0
  have h1 := streamValue_byte bits 1
  have h2 := streamValue_byte bits 2
  rw [streamValue_add bits 0 16 8, streamValue_add bits 0 8 8, h0, h1, h2]
  ring

/-- Settles O29: the valid table passes the check, and the 24 bits of the primed window are three bytes. -/
theorem decBeginOpens : Obligations.DecBeginOpens := by
  unfold Obligations.DecBeginOpens
  intro s hat hT hvalid
  obtain ⟨t, ht, hframe, hw⟩ := decBeginBody_of_passes (tablePasses_of_validTable hT hvalid)
  exact ⟨t, accept_of_ok hat rfl ht, hframe, hw.trans (streamValue_three_bytes s.bits)⟩

/-- Settles O34: the body is `TransientClear` and the mode. -/
theorem decEndCloses : Obligations.DecEndCloses := by
  unfold Obligations.DecEndCloses
  intro s hat
  exact accept_of_ok (body := decEndBody) hat rfl rfl

/-! ### Renormalization -/

/-- Interval and window of `s`, scaled up by `2 ^ k`, the window with the next `k` stream bits, less `D`, are those of `t`. -/
structure DecScaled (k D : Nat) (s t : State) : Prop where
  frame : DecFrame s t
  rpos : t.rpos.toNat = s.rpos.toNat + k
  low : t.low.toNat + D = 2 ^ k * s.low.toNat
  high : t.high.toNat + 1 + D = 2 ^ k * (s.high.toNat + 1)
  window : t.window.toNat + D = 2 ^ k * s.window.toNat + streamValue s.bits s.rpos.toNat k

theorem DecScaled.refl (s : State) : DecScaled 0 0 s s := ⟨rfl, rfl, by simp, by simp, by simp⟩

theorem DecScaled.trans {j D' : Nat} (h : DecScaled j D s t) (h' : DecScaled k D' t u) :
    DecScaled (j + k) (2 ^ k * D + D') s u where
  frame := h.frame.trans h'.frame
  rpos := by rw [h'.rpos, h.rpos, Nat.add_assoc]
  low := by linear_combination h'.low + 2 ^ k * h.low
  high := by linear_combination h'.high + 2 ^ k * h.high
  window := by
    have hbits : t.bits = s.bits := by rw [h.frame]
    have hw := h'.window
    rw [hbits, h.rpos] at hw
    rw [streamValue_add]
    linear_combination hw + 2 ^ k * h.window

/-- A window inside the interval stays inside (R179 (e)). -/
theorem DecScaled.windowIn (h : DecScaled k D s t) (hs : WindowIn s) : WindowIn t := by
  obtain ⟨hl, hh⟩ := hs
  have hbits := streamValue_lt s.bits s.rpos.toNat k
  have hlow := Nat.mul_le_mul_left (2 ^ k) hl
  have hhigh := Nat.mul_le_mul_left (2 ^ k) (Nat.succ_le_succ hh)
  have h1 := h.low
  have h2 := h.high
  have h3 := h.window
  rw [Nat.mul_succ, Nat.succ_eq_add_one] at hhigh
  exact ⟨by omega, by omega⟩

theorem lowerBounds_window_answers {d : Nat} (hd : d ≤ s.low.toNat) (hs : WindowIn s) :
    ∃ t, (lowerBounds d s >>= lowerWindow d) = .ok t := by
  obtain ⟨hl, hh⟩ := hs
  obtain ⟨u, hu⟩ := lowerBounds_answers hd (hl.trans hh)
  obtain ⟨-, -, hframe, -⟩ := lowerBounds_ok hu
  have hw : d ≤ u.window.toNat := by
    rw [hframe]
    exact hd.trans hl
  exact ⟨_, bind_ok.2 ⟨u, hu, bind_ok.2 ⟨_, minus_ok_iff.2 ⟨hw, rfl⟩, rfl⟩⟩⟩

theorem decCase_answers {c : RenormCase} (hc : caseOffset c ≤ s.low.toNat) (hs : WindowIn s) : ∃ t, decCase c s = .ok t := by
  match c with
  | .e1 | .stop => exact ⟨s, rfl⟩
  | .e2 => exact lowerBounds_window_answers hc hs
  | .e3 => exact lowerBounds_window_answers hc hs

theorem decIteration_scaled (hc : classify s.low s.high ≠ .stop) (hs : WindowIn s) (hp : s.rpos.toNat + 1 < 2 ^ 32) :
    ∃ t, decIteration s = .ok t ∧ DecScaled 1 (2 * caseOffset (classify s.low s.high)) s t := by
  obtain ⟨hlow, hhigh⟩ := caseOffset_le_low hc
  obtain ⟨hwl, hwh⟩ := id hs
  obtain ⟨u, hu⟩ := decCase_answers hlow hs
  obtain ⟨hul, huh, huw⟩ := (decCase_sound hlow hs).answer hu
  have huframe := decCase_frame hu
  obtain ⟨v, hv⟩ := scale_answers (s := u) (by omega) (by omega)
  have hvframe := (scale_ok hv).1
  have hvw : v.window = u.window := by rw [hvframe]
  have hvr : v.rpos = s.rpos := by rw [hvframe, decCase_rpos hu]
  have hvb : v.bits = s.bits := by rw [hvframe, huframe]
  obtain ⟨t, ht⟩ := shiftWindow_answers (s := v) (by rw [hvr]; omega) (by rw [hvw]; omega)
  have hiter : decIteration s = .ok t := bind_ok.2 ⟨u, hu, bind_ok.2 ⟨v, hv, ht⟩⟩
  obtain ⟨htl, hth⟩ := decIteration_doubled hiter
  obtain ⟨-, htframe, htw⟩ := shiftWindow_ok ht
  rw [hvw, huw, hvb, hvr] at htw
  refine ⟨t, hiter, ?_, by rw [shiftWindow_rpos ht, hvr], by omega, by omega, ?_⟩
  · have huv : DecFrame u v := by rw [DecFrame, hvframe]
    have hvt : DecFrame v t := by rw [DecFrame, htframe]
    exact (huframe.trans huv).trans hvt
  · rw [streamValue_one]
    omega

/-- The loop scales interval and window up until renormalization stops (R170, R180). -/
theorem renormDecLoop_scaled : ∀ (n : Nat) (s : State), WindowIn s → s.rpos.toNat + n < 2 ^ 32 →
    Spans n s.low.toNat s.high.toNat → ∃ t k D, renormDecLoop n s = .ok t ∧ k ≤ n ∧ DecScaled k D s t
  | n, s, hw, hp, hs => by
    by_cases hc : classify s.low s.high = .stop
    · exact ⟨s, 0, 0, renormDecLoop_of_stop hc n, Nat.zero_le _, .refl s⟩
    · match n with
      | 0 => exact absurd (classify_of_spans_zero hs) hc
      | n + 1 =>
        obtain ⟨u, hu, hscaled⟩ := decIteration_scaled hc hw (by omega)
        have hspans : Spans n u.low.toNat u.high.toNat := by
          obtain ⟨hlow, hhigh⟩ := decIteration_doubled hu
          rw [hlow, hhigh]
          exact spans_double hs (caseOffset_le_low hc).1
        obtain ⟨t, k, D, ht, hk, hscaled'⟩ :=
          renormDecLoop_scaled n u (hscaled.windowIn hw) (by rw [hscaled.rpos]; omega) hspans
        rw [renormDecLoop_succ hc]
        exact ⟨t, 1 + k, _, bind_ok.2 ⟨u, hu, ht⟩, by omega, hscaled.trans hscaled'⟩

/-! ### One symbol -/

/-- The target that the window of `s` gives (R169). -/
def targetOf (s : State) : Nat :=
  ((s.window.toNat - s.low.toNat + 1) * s.total.toNat - 1) / (s.high.toNat - s.low.toNat + 1)

/-- The table has an entry for the target (R169, R176, R204). -/
theorem decodeTarget_answers (h : DecReady s) (h0 : s.total.toNat ≠ 0) :
    decodeTarget s.total.toNat s = .ok (targetOf s) ∧ targetOf s < s.total.toNat := by
  obtain ⟨-, -, hl, hh⟩ := h
  have hpos : 1 ≤ (s.window.toNat - s.low.toNat + 1) * s.total.toNat := Nat.mul_pos (Nat.succ_pos _) (Nat.pos_of_ne_zero h0)
  have hmul : (s.window.toNat - s.low.toNat + 1) * s.total.toNat ≤ (s.high.toNat - s.low.toNat + 1) * s.total.toNat :=
    Nat.mul_le_mul_right _ (by omega)
  refine ⟨bind_ok.2 ⟨_, bind_ok.2 ⟨_, minus_ok_iff.2 ⟨hl.trans hh, rfl⟩, rfl⟩, bind_ok.2 ⟨_, minus_ok_iff.2 ⟨hl, rfl⟩,
    bind_ok.2 ⟨_, minus_ok_iff.2 ⟨hpos, rfl⟩, divide_ok_iff.2 ⟨Nat.succ_ne_zero _, rfl⟩⟩⟩⟩, ?_⟩
  refine Nat.div_lt_of_lt_mul ?_
  omega

/-- What `DecodeSymbol` does once the target has found its entry (R176). -/
theorem decodeSymbol_of_found (ht : decodeTarget s.total.toNat s = .ok n) (he : findCum s.ftab n = some e) :
    decodeSymbol s = if s.sym.length = s.capSym then .error (.raise .capacityFault resSym)
      else narrow e.cum.toNat (e.cum.toNat + e.count.toNat) s.total.toNat { s with sym := s.sym ++ [e.sym] } >>= renormDec := by
  rw [decodeSymbol, ht]
  simp only [bind, Except.bind, he]

/-- `t` is `s` with the symbol of the entry `e`, found by the target, decoded from `k` bits (R161, R170, R176). -/
structure SymDecoded (e : Entry) (k D : Nat) (s t : State) : Prop where
  mem : e ∈ s.ftab
  found : inRange e (targetOf s) = true
  frame : t = { s with low := t.low, high := t.high, window := t.window, rpos := t.rpos, sym := s.sym ++ [e.sym] }
  ready : DecReady t
  rpos : t.rpos.toNat = s.rpos.toNat + k
  low : t.low.toNat + D = 2 ^ k * narrowLow s.low.toNat s.high.toNat e.cum.toNat s.total.toNat
  high : t.high.toNat + 1 + D =
    2 ^ k * (narrowHigh s.low.toNat s.high.toNat (e.cum.toNat + e.count.toNat) s.total.toNat + 1)
  window : t.window.toNat + D = 2 ^ k * s.window.toNat + streamValue s.bits s.rpos.toNat k

theorem decodeSymbol_decoded (h : DecReady s) (h0 : s.total.toNat ≠ 0) (hcap : s.sym.length ≠ s.capSym)
    (hp : s.rpos.toNat + 24 < 2 ^ 32) : ∃ t k D e, decodeSymbol s = .ok t ∧ k ≤ 24 ∧ SymDecoded e k D s t := by
  obtain ⟨htab, hset, hwin⟩ := id h
  obtain ⟨htarget, hlt⟩ := decodeTarget_answers h h0
  obtain ⟨e, he, hr⟩ := exists_inRange htab hlt
  have hbody := decodeSymbol_of_found htarget (findCum_of_inRange htab he hr)
  rw [if_neg hcap] at hbody
  obtain ⟨u, hu, hn⟩ := narrow_entry (s := { s with sym := s.sym ++ [e.sym] }) htab hset he
  have hframe := hn.frame
  have hwu : WindowIn u := narrow_windowIn (s := { s with sym := s.sym ++ [e.sym] }) hwin htarget hr hu
  obtain ⟨t, k, D, ht, hk, hscaled⟩ := renormDecLoop_scaled 24 u hwu (by rw [hframe]; exact hp) (spans_24 hn.nonempty)
  have hdecode : decodeSymbol s = .ok t := hbody.trans (bind_ok.2 ⟨u, hu, ht⟩)
  obtain ⟨hready, -⟩ := (decodeSymbol_sound h h0).answer hdecode
  have hlow := hscaled.low
  have hhigh := hscaled.high
  have hwindow := hscaled.window
  have hrpos := hscaled.rpos
  rw [hn.low] at hlow
  rw [hn.high] at hhigh
  rw [hframe] at hwindow hrpos
  refine ⟨t, k, D, e, hdecode, hk, he, hr, ?_, hready, hrpos, hlow, hhigh, hwindow⟩
  rw [hscaled.frame, hframe]

/-- Where `SYM` is full the symbol found is not appended (R176, R316). -/
theorem decodeSymbol_full (h : DecReady s) (h0 : s.total.toNat ≠ 0) (hcap : s.sym.length = s.capSym) :
    decodeSymbol s = .error (.raise .capacityFault resSym) := by
  obtain ⟨htarget, hlt⟩ := decodeTarget_answers h h0
  obtain ⟨e, he, hr⟩ := exists_inRange h.1 hlt
  exact (decodeSymbol_of_found htarget (findCum_of_inRange h.1 he hr)).trans (if_pos hcap)

theorem decSymBody_of_lt (h : s.sym.length < s.total.toNat) : decSymBody s = decodeSymbol s := if_neg (Nat.not_le.2 h)

/-- Settles O33: the target finds an entry, the interval is narrowed to it, and interval and window are scaled up alike. -/
theorem decSymDecodes : Obligations.DecSymDecodes := by
  unfold Obligations.DecSymDecodes
  intro s hinv hat hlt
  have hready := decReady_of_inv hinv hat.2
  have h0 : s.total.toNat ≠ 0 := by omega
  have hbody := decSymBody_of_lt hlt
  refine ⟨fun hcap hp => ?_, fun hcap => accept_of_raise hat rfl (hbody.trans (decodeSymbol_full hready h0 hcap))⟩
  obtain ⟨t, k, D, e, ht, hk, h⟩ := decodeSymbol_decoded hready h0 hcap.ne hp
  obtain ⟨-, hset, hwl, hwh⟩ := h.ready
  exact ⟨t, k, D, e, accept_of_ok hat rfl (hbody.trans ht), hk, h.mem, h.found, h.frame, h.rpos, hset, h.low, h.high, h.window,
    hwl, hwh⟩

end Sys2Proof.Proofs
end

section
/-! PROOF. EncRunIsStepwise, DecRunIsStepwise: a command list whose faults all lead to one state is run like the bodies in
sequence (R103, R174, R178). -/

namespace Sys2Proof.Proofs

open Sys2Proof.Machine Sys2Proof.Safety

variable {s t u : State} {d : Dest} {i : Instr} {is : List Instr}

/-! ### Command lists -/

/-- In the fault state commands are ignored (R321). -/
theorem runAll_ignored (hs : s.status = .fault) : ∀ {is : List Instr}, .rst ∉ is → runAll is s = .next s
  | [], _ => rfl
  | i :: is, hrst => by
    obtain ⟨hi, his⟩ := not_or.1 (mt List.mem_cons.2 hrst)
    rw [runAll, exec_eq_accept (Ne.symm hi), accept_ignored hs]
    exact runAll_ignored hs his

/-- A fault with destination set `d` leads from `u` to the state it leads to from `s`. -/
def SameFault (d : Dest) (s u : State) : Prop := ∀ x info, faultEntry x info d u = faultEntry x info d s

theorem SameFault.trans (h : SameFault d s t) (h' : SameFault d t u) : SameFault d s u :=
  fun x info => (h' x info).trans (h x info)

/-- One command, then the others: the rule of sequence for a run whose faults are those of `s`. -/
theorem runAll_cons {f : State → Except Stop State} (hs : u.status = .ready) (hl : modeLegal i u.mode = true)
    (hi : i ≠ .rst) (his : .rst ∉ is)
    (hfault : ∀ x info, bodyOf i u = .error (.raise x info) → faultEntry x info (destOf i) u = faultEntry x info d s)
    (hrest : ∀ t, bodyOf i u = .ok t → runAll is t = finish s d (f t)) :
    runAll (i :: is) u = finish s d (bodyOf i u >>= f) := by
  rw [runAll, exec_eq_accept hi, accept_run hs hl]
  match hr : bodyOf i u with
  | .ok t => exact hrest t hr
  | .error (.raise x info) =>
    have hrun : runAll is (faultEntry x info (destOf i) u) = .next (faultEntry x info (destOf i) u) :=
      runAll_ignored rfl his
    rw [hfault x info hr] at hrun
    simp only [finish, hfault x info hr]
    exact hrun
  | .error (.broken f) => rfl

/-! ### `ENC.RUN` (R174) -/

theorem encBeginBody_sameFault (hm : s.mode = .idle) (h : encBeginBody s = .ok u) : SameFault { bits := true } s u := by
  intro x info
  obtain ⟨-, rfl⟩ := encBeginBody_ok h
  simp only [faultEntry, hm]
  rfl

theorem encFrame_sameFault (h : EncFrame s u) : SameFault { bits := true } s u := by
  intro x info
  rw [h.1]
  rfl

theorem encRunBody_of_ne_nil (h : s.sym ≠ []) :
    encRunBody s = encBeginBody s >>= fun u => encodeSymbols s.sym u >>= encEndBody := by
  rw [encRunBody, if_neg (mt List.length_eq_zero_iff.1 h)]
  match hu : encBeginBody s with
  | .error _ => rfl
  | .ok u =>
    have hsym : u.sym = s.sym := by
      rw [(encBeginBody_ok hu).2]
      rfl
    exact congrArg (fun xs => encodeSymbols xs u >>= encEndBody) hsym

/-- The symbols and the end of a session that was opened in `s` (R172, R173). -/
theorem runAll_encode : ∀ (xs : List Sym) (u : State), At .ready .enc u → SameFault { bits := true } s u →
    runAll (xs.map .encSym ++ [.encEnd]) u = finish s { bits := true } (encodeSymbols xs u >>= encEndBody)
  | [], u, ⟨hs, hm⟩, hf => by
    have hend := runAll_cons (i := .encEnd) (is := []) (d := { bits := true }) (f := pure) hs (by rw [hm]; rfl) nofun nofun
      (fun x info _ => hf x info) fun t _ => rfl
    rwa [bind_pure] at hend
  | x :: xs, u, ⟨hs, hm⟩, hf => by
    have hsym := runAll_cons (i := .encSym x) (is := xs.map .encSym ++ [.encEnd]) (d := { bits := true })
      (f := fun t => encodeSymbols xs t >>= encEndBody) hs (by rw [hm]; rfl) nofun (by simp) (fun x info _ => hf x info)
      fun t ht => by
        have hframe := (encodeSymbol_ok ht).1
        exact runAll_encode xs t (by rw [hframe.1]; exact ⟨hs, hm⟩) (hf.trans (encFrame_sameFault hframe))
    rw [encodeSymbols, bind_assoc]
    exact hsym

/-- Settles O36, by induction on the symbols: the session writes only what a fault of `ENC.RUN` resets. -/
theorem encRunIsStepwise : Obligations.EncRunIsStepwise := by
  unfold Obligations.EncRunIsStepwise
  rintro s ⟨hs, hm⟩ hsym
  have hl : modeLegal .encBegin s.mode = true := by rw [hm]; rfl
  have hrun : exec .encRun s = finish s { bits := true } (encRunBody s) := accept_run hs hl
  rw [hrun, encRunBody_of_ne_nil hsym]
  refine (runAll_cons (i := .encBegin) hs hl nofun (by simp) (fun _ _ _ => rfl) fun u hu => ?_).symm
  refine runAll_encode s.sym u ?_ (encBeginBody_sameFault hm hu)
  rw [(encBeginBody_ok hu).2]
  exact ⟨hs, rfl⟩

/-! ### `DEC.RUN` (R178) -/

theorem decBeginBody_frame (h : decBeginBody s = .ok u) :
    u = { s with low := u.low, high := u.high, window := u.window, rpos := u.rpos, sym := [], mode := .dec } := by
  obtain ⟨-, v, hv, rfl⟩ := decBeginBody_ok h
  rw [readerInit_frame hv]
  rfl

theorem decBeginBody_sameFault (hm : s.mode = .idle) (h : decBeginBody s = .ok u) : SameFault { sym := true } s u := by
  intro x info
  rw [decBeginBody_frame h]
  simp only [faultEntry, hm]
  rfl

theorem decodeSymbol_sameFault (h : decodeSymbol s = .ok u) : SameFault { sym := true } s u := by
  intro x info
  obtain ⟨-, e, -, -, -, -, hframe⟩ := decodeSymbol_ok h
  rw [hframe]
  rfl

/-- `DEC.RUN` checks the table first, and `DEC.BEGIN` checks it again. -/
theorem decRunBody_of_ne_zero (h : s.total.toNat ≠ 0) :
    decRunBody s = decBeginBody s >>= fun u => decodeSymbols s.total.toNat u >>= decEndBody := by
  match hc : tableCheck s with
  | .error _ =>
    simp only [decRunBody, decBeginBody, hc]
    rfl
  | .ok () =>
    simp only [decRunBody, hc, if_neg h]
    match hu : decBeginBody s with
    | .error _ => rfl
    | .ok u =>
      have htotal : u.total = s.total := by rw [decBeginBody_frame hu]
      exact congrArg (fun T : BitVec 64 => decodeSymbols T.toNat u >>= decEndBody) htotal

/-- The symbols and the end of a session that was opened in `s` (R176, R177). -/
theorem runAll_decode : ∀ (n : Nat) (u : State), At .ready .dec u → u.sym.length + n ≤ u.total.toNat →
    SameFault { sym := true } s u →
    runAll (List.replicate n .decSym ++ [.decEnd]) u = finish s { sym := true } (decodeSymbols n u >>= decEndBody)
  | 0, u, ⟨hs, hm⟩, _, hf => by
    have hend := runAll_cons (i := .decEnd) (is := []) (d := { sym := true }) (f := pure) (s := s) hs (by rw [hm]; rfl) nofun
      nofun nofun fun t _ => rfl
    rwa [bind_pure] at hend
  | n + 1, u, ⟨hs, hm⟩, hn, hf => by
    have hbody : bodyOf .decSym u = decodeSymbol u := decSymBody_of_lt (by omega)
    have hsym := runAll_cons (i := .decSym) (is := List.replicate n .decSym ++ [.decEnd]) (d := { sym := true })
      (f := fun t => decodeSymbols n t >>= decEndBody) hs (by rw [hm]; rfl) nofun (by simp) (fun x info _ => hf x info)
      fun t ht => by
        rw [hbody] at ht
        obtain ⟨-, e, -, -, -, -, hframe⟩ := decodeSymbol_ok ht
        refine runAll_decode n t ?_ ?_ (hf.trans (decodeSymbol_sameFault ht)) <;> rw [hframe]
        · exact ⟨hs, hm⟩
        · simp only [List.length_append, List.length_singleton]
          omega
    rw [hbody] at hsym
    rw [decodeSymbols, bind_assoc]
    exact hsym

/-- Settles O37, by induction on the symbols still to decode: the session writes only what a fault of `DEC.RUN` resets. -/
theorem decRunIsStepwise : Obligations.DecRunIsStepwise := by
  unfold Obligations.DecRunIsStepwise
  rintro s ⟨hs, hm⟩ h0
  have hl : modeLegal .decBegin s.mode = true := by rw [hm]; rfl
  have hrun : exec .decRun s = finish s { sym := true } (decRunBody s) := accept_run hs hl
  rw [hrun, decRunBody_of_ne_zero h0]
  refine (runAll_cons (i := .decBegin) hs hl nofun (by simp) (fun _ _ _ => rfl) fun u hu => ?_).symm
  refine runAll_decode _ u ?_ ?_ (decBeginBody_sameFault hm hu) <;> rw [decBeginBody_frame hu]
  · exact ⟨hs, rfl⟩
  · exact (Nat.zero_add _).le

end Sys2Proof.Proofs
end

section
/-! PROOF. EncRunCompletes, DecRunCompletes: a run of symbols, one after another, with at most 24 bits a symbol (R174, R178, R181). -/

namespace Sys2Proof.Proofs

open Sys2Proof.Machine Sys2Proof.Safety

variable {s t u v : State}

/-! ### Sessions -/

/-- A command that answers a state that is not the fault state ran its body to the end. -/
theorem body_of_next {i : Instr} {m : Mode} {body : State → Except Stop State} (hat : At .ready m s)
    (h : accept i s body = .next t) (ht : t.status = .ready) : body s = .ok t := by
  rcases accept_next.1 h with ⟨hs, -⟩ | ⟨-, -, hr | ⟨x, info, -, rfl⟩⟩ | ⟨-, -, rfl⟩
  · cases hat.1.symm.trans hs
  · exact hr
  · cases ht
  · cases ht

/-- A session that ends leaves the transient registers as it found them (R51). -/
theorem transientClear_idle (hm : s.mode = .idle) (hclear : TransientsClear s) :
    { transientClear s with mode := .idle } = s := by
  cases s
  obtain ⟨rfl, rfl, rfl, rfl, rfl, rfl, rfl, rfl⟩ := hclear
  cases hm
  rfl

/-- Every symbol of the list has an entry in the table. -/
abbrev InTable (ftab : List Entry) (xs : List Sym) : Prop := ∀ x ∈ xs, ∃ e ∈ ftab, e.sym = x

/-! ### The encoder's run -/

/-- The state of an encode session just opened (R171). -/
def encOpened (s : State) : State := { intervalInit (writerInit s) with mode := .enc }

theorem encOpened_ready (h : TablePasses s) : EncReady (encOpened s) :=
  (encBeginBody_sound s).answer (encBeginBody_of_passes h)

/-- The symbols `xs` coded one after another lead from `s` to `v`, each by its entry and in 24 bits at most (R172, R180). -/
inductive CodedRun : (xs : List Sym) → (s v : State) → Prop
  | nil {s : State} (ready : EncReady s) : CodedRun [] s s
  | cons {xs : List Sym} {s t v : State} {e : Entry} {k : Nat} (ready : EncReady s) (mem : e ∈ s.ftab)
      (answer : encodeSymbol e.sym s = .ok t) (few : k ≤ 24) (coded : SymCoded e k s t) (rest : CodedRun xs t v) :
      CodedRun (e.sym :: xs) s v

/-- With room for 24 bits a symbol, the symbols of the table are coded (R174). -/
theorem encodeSymbols_coded : ∀ (xs : List Sym) (s : State), EncReady s → InTable s.ftab xs → Room (24 * xs.length) s →
    ∃ v, encodeSymbols xs s = .ok v ∧ CodedRun xs s v
  | [], s, h, _, _ => ⟨s, rfl, .nil h⟩
  | x :: xs, s, h, hx, hr => by
    obtain ⟨⟨e, he, rfl⟩, hxs⟩ := List.forall_mem_cons.1 hx
    rw [List.length_cons] at hr
    obtain ⟨t, k, ht, hk, hcoded⟩ := encodeSymbol_coded h he (hr.mono (by omega))
    have hftab : t.ftab = s.ftab := by rw [hcoded.frame.1]
    obtain ⟨v, hv, hrun⟩ := encodeSymbols_coded xs t hcoded.ready (by rwa [hftab]) (hcoded.room (hr.mono (by omega)))
    exact ⟨v, bind_ok.2 ⟨t, ht, hv⟩, .cons h he ht hk hcoded hrun⟩

theorem CodedRun.ready_end {xs : List Sym} (h : CodedRun xs s v) : EncReady v := by
  induction h with
  | nil ready => exact ready
  | cons _ _ _ _ _ _ ih => exact ih

theorem CodedRun.count_le {xs : List Sym} (h : CodedRun xs s v) :
    writtenCount v + v.pending.toNat ≤ writtenCount s + s.pending.toNat + 24 * xs.length := by
  induction h with
  | nil => exact Nat.le_refl _
  | cons _ _ _ few coded _ ih =>
    have hcount := coded.count
    rw [List.length_cons]
    omega

/-- `t` holds the closed stream of the session that ended in `v` (R134, R173). -/
structure Closed (v : State) (pad : Nat) (bits : List Byte) : Prop where
  short : pad < 8
  bits : byteBits bits = writtenBits v ++ 1 :: List.replicate (v.pending.toNat + 1) 0 ++ List.replicate pad 0

theorem Closed.length {pad : Nat} {bits : List Byte} (h : Closed v pad bits) :
    8 * bits.length = writtenCount v + v.pending.toNat + 2 + pad := by
  have hlen := congrArg List.length h.bits
  simp only [byteBits_length, List.length_append, writtenBits_length, List.length_cons, List.length_replicate] at hlen
  omega

theorem encOpened_room (hp : 24 * s.sym.length < 2 ^ 32 - 1) (hfits : (24 * s.sym.length + 9) / 8 ≤ s.capBits) :
    Room (24 * s.sym.length) (encOpened s) := by
  have hzero : writtenCount (encOpened s) + (encOpened s).pending.toNat = 0 := rfl
  have hcap : (encOpened s).capBits = s.capBits := rfl
  exact ⟨by omega, by omega⟩

/-- `ENC.RUN` opens its session, codes its symbols and closes the stream (R174). -/
theorem encRun_closes (hat : At .ready .idle s) (hclear : TransientsClear s) (htab : TablePasses s) (h0 : s.sym ≠ [])
    (hx : InTable s.ftab s.sym) (hp : 24 * s.sym.length < 2 ^ 32 - 1) (hfits : (24 * s.sym.length + 9) / 8 ≤ s.capBits) :
    ∃ v bits pad, CodedRun s.sym (encOpened s) v ∧ writtenCount v + v.pending.toNat ≤ 24 * s.sym.length ∧
      Closed v pad bits ∧ exec .encRun s = .next { s with bits := bits } := by
  obtain ⟨v, hv, hcodes⟩ := encodeSymbols_coded s.sym (encOpened s) (encOpened_ready htab) hx (encOpened_room hp hfits)
  have hcount : writtenCount v + v.pending.toNat ≤ 24 * s.sym.length := by
    simpa [encOpened, writtenCount] using hcodes.count_le
  have hframe := encodeSymbols_frame hv
  have hv_at : At .ready .enc v := by rw [hframe.1]; exact ⟨hat.1, rfl⟩
  have hcap : v.capBits = s.capBits := hframe.capBits
  obtain ⟨hcloses, -⟩ := encEndCloses v hv_at hcodes.ready_end.1
  obtain ⟨t, pad, ht, hpad, hbits, -, htframe⟩ := hcloses (by omega) (by omega)
  have hend : encEndBody v = .ok t := body_of_next hv_at ht (by rw [htframe]; exact hv_at.1)
  have hrun : encRunBody s = .ok t := by
    rw [encRunBody_of_ne_nil h0]
    exact bind_ok.2 ⟨_, encBeginBody_of_passes htab, bind_ok.2 ⟨v, hv, hend⟩⟩
  have ht : t = { s with bits := t.bits } := by
    rw [htframe, hframe.1]
    exact congrArg (fun u : State => { u with bits := t.bits }) (transientClear_idle hat.2 hclear)
  exact ⟨v, t.bits, pad, hcodes, hcount, ⟨hpad, hbits⟩, ht ▸ accept_of_ok hat rfl hrun⟩

theorem encRun_of_nil (hat : At .ready .idle s) (h : s.sym = []) : exec .encRun s = .next { s with bits := [] } :=
  accept_of_ok (body := encRunBody) hat rfl (if_pos (List.length_eq_zero_iff.2 h))

/-- Settles O38: each symbol takes 24 bits at most, and the closing bits fill the last bytes. -/
theorem encRunCompletes : Obligations.EncRunCompletes := by
  unfold Obligations.EncRunCompletes
  intro s hat hclear
  refine ⟨encRun_of_nil hat, fun h0 hT hvalid hx hp hfits => ?_⟩
  obtain ⟨v, bits, pad, -, hcount, hclosed, hrun⟩ :=
    encRun_closes hat hclear (tablePasses_of_validTable hT hvalid) h0 hx hp hfits
  have hlen := hclosed.length
  have hpad := hclosed.short
  exact ⟨_, hrun, rfl, by dsimp only; omega, by dsimp only; omega⟩

/-! ### The decoder's run -/

theorem decodeSymbols_frame : ∀ {n : Nat} {s t : State}, decodeSymbols n s = .ok t →
    t = { s with low := t.low, high := t.high, window := t.window, rpos := t.rpos, sym := t.sym }
  | 0, _, _, h => by
    obtain rfl := Except.ok.inj h
    rfl
  | n + 1, s, t, h => by
    obtain ⟨u, hu, ht⟩ := bind_ok.1 h
    obtain ⟨-, e, -, -, -, -, hframe⟩ := decodeSymbol_ok hu
    have htframe := decodeSymbols_frame ht
    rw [hframe] at htframe
    exact htframe

/-- With room for them `n` symbols are decoded, one for each of a list of entries, whatever the stream holds (R176, R178). -/
theorem decodeSymbols_decoded : ∀ (n : Nat) (s : State), DecReady s → s.total.toNat ≠ 0 → s.sym.length + n ≤ s.capSym →
    s.rpos.toNat + 24 * n < 2 ^ 32 → ∃ (t : State) (es : List Entry), decodeSymbols n s = .ok t ∧
      es.length = n ∧ (∀ e ∈ es, e ∈ s.ftab) ∧
      t.sym = s.sym ++ es.map Entry.sym
  | 0, s, _, _, _, _ => ⟨s, [], rfl, rfl, nofun, by simp⟩
  | n + 1, s, h, h0, hcap, hp => by
    obtain ⟨u, k, D, e, hu, hk, hdecoded⟩ := decodeSymbol_decoded h h0 (by omega) (by omega)
    have hframe := hdecoded.frame
    have htotal : u.total = s.total := by rw [hframe]
    have hftab : u.ftab = s.ftab := by rw [hframe]
    have hucap : u.capSym = s.capSym := by rw [hframe]; rfl
    have husym : u.sym = s.sym ++ [e.sym] := by rw [hframe]
    have hlen : u.sym.length = s.sym.length + 1 := by rw [husym]; exact List.length_append
    obtain ⟨t, es, ht, hes, hentries, hsym⟩ := decodeSymbols_decoded n u hdecoded.ready (by rwa [htotal]) (by omega)
      (by rw [hdecoded.rpos]; omega)
    rw [hftab] at hentries
    refine ⟨t, e :: es, bind_ok.2 ⟨u, hu, ht⟩, congrArg (· + 1) hes, List.forall_mem_cons.2 ⟨hdecoded.mem, hentries⟩, ?_⟩
    rw [List.map_cons, List.append_cons, ← husym, hsym]

/-- With room for fewer the run finds `SYM` full (R176, R316). -/
theorem decodeSymbols_full : ∀ (n : Nat) (s : State), DecReady s → s.total.toNat ≠ 0 → s.sym.length ≤ s.capSym →
    s.capSym < s.sym.length + n → s.rpos.toNat + 24 * n < 2 ^ 32 →
    decodeSymbols n s = .error (.raise .capacityFault resSym)
  | 0, s, _, _, hle, hlt, _ => absurd hlt (Nat.not_lt.2 hle)
  | n + 1, s, h, h0, hle, hlt, hp => by
    by_cases hcap : s.sym.length = s.capSym
    · exact bind_error.2 (.inl (decodeSymbol_full h h0 hcap))
    · obtain ⟨u, k, D, e, hu, hk, hdecoded⟩ := decodeSymbol_decoded h h0 hcap (by omega)
      have hframe := hdecoded.frame
      have htotal : u.total = s.total := by rw [hframe]
      have hucap : u.capSym = s.capSym := by rw [hframe]; rfl
      have hlen : u.sym.length = s.sym.length + 1 := by rw [hframe]; exact List.length_append
      exact bind_error.2 (.inr ⟨u, hu, decodeSymbols_full n u hdecoded.ready (by rwa [htotal]) (by omega) (by omega)
        (by rw [hdecoded.rpos]; omega)⟩)

theorem decRunBody_of_zero (htab : TablePasses s) (h : s.total.toNat = 0) : decRunBody s = .ok { s with sym := [] } :=
  bind_ok.2 ⟨(), htab, if_pos h⟩

/-- `DEC.RUN` opens its session, decodes the symbols and closes it (R178). -/
theorem decRun_of_decoded (hat : At .ready .idle s) (hclear : TransientsClear s) (h0 : s.total.toNat ≠ 0)
    (hu : decBeginBody s = .ok u) (hv : decodeSymbols s.total.toNat u = .ok v) :
    exec .decRun s = .next { s with sym := v.sym } := by
  have hrun : decRunBody s = .ok { transientClear v with mode := .idle } := by
    rw [decRunBody_of_ne_zero h0]
    exact bind_ok.2 ⟨u, hu, bind_ok.2 ⟨v, hv, rfl⟩⟩
  have hend : { transientClear v with mode := .idle } = { s with sym := v.sym } := by
    rw [decodeSymbols_frame hv, decBeginBody_frame hu]
    exact congrArg (fun w : State => { w with sym := v.sym }) (transientClear_idle hat.2 hclear)
  exact hend ▸ accept_of_ok hat rfl hrun

/-- Settles O39: the decoder reads 24 bits and at most 24 more for each symbol, fewer than its cursor counts. -/
theorem decRunCompletes : Obligations.DecRunCompletes := by
  unfold Obligations.DecRunCompletes
  intro s hat hclear hT hvalid
  have htab := tablePasses_of_validTable hT hvalid
  by_cases h0 : s.total.toNat = 0
  · refine ⟨fun _ => ⟨_, accept_of_ok hat rfl (decRunBody_of_zero htab h0), rfl, h0.symm, nofun⟩, fun hfull => ?_⟩
    rw [h0] at hfull
    cases hfull
  · rw [maxTotal_eq] at hT
    obtain ⟨u, hu, hframe, -⟩ := decBeginBody_of_passes htab
    obtain ⟨hready, htotal⟩ := (decBeginBody_sound s).answer hu
    have hsym : u.sym = [] := by rw [hframe]
    have hlen : u.sym.length = 0 := by rw [hsym]; rfl
    have hrpos : u.rpos.toNat = 24 := by rw [hframe]; rfl
    have hcap : u.capSym = s.capSym := by rw [hframe]; rfl
    have hftab : u.ftab = s.ftab := by rw [hframe]
    refine ⟨fun hfits => ?_, fun hfull => ?_⟩
    · obtain ⟨v, es, hv, hes, hentries, hvsym⟩ :=
        decodeSymbols_decoded s.total.toNat u hready (by rwa [htotal]) (by omega) (by omega)
      rw [hsym, List.nil_append] at hvsym
      rw [hftab] at hentries
      refine ⟨_, decRun_of_decoded hat hclear h0 hu hv, rfl, ?_, ?_⟩
      · rw [hvsym, List.length_map, hes]
      · rw [hvsym]
        exact List.forall_mem_map.2 fun e he => ⟨e, hentries e he, rfl⟩
    · have hraise := decodeSymbols_full s.total.toNat u hready (by rwa [htotal]) (by omega) (by omega) (by omega)
      have hrun : decRunBody s = .error (.raise .capacityFault resSym) := by
        rw [decRunBody_of_ne_zero h0]
        exact bind_error.2 (.inr ⟨u, hu, bind_error.2 (.inl hraise)⟩)
      exact accept_of_raise hat rfl hrun

end Sys2Proof.Proofs
end

section
/-! PROOF. DecRunInvertsEncRun (R179 (g)): the closed stream reads as a point of the encoder's last interval. Scaled back, it lies in
every interval before it, so each time in the part of the symbol that was coded, which is the one the target finds. -/

namespace Sys2Proof.Proofs

open Sys2Proof.Machine Sys2Proof.Safety

variable {s t u v d d' : State} {e : Entry} {k n D pad : Nat} {bits : List Byte}

/-! ### A point of the code line -/

/-- How many stream bits the decoder has read when the encoder is in `s`: 24 and one for each bit written or pending (R135, R170). -/
def bitsRead (s : State) : Nat := 24 + (writtenCount s + s.pending.toNat)

/-- The stream, as far as it is read when the encoder is in `s`, is a point of the code line from `low` to below `high`. -/
def PointIn (bits : List Byte) (s : State) (low high : Nat) : Prop :=
  low + half * codeOffset s ≤ streamValue bits 0 (bitsRead s) ∧ streamValue bits 0 (bitsRead s) < high + half * codeOffset s

/-- The stream is a point of the encoder's interval. -/
def Holds (bits : List Byte) (s : State) : Prop := PointIn bits s s.low.toNat (s.high.toNat + 1)

/-- The stream is a point of the part of the encoder's interval that belongs to the entry. -/
def HoldsEntry (bits : List Byte) (e : Entry) (s : State) : Prop :=
  PointIn bits s (narrowLow s.low.toNat s.high.toNat e.cum.toNat s.total.toNat)
    (narrowHigh s.low.toNat s.high.toNat (e.cum.toNat + e.count.toNat) s.total.toNat + 1)

theorem SymCoded.bitsRead_add (h : SymCoded e k s t) : bitsRead t = bitsRead s + k := by
  rw [bitsRead, h.count, bitsRead, Nat.add_assoc 24]

/-- A point of the interval after a symbol is, scaled back, a point of the symbol's part of the interval before it. -/
theorem SymCoded.holdsEntry (h : SymCoded e k s t) (ht : Holds bits t) : HoldsEntry bits e s := by
  obtain ⟨hl, hh⟩ := ht
  rw [h.low, h.bitsRead_add, streamValue_add, Nat.mul_comm _ (2 ^ k)] at hl
  rw [h.high, h.bitsRead_add, streamValue_add, Nat.mul_comm _ (2 ^ k)] at hh
  have hbits := streamValue_lt bits (0 + bitsRead s) k
  refine ⟨Nat.lt_succ_iff.1 (Nat.lt_of_mul_lt_mul_left (a := 2 ^ k) ?_), Nat.lt_of_mul_lt_mul_left (a := 2 ^ k) ?_⟩
  · rw [Nat.mul_succ]
    omega
  · omega

/-- The symbol's part lies in the interval. -/
theorem HoldsEntry.holds (h : HoldsEntry bits e s) (hs : EncReady s) (he : e ∈ s.ftab) : Holds bits s := by
  obtain ⟨-, htab, hset⟩ := hs
  obtain ⟨u, -, hn⟩ := narrow_entry htab hset he
  have habove := hn.above
  have hbelow := hn.below
  rw [hn.low] at habove
  rw [hn.high] at hbelow
  obtain ⟨hl, hh⟩ := h
  exact ⟨by omega, by omega⟩

/-- The closed stream is the midpoint of the code line where the session ended, which every settled interval holds (R134, R167). -/
theorem Closed.holds (h : Closed v pad bits) (hset : Settled v.low.toNat v.high.toNat) : Holds bits v := by
  have hvalue := streamValue_of_padded h.bits 22
  have hlen : (writtenBits v ++ 1 :: List.replicate (v.pending.toNat + 1) 0).length + 22 = bitsRead v := by
    rw [List.length_append, writtenBits_length, List.length_cons, List.length_replicate, bitsRead]
    omega
  have hmid : streamValue bits 0 (bitsRead v) = half * (codeOffset v + 1) := by
    have hpow := Nat.two_pow_pos v.pending.toNat
    have hoffset : codeOffset v + 1 = 2 * bitsValue (writtenBits v) * 2 ^ v.pending.toNat + 2 ^ v.pending.toNat := by
      rw [codeOffset]
      omega
    rw [← hlen, hvalue, hoffset, half_eq, bitsValue_append, bitsValue_cons, bitsValue_replicate_zero, List.length_cons,
      List.length_replicate, pow_succ, pow_succ]
    simp only [BitVec.ofNat_eq_ofNat, BitVec.toNat_ofNat]
    ring
  obtain ⟨hlow, hhigh, -⟩ := hset
  rw [Nat.mul_succ] at hmid
  exact ⟨by omega, by omega⟩

/-- A point of the last interval is one of every interval before. -/
theorem CodedRun.holds {xs : List Sym} (h : CodedRun xs s v) (hv : Holds bits v) : Holds bits s := by
  induction h with
  | nil => exact hv
  | cons ready mem _ _ coded _ ih => exact (coded.holdsEntry (ih hv)).holds ready mem

/-! ### The decoder beside the encoder -/

/-- The decoder in `d` reads what the encoder wrote from `s` on: equal bounds and table, and the window is the stream's distance
from the code line (R170, R179). -/
structure Tracks (bits : List Byte) (s d : State) : Prop where
  stream : d.bits = bits
  table : d.ftab = s.ftab ∧ d.total = s.total
  bounds : SameBounds s d
  rpos : d.rpos.toNat = bitsRead s
  window : d.window.toNat + half * codeOffset s = streamValue bits 0 (bitsRead s)

theorem Tracks.ready (h : Tracks bits s d) (hs : EncReady s) (hh : Holds bits s) : DecReady d := by
  obtain ⟨-, htab, hset⟩ := hs
  obtain ⟨hftab, htotal⟩ := h.table
  obtain ⟨hlow, hhigh⟩ := h.bounds
  obtain ⟨hl, hu⟩ := hh
  have hw := h.window
  refine ⟨tablePasses_congr hftab htotal htab, by rwa [← hlow, ← hhigh], ?_⟩
  rw [WindowIn, ← hlow, ← hhigh]
  exact ⟨by omega, by omega⟩

/-- An offset in the symbol's part of the range has its target in the symbol's cumulative range: the converse of
`offset_in_part` (R169). -/
theorem target_in_range {o R T cs ce : Nat} (hT : 0 < T) (hR : 0 < R) (hlower : R * cs / T ≤ o) (hupper : o + 1 ≤ R * ce / T) :
    cs ≤ ((o + 1) * T - 1) / R ∧ ((o + 1) * T - 1) / R < ce := by
  have hpos : 0 < (o + 1) * T := Nat.mul_pos (Nat.succ_pos _) hT
  rw [← Nat.lt_add_one_iff, Nat.div_lt_iff_lt_mul hT] at hlower
  rw [Nat.le_div_iff_mul_le hT] at hupper
  rw [Nat.le_div_iff_mul_le hR, Nat.div_lt_iff_lt_mul hR, Nat.mul_comm cs, Nat.mul_comm ce]
  exact ⟨by omega, by omega⟩

/-- The target that the window gives lies in the range of the entry in whose part of the interval the stream is a point. -/
theorem Tracks.target_inRange (h : Tracks bits s d) (hs : EncReady s) (he : e ∈ s.ftab) (hh : HoldsEntry bits e s)
    (h0 : s.total.toNat ≠ 0) : inRange e (targetOf d) = true := by
  obtain ⟨-, htab, hset⟩ := hs
  obtain ⟨u, -, hn⟩ := narrow_entry htab hset he
  have hpos := hn.part
  obtain ⟨hlow, hhigh⟩ := h.bounds
  obtain ⟨-, htotal⟩ := h.table
  obtain ⟨hl, hu⟩ := hh
  have hw := h.window
  rw [narrowLow] at hl
  rw [narrowHigh] at hu
  simp only [inRange, Bool.and_eq_true, decide_eq_true_eq, targetOf, htotal, ← hlow, ← hhigh]
  exact target_in_range (Nat.pos_of_ne_zero h0) (Nat.succ_pos _) (by omega) (by omega)

/-- Both code the entry from equal bounds, and end with equal bounds (R170). -/
theorem coded_sameBounds (hb : SameBounds s d) (ht : s.total = d.total) (he : findSym s.ftab e.sym = some e)
    (hs : encodeSymbol e.sym s = .ok t) (htarget : decodeTarget d.total.toNat d = .ok n) (hf : findCum d.ftab n = some e)
    (hcap : d.sym.length ≠ d.capSym) (hd : decodeSymbol d = .ok d') : SameBounds t d' := by
  rw [encodeSymbol_of_some he] at hs
  rw [decodeSymbol_of_found htarget hf, if_neg hcap] at hd
  obtain ⟨u, hu, hs⟩ := bind_ok.1 hs
  obtain ⟨w, hw, hd⟩ := bind_ok.1 hd
  obtain ⟨-, -, -, huh, hul⟩ := narrow_ok hu
  obtain ⟨-, -, -, hwh, hwl⟩ := narrow_ok hw
  obtain ⟨hlow, hhigh⟩ := hb
  refine renormLoops_sameBounds ⟨BitVec.eq_of_toNat_eq ?_, BitVec.eq_of_toNat_eq ?_⟩ hs hd
  · rw [hul, hwl, hlow, hhigh, ht]
  · rw [huh, hwh, hlow, hhigh, ht]

/-- One interval scaled to one interval in two ways: the scale is one, and what is subtracted is what the code line moves by. -/
theorem scale_unique {low high low' high' a c k' : Nat} (hlt : low < high) (hl : low' + a = 2 ^ k * (low + c))
    (hh : high' + a = 2 ^ k * (high + c)) (hl' : low' + D = 2 ^ k' * low) (hh' : high' + D = 2 ^ k' * high) :
    k' = k ∧ a = D + 2 ^ k * c := by
  obtain ⟨w, rfl⟩ := Nat.exists_eq_add_of_le hlt.le
  have hw : 2 ^ k' * w = 2 ^ k * w := by
    rw [Nat.add_right_comm, Nat.mul_add] at hh
    rw [Nat.mul_add] at hh'
    omega
  have hpow : 2 ^ k' = 2 ^ k := Nat.eq_of_mul_eq_mul_right (by omega) hw
  obtain rfl := Nat.pow_right_injective (Nat.le_refl 2) hpow
  rw [Nat.mul_add] at hl
  exact ⟨rfl, by omega⟩

/-- The decoder takes from the stream the symbol the encoder coded, and stays beside it (R176, R179 (g)). -/
theorem Tracks.symbol (h : Tracks bits s d) (hs : EncReady s) (he : e ∈ s.ftab) (ht : encodeSymbol e.sym s = .ok t)
    (hcoded : SymCoded e k s t) (hh : HoldsEntry bits e s) (h0 : s.total.toNat ≠ 0) (hcap : d.sym.length ≠ d.capSym)
    (hp : bitsRead s + 24 < 2 ^ 32) :
    ∃ d', decodeSymbol d = .ok d' ∧ Tracks bits t d' ∧ d'.sym = d.sym ++ [e.sym] ∧ d'.capSym = d.capSym := by
  obtain ⟨hftab, htotal⟩ := h.table
  have hready := h.ready hs (hh.holds hs he)
  have hd0 : d.total.toNat ≠ 0 := by rwa [htotal]
  obtain ⟨d', k', D, e', hd', -, hdecoded⟩ := decodeSymbol_decoded hready hd0 hcap (by rwa [h.rpos])
  have hfound := findCum_of_inRange hready.1 (hftab ▸ he) (h.target_inRange hs he hh h0)
  obtain rfl : e' = e :=
    Option.some.inj ((findCum_of_inRange hready.1 hdecoded.mem hdecoded.found).symm.trans hfound)
  have hframe := hdecoded.frame
  have hbounds : SameBounds t d' := coded_sameBounds h.bounds htotal.symm (findSym_of_mem hs.2.1 he) ht
    (decodeTarget_answers hready hd0).1 hfound hcap hd'
  obtain ⟨hlow, hhigh⟩ := h.bounds
  obtain ⟨htlow, hthigh⟩ := hbounds
  have hl := hdecoded.low
  have hu := hdecoded.high
  have hwindow := hdecoded.window
  rw [← htlow, ← hlow, ← hhigh, htotal] at hl
  rw [← hthigh, ← hlow, ← hhigh, htotal] at hu
  have hpart := hh.1.trans_lt hh.2
  obtain ⟨rfl, hoffset⟩ := scale_unique (by omega) hcoded.low hcoded.high hl hu
  refine ⟨d', hd', ⟨?_, ?_, ⟨htlow, hthigh⟩, ?_, ?_⟩, by rw [hframe], by rw [hframe]; rfl⟩
  · rw [hframe]
    exact h.stream
  · rw [hframe, hcoded.frame.1]
    exact ⟨hftab, htotal⟩
  · rw [hdecoded.rpos, h.rpos, hcoded.bitsRead_add]
  · rw [h.stream, h.rpos] at hwindow
    rw [hcoded.bitsRead_add, streamValue_add, ← h.window, Nat.zero_add]
    linear_combination hwindow + hoffset

/-- Symbol by symbol the decoder takes from the stream what the encoder coded (R179 (g)). -/
theorem CodedRun.decodes {xs : List Sym} (h : CodedRun xs s v) (hv : Holds bits v) (htracks : Tracks bits s d)
    (h0 : s.total.toNat ≠ 0) (hcap : d.sym.length + xs.length ≤ d.capSym) (hp : bitsRead s + 24 * xs.length < 2 ^ 32) :
    ∃ d', decodeSymbols xs.length d = .ok d' ∧ d'.sym = d.sym ++ xs := by
  induction h generalizing d with
  | nil => exact ⟨d, rfl, (List.append_nil _).symm⟩
  | @cons xs s t v e k ready mem answer few coded rest ih =>
    rw [List.length_cons] at hcap hp
    have htotal : t.total = s.total := by rw [coded.frame.1]
    obtain ⟨u, hu, htracks, husym, hucap⟩ :=
      htracks.symbol ready mem answer coded (coded.holdsEntry (rest.holds hv)) h0 (by omega) (by omega)
    have hlen : u.sym.length = d.sym.length + 1 := by rw [husym]; exact List.length_append
    obtain ⟨d', hd', hsym⟩ := ih hv htracks (by rwa [htotal]) (by omega) (by rw [coded.bitsRead_add]; omega)
    refine ⟨d', bind_ok.2 ⟨u, hu, hd'⟩, ?_⟩
    rw [hsym, husym, List.append_assoc]
    rfl

/-- The decode session opened on a stream stands beside the encode session just opened. -/
theorem tracks_opened (hbits : s.bits = bits)
    (hd : d = { s with low := 0, high := 0xFFFFFF, window := d.window, rpos := 24, sym := [], mode := .dec })
    (hw : d.window.toNat = streamValue s.bits 0 24) : Tracks bits (encOpened s) d where
  stream := by rw [hd]; exact hbits
  table := by rw [hd]; exact ⟨rfl, rfl⟩
  bounds := by rw [hd]; exact ⟨rfl, rfl⟩
  rpos := by rw [hd]; rfl
  window := by rw [← hbits]; exact hw

/-- Settles O40: the closed stream is a point of the last interval, so of every interval before, and the decoder follows the encoder
symbol by symbol. -/
theorem decRunInvertsEncRun : Obligations.DecRunInvertsEncRun := by
  unfold Obligations.DecRunInvertsEncRun
  intro s hat hclear hT hvalid hlen hx hfits hcap
  have htab := tablePasses_of_validTable hT hvalid
  by_cases h0 : s.sym = []
  · have hzero : s.total.toNat = 0 := by rw [← hlen, h0]; rfl
    have hrun : exec .decRun { s with bits := [] } = .next { s with bits := [], sym := [] } :=
      accept_of_ok (body := decRunBody) (s := { s with bits := [] }) hat rfl (decRunBody_of_zero htab hzero)
    exact ⟨_, _, encRun_of_nil hat h0, hat.1, hrun, hat.1, h0.symm⟩
  · have hT0 : s.total.toNat ≠ 0 := hlen ▸ mt List.length_eq_zero_iff.1 h0
    rw [maxTotal_eq] at hT
    obtain ⟨v, bits, pad, hcodes, -, hclosed, hrun⟩ := encRun_closes hat hclear htab h0 hx (by omega) hfits
    obtain ⟨d, hd, hdframe, hdw⟩ := decBeginBody_of_passes (s := { s with bits := bits }) htab
    have hdsym : d.sym = [] := by rw [hdframe]
    have hdlen : d.sym.length = 0 := by rw [hdsym]; rfl
    have hdcap : d.capSym = s.capSym := by rw [hdframe]; rfl
    have hread : bitsRead (encOpened s) = 24 := rfl
    have htracks : Tracks bits (encOpened s) d := tracks_opened (s := { s with bits := bits }) rfl hdframe hdw
    obtain ⟨d', hd', hsym⟩ :=
      hcodes.decodes (hclosed.holds hcodes.ready_end.2.2) htracks hT0 (by omega) (by omega)
    rw [hlen] at hd'
    refine ⟨_, _, hrun, hat.1, decRun_of_decoded (s := { s with bits := bits }) hat hclear hT0 hd hd', hat.1, ?_⟩
    exact hsym.trans (by rw [hdsym, List.nil_append])

end Sys2Proof.Proofs
end

section
/-! PROOF. FmCheckTests, ValidTablesPass: the check goes from position to position, and stops at the first entry that is not in order
(R202); where it passes the table is valid (R200). -/

namespace Sys2Proof.Proofs

open Sys2Proof.Machine Sys2Proof.Safety

variable {s : State} {ftab es : List Entry} {expect sum i : Nat} {before : Option Sym}

/-! ### The check by positions -/

/-- The symbol before position `i` of a table, if there is one. -/
def symBefore (ftab : List Entry) : Nat → Option Sym
  | 0 => none
  | i + 1 => ftab[i]?.map (·.sym)

/-- What is left of the check at position `i`, where the entries before are in order (R202). -/
def checkFrom (ftab : List Entry) (i : Nat) : Except Stop Nat :=
  checkEntries i (countTotal (ftab.take i)) (symBefore ftab i) (ftab.drop i)

theorem entryOk_iff (hi : i < ftab.length) : EntryOk ftab i ↔ ftab[i].cum.toNat = countTotal (ftab.take i) ∧
    1 ≤ ftab[i].count.toNat ∧ ∀ p ∈ symBefore ftab i, p.toNat < ftab[i].sym.toNat := by
  cases i with
  | zero => simp [EntryOk, symBefore, countTotal, hi]
  | succ i => simp [EntryOk, symBefore, countTotal, hi, Nat.lt_of_succ_lt hi]

theorem countTotal_take_succ (hi : i < ftab.length) :
    countTotal (ftab.take (i + 1)) = countTotal (ftab.take i) + ftab[i].count.toNat := by
  rw [countTotal, List.take_succ_eq_append_getElem hi, List.map_append, List.sum_append]
  rfl

/-- An entry in order is passed over. -/
theorem checkFrom_of_entryOk (hi : i < ftab.length) (h : EntryOk ftab i) : checkFrom ftab i = checkFrom ftab (i + 1) := by
  obtain ⟨hcum, hcount, hsym⟩ := (entryOk_iff hi).1 h
  have hsym : ¬ (symBefore ftab i).any (fun p => decide (ftab[i].sym.toNat ≤ p.toNat)) = true := by
    simpa [Option.any_eq_true] using hsym
  have hnext : symBefore ftab (i + 1) = some ftab[i].sym := by simp [symBefore, List.getElem?_eq_getElem hi]
  rw [checkFrom, List.drop_eq_getElem_cons hi, checkEntries, if_neg (not_not.2 hcum), if_neg (by omega), if_neg hsym,
    checkFrom, countTotal_take_succ hi, hnext]

/-- The check stops at an entry that is not in order. -/
theorem checkFrom_of_not_entryOk (hi : i < ftab.length) (h : ¬ EntryOk ftab i) :
    checkFrom ftab i = .error (.raise .modelError i) := by
  rw [entryOk_iff hi] at h
  rw [checkFrom, List.drop_eq_getElem_cons hi, checkEntries]
  split
  · rfl
  · split
    · rfl
    · rename_i hcum hcount
      refine if_pos (by_contra fun hsym => h ⟨not_not.1 hcum, by omega, ?_⟩)
      simpa [Option.any_eq_true] using hsym

theorem checkEntries_eq_checkFrom (hi : i ≤ ftab.length) (h : ∀ j < i, EntryOk ftab j) :
    checkEntries 0 0 none ftab = checkFrom ftab i := by
  induction i with
  | zero => rfl
  | succ i ih =>
    rw [ih (by omega) fun j hj => h j (by omega)]
    exact checkFrom_of_entryOk hi (h i (by omega))

/-- Entries that are all in order close with the sum of their counts. -/
theorem checkEntries_of_entriesOk (h : ∀ j < ftab.length, EntryOk ftab j) :
    checkEntries 0 0 none ftab = .ok (countTotal ftab) := by
  rw [checkEntries_eq_checkFrom le_rfl h, checkFrom, List.drop_length, List.take_length]
  rfl

/-! ### The answers of the check -/

theorem tableCheck_of_maxTotal_le (h : maxTotal ≤ s.total.toNat) :
    tableCheck s = .error (.raise .precisionOverflow s.total.toNat) := if_pos h

theorem tableCheck_of_first_bad (hT : s.total.toNat < maxTotal) (hi : i < s.ftab.length) (hbad : ¬ EntryOk s.ftab i)
    (hok : ∀ j < i, EntryOk s.ftab j) : tableCheck s = .error (.raise .modelError i) := by
  rw [tableCheck, if_neg (Nat.not_le.2 hT), checkEntries_eq_checkFrom hi.le hok, checkFrom_of_not_entryOk hi hbad]

theorem tableCheck_of_entriesOk (hT : s.total.toNat < maxTotal) (hok : ∀ j < s.ftab.length, EntryOk s.ftab j) :
    tableCheck s =
      if countTotal s.ftab ≠ s.total.toNat then .error (.raise .modelError s.ftab.length) else .ok () := by
  rw [tableCheck, if_neg (Nat.not_le.2 hT), checkEntries_of_entriesOk hok]

/-- Settles O22: the check answers at the bound, at the first entry not in order, at the sum, or passes. -/
theorem fmCheckTests : Obligations.FmCheckTests := by
  unfold Obligations.FmCheckTests
  intro s hat
  have hraise {x : Cause} {info : Nat} (h : tableCheck s = .error (.raise x info)) :
      exec .fmCheck s = .next (faultEntry x info {} s) :=
    accept_of_raise (body := fmCheckBody) hat rfl (bind_error.2 (.inl h))
  refine ⟨fun hT => hraise (tableCheck_of_maxTotal_le hT), fun hT => ⟨fun i hi hbad hok => ?_, fun hok hsum => ?_,
    fun hok hsum => ?_⟩⟩
  · exact hraise (tableCheck_of_first_bad hT hi hbad hok)
  · exact hraise ((tableCheck_of_entriesOk hT hok).trans (if_pos hsum))
  · have hpass := (tableCheck_of_entriesOk hT hok).trans (if_neg (not_not.2 hsum))
    exact accept_of_ok (body := fmCheckBody) hat rfl (bind_ok.2 ⟨(), hpass, rfl⟩)

/-! ### A table that passes is valid -/

theorem Chained.isChain (h : Chained expect before es sum) : es.IsChain Follows := by
  induction h with
  | nil => exact .nil
  | cons cum _ _ rest ih =>
    cases rest with
    | nil => exact .singleton _
    | cons cum' _ after' _ => exact List.isChain_cons_cons.2 ⟨⟨after' _ rfl, by rw [cum', cum]⟩, ih⟩

theorem Chained.positive (h : Chained expect before es sum) : ∀ e ∈ es, 1 ≤ e.count.toNat := by
  induction h with
  | nil => simp
  | cons _ count _ _ ih => exact List.forall_mem_cons.2 ⟨count, ih⟩

theorem Chained.closed (h : Chained expect before es sum) :
    ∀ e, es.getLast? = some e → sum = e.cum.toNat + e.count.toNat := by
  induction h with
  | nil => nofun
  | cons cum _ _ rest ih =>
    cases rest with
    | nil =>
      rintro e ⟨⟩
      exact congrArg (· + _) cum.symm
    | cons => exact fun e he => ih e (by rwa [List.getLast?_cons_cons] at he)

theorem validTable_of_chained {total : Nat} (h : Chained 0 none ftab total) : ValidTable ftab total := by
  have hfollows : ∀ i a b, ftab[i]? = some a → ftab[i + 1]? = some b → Follows a b := fun i a b ha hb => by
    obtain ⟨_, rfl⟩ := List.getElem?_eq_some_iff.1 ha
    obtain ⟨hi, rfl⟩ := List.getElem?_eq_some_iff.1 hb
    exact List.isChain_iff_getElem.1 h.isChain i hi
  refine ⟨fun i a b ha hb => (hfollows i a b ha hb).1, h.positive, fun e he => ?_,
    fun i a b ha hb => (hfollows i a b ha hb).2, h.closed, fun hnil => ?_⟩
  · cases h with
    | nil => cases he
    | cons cum =>
      cases he
      exact cum
  · subst hnil
    cases h
    rfl

/-- Settles O23: the table passes where its entries are chained from 0 to the total, which is to be valid. -/
theorem validTablesPass : Obligations.ValidTablesPass := fun _ =>
  tablePasses_iff_chained.trans (and_congr_right fun _ => ⟨validTable_of_chained, chained_of_validTable⟩)

/-- Below the bound a table that is not valid fails the check at an entry or at the sum (R202). -/
theorem tableCheck_of_not_valid (hT : s.total.toNat < maxTotal) (h : ¬ ValidTable s.ftab s.total.toNat) :
    ∃ k ≤ s.ftab.length, tableCheck s = .error (.raise .modelError k) := by
  by_cases hok : ∀ j < s.ftab.length, EntryOk s.ftab j
  · have hcheck := tableCheck_of_entriesOk hT hok
    split at hcheck
    · exact ⟨_, le_rfl, hcheck⟩
    · exact absurd ((validTablesPass s).1 hcheck).2 h
  · push Not at hok
    obtain ⟨i, ⟨hi, hbad⟩, hfirst⟩ := Nat.findX hok
    exact ⟨i, hi.le, tableCheck_of_first_bad hT hi hbad fun j hj => by_contra fun hj' => hfirst j hj ⟨by omega, hj'⟩⟩

end Sys2Proof.Proofs
end

section
/-! PROOF. FmBuildBuilds, FmBuildRefuses, FmBuildDeterministic: the ids of the table are the symbols that occur, each once and in
ascending order, and its entries are chained from 0 to the number of symbols (R200, R201, R206). -/

namespace Sys2Proof.Proofs

open Sys2Proof.Machine Sys2Proof.Safety

/-! ### Distinct elements in order -/

section
variable {α : Type} {before : α → α → Bool} (htrans : ∀ {a b c}, before a b → before b c → before a c)
  (hconnex : ∀ {a b}, ¬ before a b → ¬ before b a → a = b)

include hconnex

theorem mem_insertDistinct {a x : α} {l : List α} : x ∈ insertDistinct before a l ↔ x = a ∨ x ∈ l := by
  induction l with
  | nil => simp [insertDistinct]
  | cons b l ih =>
    rw [insertDistinct]
    split
    · exact List.mem_cons
    · split
      · rw [List.mem_cons, ih, List.mem_cons, or_left_comm]
      · obtain rfl := hconnex ‹_› ‹_›
        simp

theorem mem_sortDistinct {x : α} {l : List α} : x ∈ sortDistinct before l ↔ x ∈ l := by
  induction l with
  | nil => rfl
  | cons a l ih =>
    rw [List.mem_cons, ← ih]
    exact mem_insertDistinct hconnex

include htrans

theorem pairwise_insertDistinct {a : α} {l : List α} (h : l.Pairwise (before · ·)) :
    (insertDistinct before a l).Pairwise (before · ·) := by
  induction h with
  | nil => exact List.pairwise_singleton _ _
  | @cons b l hb hl ih =>
    rw [insertDistinct]
    split
    · rename_i hab
      exact .cons (List.forall_mem_cons.2 ⟨hab, fun c hc => htrans hab (hb c hc)⟩) (.cons hb hl)
    · split
      · rename_i hba
        refine .cons (fun c hc => ?_) ih
        rcases (mem_insertDistinct hconnex).1 hc with rfl | hc
        · exact hba
        · exact hb c hc
      · exact .cons hb hl

theorem pairwise_sortDistinct (l : List α) : (sortDistinct before l).Pairwise (before · ·) := by
  induction l with
  | nil => exact .nil
  | cons a l ih => exact pairwise_insertDistinct (before := before) htrans hconnex ih

end

/-! ### The ids of the table (R201) -/

variable {s t : State} {syms syms' : List Sym} {e : Entry} {x : Sym}

/-- Ids in ascending numeric order. -/
abbrev Ascending (ids : List Sym) : Prop := ids.Pairwise fun a b => a.toNat < b.toNat

theorem id_trans {a b c : Sym} (hab : decide (a.toNat < b.toNat) = true) (hbc : decide (b.toNat < c.toNat) = true) :
    decide (a.toNat < c.toNat) = true :=
  decide_eq_true ((of_decide_eq_true hab).trans (of_decide_eq_true hbc))

theorem id_connex {a b : Sym} (hab : ¬ decide (a.toNat < b.toNat) = true) (hba : ¬ decide (b.toNat < a.toNat) = true) : a = b := by
  rw [decide_eq_true_iff] at hab hba
  exact BitVec.eq_of_toNat_eq (by omega)

theorem mem_distinctIds : x ∈ distinctIds syms ↔ x ∈ syms := mem_sortDistinct id_connex

theorem distinctIds_ascending (syms : List Sym) : Ascending (distinctIds syms) :=
  (pairwise_sortDistinct (before := fun a b : Sym => decide (a.toNat < b.toNat)) id_trans id_connex syms).imp of_decide_eq_true

theorem distinctIds_perm_dedup (syms : List Sym) : (distinctIds syms).Perm syms.dedup := by
  have hnodup : (distinctIds syms).Nodup := (distinctIds_ascending syms).imp fun hab heq => hab.ne (by rw [heq])
  exact (List.perm_ext_iff_of_nodup hnodup syms.nodup_dedup).2 fun x => mem_distinctIds.trans List.mem_dedup.symm

/-- Ascending lists of the same ids are equal. -/
theorem distinctIds_congr (h : syms.Perm syms') : distinctIds syms = distinctIds syms' := by
  have hperm := (distinctIds_perm_dedup syms).trans (h.dedup.trans (distinctIds_perm_dedup syms').symm)
  exact hperm.eq_of_pairwise (fun _ _ _ _ hab hba => absurd hab hba.not_gt) (distinctIds_ascending _) (distinctIds_ascending _)

/-! ### The entries (R201) -/

theorem countSum_eq_sum (syms ids : List Sym) : countSum syms ids = (ids.map fun x => syms.count x).sum := by
  induction ids with
  | nil => rfl
  | cons d ds ih => rw [countSum, ih, List.map_cons, List.sum_cons]

/-- Each symbol is counted with its id. -/
theorem countSum_distinctIds (syms : List Sym) : countSum syms (distinctIds syms) = syms.length := by
  rw [countSum_eq_sum, ((distinctIds_perm_dedup syms).map _).sum_eq, List.sum_map_count_dedup_eq_length]

theorem count_toNat (h : syms.length < 2 ^ 64) (x : Sym) : (BitVec.ofNat 64 (syms.count x)).toNat = syms.count x := by
  rw [BitVec.toNat_ofNat, Nat.mod_eq_of_lt (List.count_le_length.trans_lt h)]

theorem buildEntries_chained : ∀ {ids : List Sym} {running : Nat} {before : Option Sym}, Ascending ids → (∀ x ∈ ids, x ∈ syms) →
    (∀ p ∈ before, ∀ x ∈ ids, p.toNat < x.toNat) → syms.length < 2 ^ 64 → running + countSum syms ids < 2 ^ 64 →
    Chained running before (buildEntries syms running ids) (running + countSum syms ids)
  | [], _, _, _, _, _, _, _ => .nil
  | d :: ds, running, before, hasc, hmem, hbefore, hlen, hsum => by
    obtain ⟨hd, hds⟩ := List.pairwise_cons.1 hasc
    have hcount := count_toNat hlen d
    rw [countSum, ← Nat.add_assoc] at hsum ⊢
    refine .cons ?_ ?_ (fun p hp => hbefore p hp d (.head _)) ?_
    · exact (BitVec.toNat_ofNat ..).trans (Nat.mod_eq_of_lt (by omega))
    · rw [hcount]
      exact List.count_pos_iff.2 (hmem d (.head _))
    · rw [hcount]
      refine buildEntries_chained hds (fun x hx => hmem x (.tail _ hx)) ?_ hlen hsum
      rintro _ ⟨⟩
      exact hd

theorem buildEntries_ids : ∀ {ids : List Sym} {running : Nat}, (buildEntries syms running ids).map (·.sym) = ids
  | [], _ => rfl
  | _ :: _, _ => congrArg (List.cons _) buildEntries_ids

theorem count_of_mem_buildEntries : ∀ {ids : List Sym} {running : Nat}, e ∈ buildEntries syms running ids →
    e.count = BitVec.ofNat 64 (syms.count e.sym)
  | [], _, h => nomatch h
  | _ :: _, _, h => by
    rcases List.mem_cons.1 h with rfl | h
    · rfl
    · exact count_of_mem_buildEntries h

/-- The entries depend on the numbers of occurrences alone. -/
theorem buildEntries_congr (h : syms.Perm syms') : ∀ (ids : List Sym) (running : Nat),
    buildEntries syms running ids = buildEntries syms' running ids
  | [], _ => rfl
  | d :: ds, running => by rw [buildEntries, buildEntries, h.count_eq, buildEntries_congr h ds]

/-! ### `FM.BUILD` -/

/-- The state in which `FM.BUILD` completes (R201). -/
def fmBuilt (s : State) : State :=
  { s with ftab := buildEntries s.sym 0 (distinctIds s.sym), total := BitVec.ofNat 64 s.sym.length }

theorem distinctIds_length (syms : List Sym) : (distinctIds syms).length = syms.dedup.length :=
  (distinctIds_perm_dedup syms).length_eq

theorem fmBuildBody_of_maxTotal_le (h : maxTotal ≤ s.sym.length) :
    fmBuildBody s = .error (.raise .precisionOverflow s.sym.length) := if_pos h

/-- Below the bound `FM.BUILD` completes where the table holds the distinct symbols. -/
theorem fmBuildBody_of_lt (h : s.sym.length < maxTotal) : fmBuildBody s =
    if s.capFtab < s.sym.dedup.length then .error (.raise .capacityFault resFtab) else .ok (fmBuilt s) := by
  rw [fmBuildBody, if_neg (Nat.not_le.2 h), distinctIds_length, countSum_distinctIds, fmBuilt]

theorem fmBuildBody_ok_iff : fmBuildBody s = .ok t ↔
    s.sym.length < maxTotal ∧ s.sym.dedup.length ≤ s.capFtab ∧ t = fmBuilt s := by
  rcases Nat.lt_or_ge s.sym.length maxTotal with hlt | hge
  · rw [fmBuildBody_of_lt hlt]
    split
    · rename_i hfull
      simp [hfull.not_ge]
    · rename_i hfits
      simp [hlt, Nat.le_of_not_lt hfits, eq_comm]
  · simp [fmBuildBody_of_maxTotal_le hge, Nat.not_lt.2 hge]

theorem length_lt_pow_of_lt_maxTotal (h : s.sym.length < maxTotal) : s.sym.length < 2 ^ 64 := by
  rw [maxTotal_eq] at h
  omega

theorem fmBuilt_total (h : s.sym.length < maxTotal) : (fmBuilt s).total.toNat = s.sym.length :=
  (BitVec.toNat_ofNat ..).trans (Nat.mod_eq_of_lt (length_lt_pow_of_lt_maxTotal h))

theorem fmBuilt_valid (h : s.sym.length < maxTotal) : ValidTable (fmBuilt s).ftab (fmBuilt s).total.toNat := by
  have hlen := length_lt_pow_of_lt_maxTotal h
  have hsum : 0 + countSum s.sym (distinctIds s.sym) = s.sym.length := by rw [Nat.zero_add, countSum_distinctIds]
  have hchained := buildEntries_chained (before := none) (distinctIds_ascending s.sym) (fun x => mem_distinctIds.1) nofun hlen
    (hsum.trans_lt hlen)
  rw [hsum] at hchained
  rw [fmBuilt_total h]
  exact validTable_of_chained hchained

/-- The symbols of the entries are those that occur. -/
theorem fmBuilt_symbols : (∃ e ∈ (fmBuilt s).ftab, e.sym = x) ↔ x ∈ s.sym := by
  rw [← List.mem_map, fmBuilt, buildEntries_ids, mem_distinctIds]

theorem fmBuilt_count (h : s.sym.length < maxTotal) (he : e ∈ (fmBuilt s).ftab) : e.count.toNat = s.sym.count e.sym := by
  rw [count_of_mem_buildEntries he, count_toNat (length_lt_pow_of_lt_maxTotal h)]

/-- Settles O24: the entries are chained, so valid, and their symbols are the distinct ids. -/
theorem fmBuildBuilds : Obligations.FmBuildBuilds := by
  unfold Obligations.FmBuildBuilds
  intro s hat hlt hcap
  refine ⟨fmBuilt s, ?_, rfl, fmBuilt_total hlt, fmBuilt_valid hlt, fun e he => ?_, fun x => fmBuilt_symbols.2⟩
  · exact accept_of_ok hat rfl (fmBuildBody_ok_iff.2 ⟨hlt, hcap, rfl⟩)
  · exact ⟨fmBuilt_symbols.1 ⟨e, he, rfl⟩, fmBuilt_count hlt he⟩

/-- Settles O25: the bound is tested before the capacity. -/
theorem fmBuildRefuses : Obligations.FmBuildRefuses := by
  unfold Obligations.FmBuildRefuses
  refine fun s hat => ⟨fun hmax => ?_, fun hlt hfull => ?_⟩
  · exact accept_of_raise hat rfl (fmBuildBody_of_maxTotal_le hmax)
  · exact accept_of_raise hat rfl ((fmBuildBody_of_lt hlt).trans (if_pos hfull))

/-- Settles O26: ids, counts and length are those of every permutation of the symbols. -/
theorem fmBuildDeterministic : Obligations.FmBuildDeterministic := by
  unfold Obligations.FmBuildDeterministic
  intro s s' t t' hat hat' hperm ht ht' hready
  obtain ⟨hlt, hcap, rfl⟩ := fmBuildBody_ok_iff.1 (body_of_next hat ht hready)
  refine ⟨fun hcfg => ?_, fun hready' => ?_⟩
  · have hcap' : s'.sym.dedup.length ≤ s'.capFtab := by
      rwa [← hperm.dedup.length_eq, State.capFtab, ← hcfg]
    have hrun : exec .fmBuild s' = .next (fmBuilt s') :=
      accept_of_ok hat' rfl (fmBuildBody_ok_iff.2 ⟨hperm.length_eq ▸ hlt, hcap', rfl⟩)
    obtain rfl := Host.Outcome.next.inj (hrun.symm.trans ht')
    exact hat'.1
  · obtain ⟨-, -, rfl⟩ := fmBuildBody_ok_iff.1 (body_of_next hat' ht' hready')
    constructor
    · rw [fmBuilt, fmBuilt, distinctIds_congr hperm, buildEntries_congr hperm]
    · rw [fmBuilt, fmBuilt, hperm.length_eq]

end Sys2Proof.Proofs
end

section
/-! PROOF. BinarySearchAgrees: the ranges of a table that passes follow one another, so a target lies in one at most, and the binary
search keeps that one between its bounds (R204). -/

namespace Sys2Proof.Proofs

open Sys2Proof.Machine Sys2Proof.Safety

variable {s : State} {ftab es : List Entry} {e : Entry} {target expect sum k : Nat} {before : Option Sym}

/-! ### Ranges -/

theorem inRange_iff : inRange e target = true ↔ e.cum.toNat ≤ target ∧ target < e.cum.toNat + e.count.toNat := by
  simp [inRange]

/-- The range of an entry ends where the others after it have yet to begin. -/
abbrev RangesInOrder (ftab : List Entry) : Prop := ftab.Pairwise fun a b => a.cum.toNat + a.count.toNat ≤ b.cum.toNat

theorem Chained.rangesInOrder (h : Chained expect before es sum) : RangesInOrder es := by
  induction h with
  | nil => exact .nil
  | cons cum _ _ rest ih => exact .cons (fun b hb => cum ▸ (rest.after_all b hb).1) ih

theorem rangesInOrder_of_passes (h : TablePasses s) : RangesInOrder s.ftab := (tablePasses_iff_chained.1 h).2.rangesInOrder

/-- A target lies in the range of one entry at most. -/
theorem RangesInOrder.index_unique (h : RangesInOrder ftab) {i j : Nat} (hi : i < ftab.length) (hj : j < ftab.length)
    (hri : inRange ftab[i] target = true) (hrj : inRange ftab[j] target = true) : i = j := by
  have horder := List.pairwise_iff_getElem.1 h
  rw [inRange_iff] at hri hrj
  rcases Nat.lt_trichotomy i j with hlt | heq | hgt
  · have := horder i j hi hj hlt
    omega
  · exact heq
  · have := horder j i hj hi hgt
    omega

theorem not_inRange_of_total_le (h : TablePasses s) (ht : s.total.toNat ≤ target) (he : e ∈ s.ftab) :
    ¬ inRange e target = true := by
  obtain ⟨-, hend⟩ := ((tableCheck_sound s).answer h).2 e he
  rw [inRange_iff]
  omega

/-! ### The binary search -/

/-- What the search answers is the index of an entry whose range holds the target. -/
theorem findCumBinary_inRange : ∀ {fuel lo hi : Nat}, findCumBinary ftab target fuel lo hi = some k →
    ∃ e ∈ ftab[k]?, inRange e target = true
  | 0, _, _, h => nomatch h
  | fuel + 1, lo, hi, h => by
    rw [findCumBinary] at h
    split at h
    · split at h
      · cases h
      · rename_i e he
        split at h
        · exact findCumBinary_inRange h
        · split at h
          · exact findCumBinary_inRange h
          · obtain rfl := Option.some.inj h
            exact ⟨e, he, inRange_iff.2 ⟨by omega, by omega⟩⟩
    · cases h

/-- The search finds the entry that lies between its bounds. -/
theorem findCumBinary_of_inRange (horder : RangesInOrder ftab) (hk : k < ftab.length) (hr : inRange ftab[k] target = true) :
    ∀ {fuel lo hi : Nat}, lo ≤ k → k < hi → hi ≤ ftab.length → hi - lo < fuel →
      findCumBinary ftab target fuel lo hi = some k
  | 0, _, _, _, _, _, hfuel => absurd hfuel (Nat.not_lt_zero _)
  | fuel + 1, lo, hi, hlo, hhi, hlen, hfuel => by
    have hmid : (lo + hi) / 2 < ftab.length := by omega
    have hranges := List.pairwise_iff_getElem.1 horder
    obtain ⟨hcum, hend⟩ := inRange_iff.1 hr
    rw [findCumBinary, if_pos (by omega), List.getElem?_eq_getElem hmid]
    rcases Nat.lt_trichotomy ((lo + hi) / 2) k with hlt | heq | hgt
    · have hbefore := hranges _ k hmid hk hlt
      refine (if_neg (by omega)).trans ((if_pos (by omega)).trans ?_)
      exact findCumBinary_of_inRange horder hk hr (by omega) hhi hlen (by omega)
    · simp only [heq]
      rw [if_neg (by omega), if_neg (by omega)]
    · have hafter := hranges k _ hk hmid hgt
      refine (if_pos (by omega)).trans ?_
      exact findCumBinary_of_inRange horder hk hr hlo (by omega) (by omega) (by omega)

/-- Settles O27: a target below the total lies in one range, and the others in none. -/
theorem binarySearchAgrees : Obligations.BinarySearchAgrees := by
  unfold Obligations.BinarySearchAgrees
  intro s target htab
  refine ⟨fun ht => ?_, fun ht => ⟨?_, ?_⟩⟩
  · obtain ⟨e, he, hr⟩ := exists_inRange htab ht
    obtain ⟨k, hk, rfl⟩ := List.getElem_of_mem he
    have horder := rangesInOrder_of_passes htab
    refine ⟨k, _, findCumBinary_of_inRange horder hk hr (by omega) hk le_rfl (by omega), List.getElem?_eq_getElem hk,
      findCum_of_inRange htab he hr, hr, fun j f hf hrf => ?_⟩
    obtain ⟨hj, rfl⟩ := List.getElem?_eq_some_iff.1 hf
    exact horder.index_unique hj hk hrf hr
  · refine Option.eq_none_iff_forall_ne_some.2 fun k hk => ?_
    obtain ⟨e, he, hr⟩ := findCumBinary_inRange hk
    exact not_inRange_of_total_le htab ht (List.mem_of_getElem? he) hr
  · exact List.find?_eq_none.2 fun e he => not_inRange_of_total_le htab ht he

end Sys2Proof.Proofs
end

section
/-! PROOF. CodingRefusesBadTables: every command that codes checks the table before it does anything else (R171, R174, R175, R178,
R261). -/

namespace Sys2Proof.Proofs

open Sys2Proof.Machine Sys2Proof.Safety

variable {s : State} {stop : Stop}

theorem encBeginBody_of_refused (h : tableCheck s = .error stop) : encBeginBody s = .error stop := bind_error.2 (.inl h)

theorem encRunBody_of_refused (h0 : s.sym ≠ []) (h : tableCheck s = .error stop) : encRunBody s = .error stop := by
  rw [encRunBody_of_ne_nil h0, encBeginBody_of_refused h]
  rfl

theorem decBeginBody_of_refused (h : tableCheck s = .error stop) : decBeginBody s = .error stop := bind_error.2 (.inl h)

theorem decRunBody_of_refused (h : tableCheck s = .error stop) : decRunBody s = .error stop := bind_error.2 (.inl h)

theorem decodeBody_of_refused (h : tableCheck s = .error stop) : decodeBody s = .error stop :=
  bind_error.2 (.inl (decRunBody_of_refused h))

/-- Settles O30: the check refuses the table, and with it the body of each command. -/
theorem codingRefusesBadTables : Obligations.CodingRefusesBadTables := by
  unfold Obligations.CodingRefusesBadTables
  intro s i d hat hi
  have hraise {x : Cause} {info : Nat} (h : tableCheck s = .error (.raise x info)) :
      exec i s = .next (faultEntry x info d s) := by
    rcases hi with ⟨rfl, rfl⟩ | ⟨rfl, h0, rfl⟩ | ⟨rfl, rfl⟩ | ⟨rfl, rfl⟩ | ⟨rfl, rfl⟩
    · exact accept_of_raise hat rfl (encBeginBody_of_refused h)
    · exact accept_of_raise hat rfl (encRunBody_of_refused h0 h)
    · exact accept_of_raise hat rfl (decBeginBody_of_refused h)
    · exact accept_of_raise hat rfl (decRunBody_of_refused h)
    · exact accept_of_raise hat rfl (decodeBody_of_refused h)
  refine ⟨fun hT => hraise (tableCheck_of_maxTotal_le hT), fun hT hbad => ?_⟩
  obtain ⟨k, hk, hcheck⟩ := tableCheck_of_not_valid hT hbad
  exact ⟨k, hk, hraise hcheck⟩

end Sys2Proof.Proofs
end

section
/-! PROOF. TokenCounts: a token stands at a place exactly where a run of word characters begins, and is the whole run (R231). -/

namespace Sys2Proof.Proofs

open Sys2Proof.Machine Sys2Proof.Safety

variable {before run rest w : List Byte} {c : Byte}

/-! ### Places of the input -/

/-- The bytes end inside a run of word characters. -/
def endsInRun (l : List Byte) : Bool := l.getLast?.any isWord

@[simp] theorem endsInRun_nil : endsInRun [] = false := rfl

@[simp] theorem endsInRun_concat (l : List Byte) (c : Byte) : endsInRun (l ++ [c]) = isWord c := by simp [endsInRun]

/-- The left edge of a run is where no run is open (R231, R236). -/
theorem leftEdge_append (before rest : List Byte) : leftEdge (before ++ rest) before.length = !endsInRun before := by
  rcases List.eq_nil_or_concat' before with rfl | ⟨l, c, rfl⟩ <;> simp [leftEdge]

/-- The right edge of a run is where a word may end (R231, R236). -/
theorem rightEdge_append (before rest : List Byte) (n : Nat) :
    rightEdge (before ++ rest) (before.length + n) = endsWord (rest.drop n) := by
  rw [rightEdge, List.getElem?_append_right (Nat.le_add_right _ _), Nat.add_sub_cancel_left, ← List.head?_drop]
  cases rest.drop n <;> simp [endsWord]

/-- `w` is the run at the head of a list where its bytes stand there, word characters all, and it ends there. -/
theorem takeWhile_isWord_eq_iff :
    rest.takeWhile isWord = w ↔ w.all isWord = true ∧ rest.take w.length = w ∧ endsWord (rest.drop w.length) = true := by
  induction rest generalizing w with
  | nil => cases w <;> simp [endsWord]
  | cons c cs ih =>
    cases w with
    | nil => simp [List.takeWhile_cons, endsWord]
    | cons d ds =>
      by_cases hc : isWord c = true
      · rw [List.takeWhile_cons_of_pos hc, List.cons.injEq, ih]
        simp only [List.all_cons, List.length_cons, List.take_succ_cons, List.drop_succ_cons, List.cons.injEq, Bool.and_eq_true]
        constructor
        · rintro ⟨rfl, hall, htake, hend⟩
          exact ⟨⟨hc, hall⟩, ⟨rfl, htake⟩, hend⟩
        · rintro ⟨⟨-, hall⟩, ⟨hcd, htake⟩, hend⟩
          exact ⟨hcd, hall, htake, hend⟩
      · rw [List.takeWhile_cons_of_neg hc]
        refine iff_of_false nofun ?_
        rintro ⟨hall, htake, -⟩
        obtain ⟨rfl, -⟩ := List.cons.inj htake
        exact hc (List.all_eq_true.1 hall c (.head _))

/-- A token is the whole run at its place, where none is open before (R231). -/
theorem tokenAt_append (before rest w : List Byte) : tokenAt (before ++ rest) before.length w =
    (!endsInRun before && !(rest.takeWhile isWord).isEmpty && rest.takeWhile isWord == w) := by
  rw [Bool.eq_iff_iff]
  simp only [tokenAt, leftEdge_append, rightEdge_append, List.drop_left, Bool.and_eq_true, beq_iff_eq]
  constructor
  · rintro ⟨⟨⟨⟨hne, hall⟩, htake⟩, hleft⟩, hright⟩
    have hrun := takeWhile_isWord_eq_iff.2 ⟨hall, htake, hright⟩
    exact ⟨⟨hleft, hrun ▸ hne⟩, hrun⟩
  · rintro ⟨⟨hleft, hne⟩, hrun⟩
    obtain ⟨hall, htake, hright⟩ := takeWhile_isWord_eq_iff.1 hrun
    exact ⟨⟨⟨⟨hrun ▸ hne, hall⟩, htake⟩, hleft⟩, hright⟩

/-! ### Counting by position -/

/-- The places of `rest` at which the token is `w`, the bytes `before` standing before it. -/
def tokensFrom (before rest w : List Byte) : Nat :=
  (List.range rest.length).countP fun i => tokenAt (before ++ rest) (before.length + i) w

theorem occurrences_eq_tokensFrom (input w : List Byte) : occurrences input w = tokensFrom [] input w := by
  simp [occurrences, tokensFrom, List.countP_eq_length_filter]

@[simp] theorem tokensFrom_nil (before w : List Byte) : tokensFrom before [] w = 0 := rfl

theorem tokensFrom_cons (before : List Byte) (c : Byte) (cs w : List Byte) :
    tokensFrom before (c :: cs) w =
      tokensFrom (before ++ [c]) cs w + if tokenAt (before ++ c :: cs) before.length w then 1 else 0 := by
  rw [tokensFrom, List.length_cons, List.range_succ_eq_map, List.countP_cons, List.countP_map, tokensFrom]
  simp [Function.comp_def, Nat.add_assoc, Nat.add_comm 1]

/-- An open run goes on as far as the word characters do, and closes as one run; the tokens after it are counted by position. -/
theorem wordRuns_count (hrun : endsInRun before = !run.isEmpty) : (wordRuns run rest).count w =
    tokensFrom before rest w + if !run.isEmpty && run ++ rest.takeWhile isWord == w then 1 else 0 := by
  induction rest generalizing before run with
  | nil => cases run <;> simp [wordRuns, List.count_singleton]
  | cons c cs ih =>
    rw [tokensFrom_cons, tokenAt_append, hrun]
    by_cases hc : isWord c = true
    · have hopen := ih (before := before ++ [c]) (run := run ++ [c]) (by simp [hc])
      rw [wordRuns, if_pos hc, hopen, List.takeWhile_cons_of_pos hc]
      cases run <;> simp
    · have hclosed := ih (before := before ++ [c]) (run := []) (by simp [hc])
      rw [wordRuns, if_neg hc, List.takeWhile_cons_of_neg hc]
      cases run <;> simp [hclosed, List.count_cons]

/-- Settles O41: the scan closes one run at each place where a token stands. -/
theorem tokenCounts : Obligations.TokenCounts := by
  unfold Obligations.TokenCounts
  intro c input w
  have hruns : (wordRuns [] input).count w = occurrences input w := by
    rw [occurrences_eq_tokensFrom, wordRuns_count (before := []) rfl]
    rfl
  rw [tokens]
  split
  · rw [List.count_filter (by simpa using ‹_›), hruns]
  · exact List.count_eq_zero.2 fun hw => ‹¬ _› (of_decide_eq_true (List.mem_filter.1 hw).2)

end Sys2Proof.Proofs
end

section
/-! PROOF. DxFindBuilds: with tokens counted by position, the model's filter and ranking are those of the rules (R233, R234), and
the words kept are the first of a list in order. -/

namespace Sys2Proof.Proofs

open Sys2Proof.Machine Sys2Proof.Safety

variable {c : Config} {input w a b : List Byte} {toks : List (List Byte)} {s : State}

/-! ### The ranking (R234) -/

/-- The order of the bytes is the lexicographic order of their numbers. -/
theorem bytesBefore_iff : ∀ {a b : List Byte}, bytesBefore a b = true ↔ a.map (·.toNat) < b.map (·.toNat)
  | [], [] => by simp [bytesBefore]
  | [], _ :: _ => by simp [bytesBefore]
  | _ :: _, [] => by simp [bytesBefore]
  | x :: as, y :: bs => by
    rw [bytesBefore, List.map_cons, List.map_cons, List.cons_lt_cons_iff, ← bytesBefore_iff]
    split
    · simp [*]
    · rename_i hge
      split
      · rename_i hgt
        exact iff_of_false nofun fun h => h.elim hge fun htie => hgt.ne' htie.1
      · rename_i hle
        simp [Nat.le_antisymm (Nat.not_lt.1 hle) (Nat.not_lt.1 hge)]

theorem rankedBefore_iff : rankedBefore toks a b = true ↔
    savings toks b < savings toks a ∨ (savings toks a = savings toks b ∧ a.map (·.toNat) < b.map (·.toNat)) := by
  simp [rankedBefore, bytesBefore_iff]

theorem rankedBefore_trans {x y z : List Byte} (hxy : rankedBefore toks x y = true) (hyz : rankedBefore toks y z = true) :
    rankedBefore toks x z = true := by
  rw [rankedBefore_iff] at *
  rcases hxy with hxy | ⟨hxy, hlt⟩
  · exact .inl (by omega)
  · rcases hyz with hyz | ⟨hyz, hlt'⟩
    · exact .inl (by omega)
    · exact .inr ⟨hxy.trans hyz, hlt.trans hlt'⟩

theorem rankedBefore_connex (hab : ¬ rankedBefore toks a b = true) (hba : ¬ rankedBefore toks b a = true) : a = b := by
  rw [rankedBefore_iff] at hab hba
  push Not at hab hba
  have hsav : savings toks a = savings toks b := le_antisymm hab.1 hba.1
  have hbytes := le_antisymm (hba.2 hsav.symm) (hab.2 hsav)
  exact List.map_injective_iff.2 (fun _ _ => BitVec.eq_of_toNat_eq) hbytes

/-! ### The words that qualify (R233) -/

/-- Of a word long enough the savings are counted by position. -/
theorem savings_tokens (h : c.dictMinWordLen ≤ w.length) : savings (tokens c input) w = w.length * occurrences input w := by
  rw [savings, tokenCounts c input w, if_pos h]

theorem mem_rankedWords : w ∈ rankedWords c input ↔ Qualifies c input w := by
  rw [rankedWords, mem_sortDistinct rankedBefore_connex, List.mem_filter, qualifies, Bool.and_eq_true, decide_eq_true_iff,
    decide_eq_true_iff]
  constructor
  · rintro ⟨hmem, hfreq, hsav⟩
    have hlen : c.dictMinWordLen ≤ w.length := of_decide_eq_true (List.mem_filter.1 hmem).2
    rw [savings_tokens hlen] at hsav
    rw [tokenCounts c input w, if_pos hlen] at hfreq
    exact ⟨hlen, hfreq, hsav⟩
  · rintro ⟨hlen, hfreq, hsav⟩
    rw [← savings_tokens hlen] at hsav
    have hcount := tokenCounts c input w
    rw [if_pos hlen] at hcount
    rw [← hcount] at hfreq
    exact ⟨List.count_pos_iff.1 (by omega), hfreq, hsav⟩

theorem rankedBefore_tokens_iff (ha : Qualifies c input a) (hb : Qualifies c input b) :
    rankedBefore (tokens c input) a b = true ↔ RankedBefore input a b := by
  rw [rankedBefore_iff, savings_tokens ha.1, savings_tokens hb.1]

/-- The qualifying words stand in the ranking's order. -/
theorem rankedWords_ranked (c : Config) (input : List Byte) : (rankedWords c input).Pairwise (RankedBefore input) :=
  (pairwise_sortDistinct (before := rankedBefore (tokens c input)) rankedBefore_trans rankedBefore_connex _).imp_of_mem
    fun ha hb => (rankedBefore_tokens_iff (mem_rankedWords.1 ha) (mem_rankedWords.1 hb)).1

theorem rankedWords_nodup (c : Config) (input : List Byte) : (rankedWords c input).Nodup :=
  by
  refine (rankedWords_ranked c input).imp fun hab heq => ?_
  subst heq
  exact hab.elim (lt_irrefl _) fun htie => lt_irrefl _ htie.2

/-! ### The dictionary (R235) -/

/-- What the first `n` elements of a list in order leave out comes after them all, and they are `n`. -/
theorem take_best {α : Type} {R : α → α → Prop} {l : List α} {x : α} {n : Nat} (hl : l.Pairwise R) (hx : x ∈ l)
    (hout : x ∉ l.take n) : (l.take n).length = n ∧ ∀ a ∈ l.take n, R a x := by
  rw [← List.take_append_drop n l] at hl hx
  have hdrop : x ∈ l.drop n := (List.mem_append.1 hx).resolve_left hout
  obtain ⟨-, -, hafter⟩ := List.pairwise_append.1 hl
  have hlong := List.length_pos_of_mem hdrop
  rw [List.length_drop] at hlong
  exact ⟨List.length_take_of_le (by omega), fun a ha => hafter a ha x hdrop⟩

theorem findDictionary_isDictionary (c : Config) (input : List Byte) : IsDictionary c input (findDictionary c input) := by
  have hranked := rankedWords_ranked c input
  rw [findDictionary]
  split
  · rename_i hshort
    exact ⟨fun _ => rfl, Nat.zero_le _, .nil, nofun, .nil, fun hlong => absurd hshort hlong.not_gt⟩
  · rename_i hlong
    exact {
      skipped := fun hshort => absurd hshort hlong
      few := List.length_take_le _ _
      distinct := (rankedWords_nodup c input).take
      qualifying := fun w hw => mem_rankedWords.1 (List.mem_of_mem_take hw)
      ranked := hranked.take
      best := fun _ w hq hout => take_best hranked (mem_rankedWords.2 hq) hout }

/-- A word that qualifies occurs in the input, so it is no longer than the input. -/
theorem length_le_of_qualifies (h : Qualifies c input w) : w.length ≤ input.length := by
  obtain ⟨-, hfreq, -⟩ := h
  obtain ⟨i, hi⟩ := List.exists_mem_of_length_pos (Nat.zero_lt_of_lt hfreq)
  have htoken := (List.mem_filter.1 hi).2
  simp only [tokenAt, Bool.and_eq_true, beq_iff_eq] at htoken
  obtain ⟨⟨⟨-, htake⟩, -⟩, -⟩ := htoken
  rw [← htake]
  exact (List.length_take_le' _ _).trans (List.drop_sublist i input).length_le

theorem dxFindBody_of_fits (h : dictFits s (findDictionary s.cfg s.ibuf) = true) :
    dxFindBody s = .ok { s with dict := findDictionary s.cfg s.ibuf } := if_pos h

theorem dxFindBody_of_not_fits (h : ¬ dictFits s (findDictionary s.cfg s.ibuf) = true) :
    dxFindBody s = .error (.raise .capacityFault resDict) := if_neg h

/-- Settles O42: `DX.FIND` leaves the first words of the ranking where they fit. -/
theorem dxFindBuilds : Obligations.DxFindBuilds := by
  unfold Obligations.DxFindBuilds
  intro s hat
  have hQ := findDictionary_isDictionary s.cfg s.ibuf
  have hcompletes (h : dictFits s (findDictionary s.cfg s.ibuf) = true) :
      exec .dxFind s = .next { s with dict := findDictionary s.cfg s.ibuf } := accept_of_ok hat rfl (dxFindBody_of_fits h)
  refine ⟨findDictionary s.cfg s.ibuf, hQ, fun hwords hbytes => ?_, fun hfull => ?_, fun hwords hbytes => ?_⟩
  · exact hcompletes ((dictFits_iff ..).2 ⟨hwords, hbytes⟩)
  · refine accept_of_raise hat rfl (dxFindBody_of_not_fits fun hfits => ?_)
    obtain ⟨hwords, hbytes⟩ := (dictFits_iff ..).1 hfits
    rcases hfull with hmany | ⟨w, hw, hlong⟩
    · exact absurd hmany hwords.not_gt
    · exact absurd hlong (hbytes w hw).not_gt
  · exact hcompletes ((dictFits_iff ..).2
      ⟨hQ.few.trans hwords, fun w hw => (length_le_of_qualifies (hQ.qualifying w hw)).trans hbytes⟩)

end Sys2Proof.Proofs
end

section
/-! PROOF. DxSubScans, DxExpExpands, DxExpInvertsDxSub: the scan cuts the input into pieces, each of which its symbol expands to
(R236, R238), so the expansion puts them together again (R240). -/

namespace Sys2Proof.Proofs

open Sys2Proof.Machine Sys2Proof.Safety

variable {dict : List (List Byte)} {before rest w : List Byte} {s : State} {x : Sym} {p : Sym × List Byte}
  {ps : List (Sym × List Byte)} {i k n : Nat}

/-! ### Matches (R236) -/

/-- A match at a place where no run is open and a word character stands. -/
theorem substAt_append (before rest w : List Byte) : substAt (before ++ rest) before.length w =
    (!endsInRun before && rest.head?.any isWord && matchesAt w rest) := by
  have hhead : (before ++ rest)[before.length]? = rest.head? := by
    rw [List.getElem?_append_right le_rfl, Nat.sub_self, List.head?_eq_getElem?]
  have hnonempty : w.isEmpty = !decide (1 ≤ w.length) := by cases w <;> simp
  have hinitial : (rest.take w.length == w) = w.isPrefixOf rest := by
    rw [Bool.eq_iff_iff, List.isPrefixOf_iff_prefix, beq_iff_eq, List.prefix_iff_eq_take, eq_comm]
  rw [substAt, leftEdge_append, rightEdge_append, hhead, List.drop_left, matchesAt, hnonempty, hinitial, Bool.not_not]
  ac_rfl

/-- A word that matches is not empty and begins what follows. -/
theorem append_of_substAt (h : substAt (before ++ rest) before.length w = true) : w ≠ [] ∧ ∃ tail, rest = w ++ tail := by
  simp only [substAt, List.drop_left, Bool.and_eq_true, beq_iff_eq] at h
  obtain ⟨⟨⟨⟨hne, -⟩, -⟩, htake⟩, -⟩ := h
  refine ⟨by simpa using hne, rest.drop w.length, ?_⟩
  conv_lhs => rw [← List.take_append_drop w.length rest, htake]

/-- The search tries the words from the first on and answers the first that matches. -/
theorem firstMatch_eq_some (h : firstMatch k dict rest = some (i, n)) : ∃ j w, i = k + j ∧ n = w.length ∧
    dict[j]? = some w ∧ matchesAt w rest = true ∧ ∀ m < j, ∀ v, dict[m]? = some v → matchesAt v rest = false := by
  induction dict generalizing k with
  | nil => cases h
  | cons v vs ih =>
    rw [firstMatch] at h
    split at h
    · rename_i hmatch
      cases h
      exact ⟨0, v, rfl, rfl, rfl, hmatch, nofun⟩
    · rename_i hno
      obtain ⟨j, w, hi, hn, hw, hmatch, hbefore⟩ := ih h
      refine ⟨j + 1, w, by omega, hn, hw, hmatch, fun m hm u hu => ?_⟩
      cases m with
      | zero =>
        cases hu
        exact Bool.eq_false_of_not_eq_true hno
      | succ m => exact hbefore m (by omega) u hu

theorem firstMatch_eq_none (h : firstMatch k dict rest = none) : ∀ v ∈ dict, matchesAt v rest = false := by
  induction dict generalizing k with
  | nil => nofun
  | cons v vs ih =>
    rw [firstMatch] at h
    split at h
    · cases h
    · exact List.forall_mem_cons.2 ⟨Bool.eq_false_of_not_eq_true ‹_›, ih h⟩

/-- The index and the length of the first word that matches where no run is open and a word character stands. -/
def wordAt (dict : List (List Byte)) (before rest : List Byte) : Option (Nat × Nat) :=
  if rest.head?.any isWord && !endsInRun before then firstMatch 0 dict rest else none

theorem wordAt_eq_some (h : wordAt dict before rest = some (k, n)) : ∃ w, dict[k]? = some w ∧ n = w.length ∧
    substAt (before ++ rest) before.length w = true ∧
    ∀ m < k, ∀ v, dict[m]? = some v → substAt (before ++ rest) before.length v = false := by
  rw [wordAt] at h
  split at h
  · rename_i hstart
    rw [Bool.and_comm] at hstart
    obtain ⟨j, w, rfl, hn, hw, hmatch, hbefore⟩ := firstMatch_eq_some h
    rw [Nat.zero_add]
    refine ⟨w, hw, hn, ?_, fun m hm v hv => ?_⟩
    · rw [substAt_append, hstart, hmatch, Bool.and_self]
    · rw [substAt_append, hbefore m hm v hv, Bool.and_false]
  · cases h

theorem wordAt_eq_none (h : wordAt dict before rest = none) :
    ∀ v ∈ dict, substAt (before ++ rest) before.length v = false := by
  intro v hv
  rw [substAt_append]
  rw [wordAt] at h
  split at h
  · rw [firstMatch_eq_none h v hv, Bool.and_false]
  · rename_i hno
    rw [Bool.and_comm] at hno
    rw [Bool.eq_false_of_not_eq_true hno, Bool.false_and]

/-! ### Pieces (R236) -/

/-- A piece of the input at place `i`: the first word of the dictionary that matches there, or one byte where none does. -/
abbrev IsPiece (dict : List (List Byte)) (input : List Byte) (i : Nat) (p : Sym × List Byte) : Prop :=
  (∃ k w, dict[k]? = some w ∧ p = (dictSymbol k, w) ∧ substAt input i w = true ∧
    ∀ m < k, ∀ v, dict[m]? = some v → substAt input i v = false) ∨
  (∃ b, p = (rawSymbol b, [b]) ∧ ∀ v ∈ dict, substAt input i v = false)

/-- The bytes of the pieces, put together. -/
abbrev bytesOf (ps : List (Sym × List Byte)) : List Byte := (ps.map Prod.snd).flatten

/-- The pieces cut `rest`, the bytes `before` standing before it. -/
structure Cuts (dict : List (List Byte)) (before rest : List Byte) (ps : List (Sym × List Byte)) : Prop where
  cover : rest = bytesOf ps
  few : ps.length ≤ rest.length
  pieces : ∀ j p, ps[j]? = some p → IsPiece dict (before ++ rest) (before.length + (bytesOf (ps.take j)).length) p

theorem Cuts.nil : Cuts dict before [] [] := ⟨rfl, le_rfl, nofun⟩

theorem Cuts.cons (hp : IsPiece dict (before ++ (p.2 ++ rest)) before.length p) (hne : p.2 ≠ [])
    (h : Cuts dict (before ++ p.2) rest ps) : Cuts dict before (p.2 ++ rest) (p :: ps) := by
  have hpos := List.length_pos_of_ne_nil hne
  refine ⟨by simp [bytesOf, h.cover], ?_, fun j q hq => ?_⟩
  · have := h.few
    rw [List.length_cons, List.length_append]
    omega
  · cases j with
    | zero =>
      cases hq
      exact hp
    | succ j =>
      have hrest := h.pieces j q hq
      simpa [bytesOf, Nat.add_assoc] using hrest

/-! ### The scan (R236) -/

/-- The scan passes over the bytes of a matched word. -/
theorem substScan_skip (w : List Byte) : substScan dict (endsInRun before) w.length (w ++ rest) =
    substScan dict (endsInRun (before ++ w)) 0 rest := by
  induction w generalizing before with
  | nil => simp
  | cons c cs ih =>
    have h := ih (before := before ++ [c])
    rw [endsInRun_concat, List.append_assoc] at h
    rw [List.cons_append, List.length_cons]
    cases hr : endsInRun before <;> exact h

/-- At a word the scan emits its symbol, else the byte, and goes on. -/
theorem substScan_cons (dict : List (List Byte)) (before : List Byte) (c : Byte) (cs : List Byte) :
    substScan dict (endsInRun before) 0 (c :: cs) =
      (wordAt dict before (c :: cs)).elim (rawSymbol c :: substScan dict (isWord c) 0 cs)
        fun (k, n) => dictSymbol k :: substScan dict (isWord c) (n - 1) cs := by
  rw [substScan, wordAt, List.head?_cons, Option.any_some]
  split
  · cases firstMatch 0 dict (c :: cs) <;> rfl
  · rfl

/-- The scan emits the symbol of a piece and goes on behind it. -/
theorem substScan_piece (dict : List (List Byte)) (before : List Byte) {l : List Byte} (hl : l ≠ []) :
    ∃ p rest, l = p.2 ++ rest ∧ p.2 ≠ [] ∧ IsPiece dict (before ++ l) before.length p ∧
      substScan dict (endsInRun before) 0 l = p.1 :: substScan dict (endsInRun (before ++ p.2)) 0 rest := by
  obtain ⟨c, cs, rfl⟩ := List.exists_cons_of_ne_nil hl
  rw [substScan_cons]
  match hword : wordAt dict before (c :: cs) with
  | none => exact ⟨(rawSymbol c, [c]), cs, rfl, nofun, .inr ⟨c, rfl, wordAt_eq_none hword⟩, by rw [endsInRun_concat]; rfl⟩
  | some (k, n) =>
    obtain ⟨w, hk, rfl, hw, hbefore⟩ := wordAt_eq_some hword
    obtain ⟨hne, tail, htail⟩ := append_of_substAt hw
    refine ⟨(dictSymbol k, w), tail, htail, hne, .inl ⟨k, w, hk, rfl, hw, hbefore⟩, congrArg (List.cons _) ?_⟩
    obtain ⟨d, ds, rfl⟩ := List.exists_cons_of_ne_nil hne
    obtain ⟨rfl, rfl⟩ := List.cons.inj htail
    have hskip := substScan_skip (dict := dict) (before := before ++ [c]) (rest := tail) ds
    rwa [endsInRun_concat, List.append_assoc] at hskip

/-- The scan emits the symbols of pieces that cut what it reads. -/
theorem exists_cuts (dict : List (List Byte)) (before rest : List Byte) :
    ∃ ps, Cuts dict before rest ps ∧ ps.map Prod.fst = substScan dict (endsInRun before) 0 rest := by
  by_cases hrest : rest = []
  · subst hrest
    exact ⟨[], .nil, rfl⟩
  · obtain ⟨p, tail, rfl, hne, hp, hscan⟩ := substScan_piece dict before hrest
    obtain ⟨ps, hps, hsyms⟩ := exists_cuts dict (before ++ p.2) tail
    exact ⟨p :: ps, .cons hp hne hps, by rw [hscan, List.map_cons, hsyms]⟩
termination_by rest.length
decreasing_by
  subst_vars
  have := List.length_pos_of_ne_nil hne
  rw [List.length_append]
  omega

/-! ### `DX.SUB` (R237) -/

theorem dxSubBody_of_le (h : (substitute s.dict s.ibuf).length ≤ s.capSym) :
    dxSubBody s = .ok { s with sym := substitute s.dict s.ibuf } := if_neg h.not_gt

theorem dxSubBody_of_lt (h : s.capSym < (substitute s.dict s.ibuf).length) :
    dxSubBody s = .error (.raise .capacityFault resSym) := if_pos h

/-- Settles O43: the scan emits the symbols of pieces that cut the input. -/
theorem dxSubScans : Obligations.DxSubScans := by
  unfold Obligations.DxSubScans
  intro s hat
  obtain ⟨pieces, hcuts, hsyms⟩ := exists_cuts s.dict [] s.ibuf
  have hlen : pieces.length = (substitute s.dict s.ibuf).length := by rw [substitute, ← endsInRun_nil, ← hsyms, List.length_map]
  have hcompletes (h : pieces.length ≤ s.capSym) : exec .dxSub s = .next { s with sym := pieces.map Prod.fst } := by
    rw [hsyms]
    exact accept_of_ok hat rfl (dxSubBody_of_le (hlen ▸ h))
  refine ⟨pieces, hcuts.cover, hcuts.few, fun j p hp => ?_, hcompletes, fun hfull => ?_, fun hroom => ?_⟩
  · have hpiece := hcuts.pieces j p hp
    rwa [List.nil_append, List.length_nil, Nat.zero_add] at hpiece
  · exact accept_of_raise hat rfl (dxSubBody_of_lt (hlen ▸ hfull))
  · exact hcompletes (hcuts.few.trans hroom)

/-! ### `DX.EXP` (R238) -/

theorem expandSymbol_iff : expandSymbol dict x = some w ↔ Expands dict x w := by
  rw [expandSymbol, dictBase]
  by_cases hraw : x.toNat < 256
  · have hx : (x.setWidth 8).toNat = x.toNat := by rw [BitVec.toNat_setWidth, Nat.mod_eq_of_lt hraw]
    rw [Expands, if_pos hraw, if_pos hraw, Option.some.injEq, ← hx]
    exact eq_comm.trans (List.map_injective_iff.2 fun _ _ => BitVec.eq_of_toNat_eq).eq_iff.symm
  · rw [Expands, if_neg hraw, if_neg hraw]

/-- Symbols in range are expanded in order, unless their bytes are too many (R319). -/
theorem expandFrom_append {cap : Nat} {good more : List Sym} {words : List (List Byte)}
    (h : List.Forall₂ (Expands dict) good words) : ∀ {out : List Byte}, out.length ≤ cap →
    expandFrom dict cap out (good ++ more) =
      if cap < (out ++ words.flatten).length then .error (.raise .capacityFault resObuf)
      else expandFrom dict cap (out ++ words.flatten) more := by
  induction h with
  | nil =>
    intro out hout
    rw [List.flatten_nil, List.append_nil, if_neg hout.not_gt, List.nil_append]
  | @cons x w xs ws hx _ ih =>
    intro out hout
    rw [List.cons_append, expandFrom, expandSymbol_iff.2 hx, List.flatten_cons, ← List.append_assoc]
    dsimp only
    split
    · rename_i hfull
      rw [if_pos (by rw [List.length_append]; omega)]
    · exact ih (Nat.le_of_not_lt ‹_›)

/-- Settles O44: the symbols in range give their words, before anything that follows them is read. -/
theorem dxExpExpands : Obligations.DxExpExpands := by
  unfold Obligations.DxExpExpands
  intro s good rest words hat hsym hwords
  have hexpand := expandFrom_append (more := rest) hwords (out := []) (Nat.zero_le s.capObuf)
  rw [← hsym, List.nil_append] at hexpand
  refine ⟨fun hrest hroom => ?_, fun hfull => ?_⟩
  · subst hrest
    rw [if_neg hroom.not_gt] at hexpand
    exact accept_of_ok hat rfl (bind_ok.2 ⟨_, hexpand, rfl⟩)
  · rw [if_pos hfull] at hexpand
    exact accept_of_raise hat rfl (bind_error.2 (.inl hexpand))

/-! ### The round trip (R240) -/

/-- Where the symbols of the dictionary fit, the symbol of a piece expands to its bytes. -/
theorem IsPiece.expands {input : List Byte} (hdict : dict.length + 256 ≤ 2 ^ 32) (h : IsPiece dict input i p) :
    Expands dict p.1 p.2 := by
  rcases h with ⟨k, w, hk, rfl, -⟩ | ⟨b, rfl, -⟩
  · obtain ⟨hlt, -⟩ := List.getElem?_eq_some_iff.1 hk
    have hfits : 256 + k < 2 ^ 32 := by omega
    have hsym : (dictSymbol k).toNat = 256 + k := by
      rw [dictSymbol, dictBase, if_pos hfits, BitVec.toNat_ofNat, Nat.mod_eq_of_lt hfits]
    rw [Expands, hsym, if_neg (by omega), Nat.add_sub_cancel_left]
    exact hk
  · have hsym : (rawSymbol b).toNat = b.toNat := BitVec.toNat_setWidth_of_le (by omega)
    rw [Expands, hsym, if_pos b.isLt]
    rfl

/-- Settles O46: the pieces that `DX.SUB` finds are what `DX.EXP` puts together. -/
theorem dxExpInvertsDxSub : Obligations.DxExpInvertsDxSub := by
  unfold Obligations.DxExpInvertsDxSub
  intro s hat hdict hsym hobuf
  obtain ⟨pieces, hcover, -, hpieces, -, -, hsub⟩ := dxSubScans s hat
  have hwords : List.Forall₂ (Expands s.dict) (pieces.map Prod.fst) (pieces.map Prod.snd) := by
    rw [List.forall₂_map_left_iff, List.forall₂_map_right_iff, List.forall₂_same]
    intro p hp
    obtain ⟨j, hj⟩ := List.mem_iff_getElem?.1 hp
    exact IsPiece.expands hdict (hpieces j p hj)
  obtain ⟨hexp, -⟩ := dxExpExpands { s with sym := pieces.map Prod.fst } _ [] _ hat (List.append_nil _).symm hwords
  exact ⟨_, _, hsub hsym, hat.1, hexp rfl (hcover ▸ hobuf), hat.1, hcover.symm⟩

end Sys2Proof.Proofs
end

section
/-! PROOF. DesInvertsSer, DesBounds: what the parser of `DES` answers where the serialized form of a part stands whole in the
buffer, where the buffer ends within it, and what stands in the buffer where the parser completes (R266, R267). -/

namespace Sys2Proof.Proofs

open Sys2Proof.Machine Sys2Proof.Safety

variable {α β : Type} {buf x y missing : List Byte} {a n v last cap : Nat} {s t : State}

/-! ### Parts of the buffer -/

/-- The bytes `x` stand whole in the buffer from position `a` on, which lies within it or at its end. -/
structure Contains (buf : List Byte) (a : Nat) (x : List Byte) : Prop where
  start : a ≤ buf.length
  stands : StandsAt buf a x

theorem Contains.stop (h : Contains buf a x) : a + x.length ≤ buf.length := by
  have hlen := h.stands.length_le
  have hstart := h.start
  rw [List.length_drop] at hlen
  omega

theorem contains_append : Contains buf a (x ++ y) ↔ Contains buf a x ∧ Contains buf (a + x.length) y := by
  constructor
  · intro h
    have hx : Contains buf a x := ⟨h.start, h.stands.left⟩
    exact ⟨hx, hx.stop, h.stands.right⟩
  · rintro ⟨⟨hstart, rest, hrest⟩, -, hy⟩
    refine ⟨hstart, ?_⟩
    rw [StandsAt, ← List.drop_drop, ← hrest, List.drop_left] at hy
    rw [StandsAt, ← hrest]
    exact (List.prefix_append_right_inj x).2 hy

/-- From position `a` on the buffer has a proper initial part of `x` left, all but the bytes `missing`. -/
structure CutAt (buf : List Byte) (a : Nat) (x missing : List Byte) : Prop where
  start : a ≤ buf.length
  split : x = buf.drop a ++ missing
  nonempty : missing ≠ []

theorem CutAt.stop (h : CutAt buf a x missing) : buf.length < a + x.length := by
  have hlen := congrArg List.length h.split
  have hpos := List.length_pos_of_ne_nil h.nonempty
  have hstart := h.start
  rw [List.length_append, List.length_drop] at hlen
  omega

theorem CutAt.append (h : CutAt buf a (x ++ y) missing) : (∃ m, CutAt buf a x m ∧ missing = m ++ y) ∨
    (Contains buf a x ∧ CutAt buf (a + x.length) y missing) := by
  have hwhole {rest : List Byte} (hdrop : buf.drop a = x ++ rest) (hy : y = rest ++ missing) :
      Contains buf a x ∧ CutAt buf (a + x.length) y missing := by
    have hx : Contains buf a x := ⟨h.start, rest, hdrop.symm⟩
    exact ⟨hx, hx.stop, by rw [← List.drop_drop, hdrop, List.drop_left, hy], h.nonempty⟩
  rcases List.append_eq_append_iff.1 h.split with ⟨rest, hdrop, hy⟩ | ⟨m, hx, hmissing⟩
  · exact .inr (hwhole hdrop hy)
  · by_cases hm : m = []
    · subst hm
      rw [List.append_nil] at hx
      exact .inr (hwhole (rest := []) (by rw [hx, List.append_nil]) hmissing.symm)
    · exact .inl ⟨m, ⟨h.start, hx, hm⟩, hmissing⟩

/-! ### Reading a serialized part -/

/-- The answer `r` of a parser at position `a` of the buffer, where the serialized form `x` of `value` is due: `value` of the
position after it where it stands whole, `FormatError` where the buffer ends within it, and that with the position of its last
`last` bytes where only some of those are missing. -/
structure Reads (buf : List Byte) (a : Nat) (x : List Byte) (last : Nat) (r : Except Stop α) (value : Nat → α) : Prop where
  whole : Contains buf a x → r = .ok (value (a + x.length))
  cut : ∀ missing, CutAt buf a x missing → ∃ pos ≤ buf.length, r = .error (.raise .formatError pos) ∧
    (missing.length ≤ last → pos + last = a + x.length)

section
variable {r : Except Stop α} {f : α → Except Stop β} {value : Nat → α} {value' : Nat → β}

/-- The rule of sequence. -/
theorem Reads.bind {l : Nat} (hx : Reads buf a x l r value)
    (hy : Reads buf (a + x.length) y last (f (value (a + x.length))) value')
    (hlast : last ≤ y.length := by grind) :
    Reads buf a (x ++ y) last (r >>= f) value' := by
  have hbind (h : Contains buf a x) : (r >>= f) = f (value (a + x.length)) := by rw [hx.whole h]; rfl
  refine ⟨fun h => ?_, fun missing h => ?_⟩
  · obtain ⟨h, h'⟩ := contains_append.1 h
    rw [hbind h, hy.whole h', List.length_append, Nat.add_assoc]
  · rcases h.append with ⟨m, hm, rfl⟩ | ⟨h, h'⟩
    · obtain ⟨pos, hpos, hr, -⟩ := hx.cut m hm
      have hm := List.length_pos_of_ne_nil hm.nonempty
      exact ⟨pos, hpos, bind_error.2 (.inl hr), fun hle => by rw [List.length_append] at hle; omega⟩
    · obtain ⟨pos, hpos, hr, hexact⟩ := hy.cut missing h'
      exact ⟨pos, hpos, (hbind h).trans hr, fun hle => by rw [List.length_append]; have := hexact hle; omega⟩

/-- The rule of an answer made from what was read. -/
theorem Reads.map (hx : Reads buf a x last r value)
    (hf : f (value (a + x.length)) = .ok (value' (a + x.length))) : Reads buf a x last (r >>= f) value' where
  whole h := bind_ok.2 ⟨_, hx.whole h, hf⟩
  cut missing h := by
    obtain ⟨pos, hpos, hr, hexact⟩ := hx.cut missing h
    exact ⟨pos, hpos, bind_error.2 (.inl hr), hexact⟩

/-- The rule of a check that is passed. -/
theorem Reads.check {c : Prop} [Decidable c] {stop : Stop} (hc : ¬ c) (hx : Reads buf a x last r value) :
    Reads buf a x last (if c then .error stop else r) value := by rwa [if_neg hc]

/-- The answer `r` of a parser at position `a` is `stop` where the serialized form `x` stands whole from there on. -/
def RaisesOn (buf : List Byte) (a : Nat) (x : List Byte) (stop : Stop) (r : Except Stop α) : Prop :=
  Contains buf a x → r = .error stop

variable {stop : Stop}

theorem RaisesOn.bind (hx : Reads buf a x last r value) (hy : RaisesOn buf (a + x.length) y stop (f (value (a + x.length)))) :
    RaisesOn buf a (x ++ y) stop (r >>= f) := fun h =>
  have ⟨h, h'⟩ := contains_append.1 h
  bind_error.2 (.inr ⟨_, hx.whole h, hy h'⟩)

theorem RaisesOn.first (hx : RaisesOn buf a x stop r) : RaisesOn buf a x stop (r >>= f) := fun h =>
  bind_error.2 (.inl (hx h))

theorem RaisesOn.left (hx : RaisesOn buf a x stop r) : RaisesOn buf a (x ++ y) stop r := fun h =>
  hx (contains_append.1 h).1

theorem RaisesOn.check {c : Prop} [Decidable c] {stop' : Stop} (hc : ¬ c) (hx : RaisesOn buf a x stop r) :
    RaisesOn buf a x stop (if c then .error stop' else r) := by rwa [if_neg hc]

theorem RaisesOn.here {c : Prop} [Decidable c] (hc : c) : RaisesOn buf a x stop (if c then .error stop else r) :=
  fun _ => if_pos hc

end

theorem reads_nil (value : Nat → α) : Reads buf a [] 0 (.ok (value a)) value where
  whole _ := rfl
  cut _ h := absurd (List.append_eq_nil_iff.1 h.split.symm).2 h.nonempty

theorem getField_reads (hv : v < 256 ^ n) : Reads buf a (leBytes n v) n (getField buf n a) fun pos => (v, pos) where
  whole h := by
    have hstop := h.stop
    rw [leBytes_length] at hstop ⊢
    rw [← h.stands.memRead hv]
    exact bind_ok.2 ⟨(), need_ok_iff.2 hstop, rfl⟩
  cut missing h := by
    have hstop := h.stop
    rw [leBytes_length] at hstop ⊢
    exact ⟨a, h.start, bind_error.2 (.inl (if_pos hstop)), fun _ => rfl⟩

theorem getBytes_reads (x : List Byte) : Reads buf a x x.length (getBytes buf x.length a) fun pos => (x, pos) where
  whole h := by
    conv_rhs => rw [← h.stands.take_drop]
    rw [List.length_take_of_le (by rw [List.length_drop]; exact Nat.le_sub_of_add_le' h.stop)]
    exact bind_ok.2 ⟨(), need_ok_iff.2 h.stop, rfl⟩
  cut missing h := ⟨a, h.start, bind_error.2 (.inl (if_pos h.stop)), fun _ => rfl⟩

theorem getWords_reads : ∀ {a : Nat} (ws : List (List Byte)), (∀ w ∈ ws, w.length < 256 ^ 4 ∧ w.length ≤ cap) →
    Reads buf a (ws.flatMap serWord) 0 (getWords buf cap ws.length a) fun pos => (ws, pos)
  | _, [], _ => reads_nil _
  | _, w :: ws, h => by
    obtain ⟨⟨hlt, hcap⟩, hws⟩ := List.forall_mem_cons.1 h
    rw [List.flatMap_cons, serWord, List.append_assoc]
    exact .bind (getField_reads hlt) <| .check hcap.not_gt <| .bind (getBytes_reads w) <| .map (getWords_reads ws hws) rfl

theorem getEntries_reads : ∀ {a : Nat} (es : List Entry),
    Reads buf a (es.flatMap serEntry) 0 (getEntries buf es.length a) fun pos => (es, pos)
  | _, [] => reads_nil _
  | _, e :: es => by
    rw [List.flatMap_cons, serEntry, List.append_assoc, List.append_assoc]
    refine .bind (getField_reads e.sym.isLt) <| .bind (getField_reads e.count.isLt) <| .bind (getField_reads e.cum.isLt) <|
      .map (getEntries_reads es) ?_
    simp

/-! ### `DES` of an artifact (R267) -/

section
variable {dict : List (List Byte)} {ftab : List Entry} {total : BitVec 64} {bits : List Byte}

/-- The artifact is its first part, followed by the others. -/
theorem serialize_eq : serialize dict ftab total bits = leBytes 4 dict.length ++ (dict.flatMap serWord ++
    (leBytes 4 ftab.length ++ (ftab.flatMap serEntry ++ (leBytes 8 total.toNat ++ (leBytes 4 bits.length ++ bits))))) := by
  simp only [serialize, List.append_assoc]

/-- `DES` of an artifact within the capacities (R267). -/
theorem desBody_reads (hd : dictFits s dict = true) (hf : ftab.length ≤ s.capFtab) (hb : bits.length ≤ s.capBits) :
    Reads s.ibuf 0 (serialize dict ftab total bits) bits.length (desBody s) fun _ =>
      { s with dict := dict, ftab := ftab, total := total, bits := bits } := by
  obtain ⟨hwords, hbytes⟩ := (dictFits_iff s dict).1 hd
  rw [serialize_eq]
  refine .bind (getField_reads (lt_of_le_capOf hwords)) <| .check hwords.not_gt <|
    .bind (getWords_reads dict fun w hw => ⟨lt_of_le_capOf (hbytes w hw), hbytes w hw⟩) <|
    .bind (getField_reads (lt_of_le_capOf hf)) <| .check hf.not_gt <| .bind (getEntries_reads ftab) <|
    .bind (getField_reads total.isLt) <| .bind (getField_reads (lt_of_le_capOf hb)) <| .check hb.not_gt <|
    .map (getBytes_reads bits) ?_
  simp

theorem contains_append_right (x y : List Byte) : Contains (x ++ y) 0 x := ⟨Nat.zero_le _, x.prefix_append y⟩

theorem desBody_of_artifact {trailing : List Byte} (hd : dictFits s dict = true) (hf : ftab.length ≤ s.capFtab)
    (hb : bits.length ≤ s.capBits) (h : s.ibuf = serialize dict ftab total bits ++ trailing) :
    desBody s = .ok { s with dict := dict, ftab := ftab, total := total, bits := bits } :=
  (desBody_reads hd hf hb).whole (h ▸ contains_append_right _ trailing)

/-- A table, a bitstream and a dictionary that fit one configuration fit every state that has it. -/
theorem fits_of_cfg_eq {u : State} (hcfg : u.cfg = s.cfg) (hwf : Memory.wf s = true) :
    dictFits u s.dict = true ∧ s.ftab.length ≤ u.capFtab ∧ s.bits.length ≤ u.capBits := by
  obtain ⟨-, -, hdict, hftab, hbits, -⟩ := (Memory.wf_iff s).1 hwf
  rw [dictFits_iff, State.capDictWords, State.capWordBytes, State.capFtab, State.capBits, hcfg]
  exact ⟨(dictFits_iff s s.dict).1 hdict, hftab, hbits⟩

/-- Settles O48: `SER` writes the serialized form, which `DES` finds whole at the start of its input. -/
theorem desInvertsSer : Obligations.DesInvertsSer := by
  unfold Obligations.DesInvertsSer
  intro s u trailing hat hwf hfits hatu hcfg hibuf
  obtain ⟨hdict, hftab, hbits⟩ := fits_of_cfg_eq hcfg hwf
  exact ⟨accept_of_ok hat rfl (serBody_of_fits hfits), accept_of_ok hatu rfl (desBody_of_artifact hdict hftab hbits hibuf)⟩

/-! ### `DES` of a part of an artifact, and of one too large (R311, R316) -/

/-- Where the buffer ends within the artifact, `DES` finds it too short, and where it ends within the bitstream, there. -/
theorem desBody_of_take (hd : dictFits s dict = true) (hf : ftab.length ≤ s.capFtab) (hb : bits.length ≤ s.capBits)
    (hn : n < (serialize dict ftab total bits).length) (h : s.ibuf = (serialize dict ftab total bits).take n) :
    ∃ pos ≤ s.ibuf.length, desBody s = .error (.raise .formatError pos) ∧
      ((serialize dict ftab total bits).length - bits.length ≤ n →
        pos = (serialize dict ftab total bits).length - bits.length) := by
  have hcut : CutAt s.ibuf 0 (serialize dict ftab total bits) ((serialize dict ftab total bits).drop n) :=
    ⟨Nat.zero_le _, by rw [h, List.drop_zero, List.take_append_drop], mt List.drop_eq_nil_iff.1 hn.not_ge⟩
  obtain ⟨pos, hpos, hr, hexact⟩ := (desBody_reads hd hf hb).cut _ hcut
  refine ⟨pos, hpos, hr, fun hle => ?_⟩
  rw [List.length_drop] at hexact
  have := hexact (by omega)
  omega

theorem getWords_of_long : ∀ {a : Nat} {ws : List (List Byte)}, (∀ w ∈ ws, w.length < 256 ^ 4) →
    (∃ w ∈ ws, cap < w.length) →
    RaisesOn buf a (ws.flatMap serWord) (.raise .capacityFault resDict) (getWords buf cap ws.length a)
  | _, [], _, hlong => by simp at hlong
  | _, w :: ws, hlt, hlong => by
    obtain ⟨hw, hws⟩ := List.forall_mem_cons.1 hlt
    rw [List.flatMap_cons, serWord, List.append_assoc]
    by_cases hcap : cap < w.length
    · exact .bind (getField_reads hw) <| .here hcap
    · have hlong := ((List.exists_mem_cons_iff ..).1 hlong).resolve_left hcap
      exact .bind (getField_reads hw) <| .check hcap <| .bind (getBytes_reads w) <| .first (getWords_of_long hws hlong)

section
variable (hwords : dict.length < 2 ^ 32) (hbytes : ∀ w ∈ dict, w.length < 2 ^ 32)
include hwords hbytes

theorem desBody_of_dict_full (hd : dictFits s dict = false) :
    RaisesOn s.ibuf 0 (serialize dict ftab total bits) (.raise .capacityFault resDict) (desBody s) := by
  rw [← Bool.not_eq_true, dictFits_iff, not_and] at hd
  rw [serialize_eq]
  by_cases hcount : dict.length ≤ s.capDictWords
  · have hlong := hd hcount
    push Not at hlong
    exact .bind (getField_reads hwords) <| .check hcount.not_gt <| .left <|
      .first (getWords_of_long hbytes hlong)
  · exact .bind (getField_reads hwords) <| .here (Nat.lt_of_not_le hcount)

variable (hd : dictFits s dict = true) (hftab : ftab.length < 2 ^ 32)
include hd hftab

theorem desBody_of_ftab_full (hf : s.capFtab < ftab.length) :
    RaisesOn s.ibuf 0 (serialize dict ftab total bits) (.raise .capacityFault resFtab) (desBody s) := by
  obtain ⟨hcount, hcap⟩ := (dictFits_iff s dict).1 hd
  rw [serialize_eq]
  exact .bind (getField_reads hwords) <| .check hcount.not_gt <|
    .bind (getWords_reads dict fun w hw => ⟨hbytes w hw, hcap w hw⟩) <| .bind (getField_reads hftab) <| .here hf

theorem desBody_of_bits_full (hf : ftab.length ≤ s.capFtab) (hbits : bits.length < 2 ^ 32) (hb : s.capBits < bits.length) :
    RaisesOn s.ibuf 0 (serialize dict ftab total bits) (.raise .capacityFault resBits) (desBody s) := by
  obtain ⟨hcount, hcap⟩ := (dictFits_iff s dict).1 hd
  rw [serialize_eq]
  exact .bind (getField_reads hwords) <| .check hcount.not_gt <|
    .bind (getWords_reads dict fun w hw => ⟨hbytes w hw, hcap w hw⟩) <| .bind (getField_reads hftab) <| .check hf.not_gt <|
    .bind (getEntries_reads ftab) <| .bind (getField_reads total.isLt) <| .bind (getField_reads hbits) <| .here hb

end

end

/-! ### What `DES` accepts (R267, R311) -/

/-- What a parser of the buffer may do: answer a value that meets `Q`, raise `FormatError` at a position of the buffer or at its
end, or raise `CapacityFault`. -/
def Parses (buf : List Byte) (Q : α → Prop) : Except Stop α → Prop
  | .ok v => Q v
  | .error (.raise .formatError pos) => pos ≤ buf.length
  | .error (.raise .capacityFault _) => True
  | .error _ => False

section
variable {P : α → Prop} {Q : β → Prop} {r : Except Stop α} {r' : Except Stop β} {f : α → Except Stop β}

/-- The rule of sequence; the answer's equation is at hand for the laws of the parser. -/
theorem Parses.bind (hr : Parses buf P r) (hf : ∀ v, r = .ok v → P v → Parses buf Q (f v)) : Parses buf Q (r >>= f) := by
  match r with
  | .ok v => exact hf v rfl hr
  | .error (.raise .formatError _) => exact hr
  | .error (.raise .capacityFault _) => trivial

theorem Parses.of_error {stop : Stop} (h : Parses buf P (.error stop)) :
    (∃ pos ≤ buf.length, stop = .raise .formatError pos) ∨ ∃ info, stop = .raise .capacityFault info := by
  match stop with
  | .raise .formatError pos => exact .inl ⟨pos, h, rfl⟩
  | .raise .capacityFault info => exact .inr ⟨info, rfl⟩

theorem Parses.check {c : Prop} [Decidable c] {info : Nat} (h : Parses buf Q r') :
    Parses buf Q (if c then .error (.raise .capacityFault info) else r') := by
  split
  · trivial
  · exact h

end

/-- The bytes `x` have been read: they stand in the buffer from `a` up to `b`. -/
def ReadUpTo (buf : List Byte) (a : Nat) (x : List Byte) (b : Nat) : Prop := Contains buf a x ∧ b = a + x.length

theorem ReadUpTo.stop {b : Nat} (h : ReadUpTo buf a x b) : b ≤ buf.length := h.2 ▸ h.1.stop

theorem ReadUpTo.append {b c : Nat} (hx : ReadUpTo buf a x b) (hy : ReadUpTo buf b y c) : ReadUpTo buf a (x ++ y) c := by
  obtain ⟨hx, rfl⟩ := hx
  obtain ⟨hy, rfl⟩ := hy
  exact ⟨contains_append.2 ⟨hx, hy⟩, by rw [List.length_append, Nat.add_assoc]⟩

theorem leBytes_leValue : ∀ x : List Byte, leBytes x.length (leValue x) = x
  | [] => rfl
  | b :: x => by
    have hb := b.isLt
    have hlow : (b.toNat + 256 * leValue x) % 256 = b.toNat := by omega
    have hhigh : (b.toNat + 256 * leValue x) / 256 = leValue x := by omega
    rw [List.length_cons, leValue, leBytes, hlow, hhigh, leBytes_leValue x, BitVec.ofNat_toNat, BitVec.setWidth_eq]

theorem leValue_lt : ∀ x : List Byte, leValue x < 256 ^ x.length
  | [] => Nat.one_pos
  | b :: x => by
    have hb := b.isLt
    have hx := leValue_lt x
    rw [List.length_cons, Nat.pow_succ, leValue]
    omega

theorem need_parses (ha : a ≤ buf.length) : Parses buf (fun _ => a + n ≤ buf.length) (need buf a n) := by
  rw [need]
  split
  · exact ha
  · exact Nat.le_of_not_lt ‹_›

theorem getBytes_parses (ha : a ≤ buf.length) :
    Parses buf (fun p => p.1.length = n ∧ ReadUpTo buf a p.1 p.2) (getBytes buf n a) := by
  refine (need_parses ha).bind fun _ _ hn => ?_
  have hlen : ((buf.drop a).take n).length = n := List.length_take_of_le (by rw [List.length_drop]; omega)
  exact ⟨hlen, ⟨ha, List.take_prefix _ _⟩, by rw [hlen]⟩

theorem getField_parses (ha : a ≤ buf.length) :
    Parses buf (fun p => p.1 < 256 ^ n ∧ ReadUpTo buf a (leBytes n p.1) p.2) (getField buf n a) := by
  refine (need_parses ha).bind fun _ _ hn => ?_
  have hlen : ((buf.drop a).take n).length = n := List.length_take_of_le (by rw [List.length_drop]; omega)
  have hlt := leValue_lt ((buf.drop a).take n)
  have hbytes := leBytes_leValue ((buf.drop a).take n)
  rw [hlen] at hlt hbytes
  refine ⟨hlt, ⟨ha, ?_⟩, by rw [leBytes_length]⟩
  rw [memRead, hbytes]
  exact List.take_prefix _ _

theorem getWords_parses : ∀ {count a : Nat}, a ≤ buf.length →
    Parses buf (fun p => ReadUpTo buf a (p.1.flatMap serWord) p.2) (getWords buf cap count a)
  | 0, _, ha => ⟨⟨ha, List.nil_prefix⟩, rfl⟩
  | count + 1, _, ha => by
    refine (getField_parses ha).bind fun (len, _) _ hlen => .check ?_
    refine (getBytes_parses hlen.2.stop).bind fun (w, _) _ hw => ?_
    refine (getWords_parses hw.2.stop).bind fun (ws, _) _ hws => ?_
    obtain ⟨rfl, hw⟩ := hw
    exact (hlen.2.append hw).append hws

/-- A field of `n` bytes fits the register of `8 * n` bits it is written to. -/
theorem toNat_ofNat_field (h : v < 256 ^ n) : (BitVec.ofNat (8 * n) v).toNat = v := by
  rw [BitVec.toNat_ofNat, Nat.mod_eq_of_lt (by rwa [Nat.pow_mul])]

theorem getEntries_parses : ∀ {count a : Nat}, a ≤ buf.length →
    Parses buf (fun p => ReadUpTo buf a (p.1.flatMap serEntry) p.2) (getEntries buf count a)
  | 0, _, ha => ⟨⟨ha, List.nil_prefix⟩, rfl⟩
  | count + 1, _, ha => by
    refine (getField_parses ha).bind fun (x, _) _ ⟨hx, hsym⟩ => ?_
    refine (getField_parses hsym.stop).bind fun (c, _) _ ⟨hc, hcount⟩ => ?_
    refine (getField_parses hcount.stop).bind fun (start, _) _ ⟨hstart, hcum⟩ => ?_
    refine (getEntries_parses hcum.stop).bind fun (es, _) _ hes => ?_
    have hentry : serEntry ⟨BitVec.ofNat 32 x, BitVec.ofNat 64 c, BitVec.ofNat 64 start⟩ =
        leBytes 4 x ++ leBytes 8 c ++ leBytes 8 start := by
      rw [serEntry, toNat_ofNat_field hx, toNat_ofNat_field hc, toNat_ofNat_field hstart]
    have hall := ((hsym.append hcount).append hcum).append hes
    rw [← hentry] at hall
    exact hall

/-- What `DES` may do: find a whole artifact at the start of its input, or raise one of its two faults (R267). -/
theorem desBody_parses (s : State) :
    Parses s.ibuf (fun t => Contains s.ibuf 0 (serialize t.dict t.ftab t.total t.bits)) (desBody s) := by
  refine (getField_parses (Nat.zero_le _)).bind fun (D, _) _ ⟨_, hD⟩ => .check ?_
  refine (getWords_parses hD.stop).bind fun (ws, _) hwords hws => ?_
  refine (getField_parses hws.stop).bind fun (F, _) _ ⟨_, hF⟩ => .check ?_
  refine (getEntries_parses hF.stop).bind fun (es, _) hentries hes => ?_
  refine (getField_parses hes.stop).bind fun (T, _) _ ⟨hlt, hT⟩ => ?_
  refine (getField_parses hT.stop).bind fun (B, _) _ ⟨_, hB⟩ => .check ?_
  refine (getBytes_parses hB.stop).bind fun (bs, _) _ ⟨hbits, hbs⟩ => ?_
  obtain ⟨rfl, -⟩ := getWords_ok hwords
  obtain rfl := getEntries_ok hentries
  subst hbits
  obtain ⟨hall, -⟩ := (((((hD.append hws).append hF).append hes).append hT).append hB).append hbs
  rw [← toNat_ofNat_field hlt] at hall
  exact hall

theorem exec_des (h : At .ready .idle s) :
    exec .des s = finish s { dict := true, ftab := true, total := true, bits := true } (desBody s) :=
  accept_run h.1 (by rw [h.2]; rfl)

/-- Settles O49: the parser reads an artifact whole, ends at the end of its input or at a capacity; and what it accepts it has
read. -/
theorem desBounds : Obligations.DesBounds := by
  unfold Obligations.DesBounds
  rintro s _ hat rfl
  have hparses := desBody_parses s
  have hraise {x : Cause} {info : Nat} (h : desBody s = .error (.raise x info)) : exec .des s =
      .next (faultEntry x info { dict := true, ftab := true, total := true, bits := true } s) := accept_of_raise hat rfl h
  refine ⟨fun t ht hready => ?_, fun dict ftab total bits n hd hf hb hn hibuf => ?_,
    fun dict ftab total bits trailing hwords hbytes hftab hbits hibuf => ?_, fun hshort => ?_, fun hshort => ?_,
    fun t ht hfault herr => ?_⟩
  · rw [body_of_next hat ht hready] at hparses
    obtain ⟨trailing, htrailing⟩ := hparses.stands
    exact ⟨trailing, htrailing.symm⟩
  · obtain ⟨pos, hpos, hr, hexact⟩ := desBody_of_take hd hf hb hn hibuf
    exact ⟨pos, hpos, hraise hr, hexact⟩
  · have hart : Contains s.ibuf 0 (serialize dict ftab total bits) := hibuf ▸ contains_append_right _ trailing
    exact ⟨fun hd => hraise (desBody_of_dict_full hwords hbytes hd hart),
      fun hd hf => hraise (desBody_of_ftab_full hwords hbytes hd hftab hf hart),
      fun hd hf hb => hraise (desBody_of_bits_full hwords hbytes hd hftab hf hbits hb hart)⟩
  · match hr : desBody s with
    | .ok t =>
      rw [hr] at hparses
      have hstop := hparses.stop
      have hlen := (serialize_parts t.dict t.ftab t.total t.bits).length
      rw [dictOffset] at hlen
      omega
    | .error stop =>
      rw [hr] at hparses
      rcases hparses.of_error with ⟨pos, -, rfl⟩ | ⟨info, rfl⟩
      · exact ⟨_, pos, .inl rfl, hraise hr⟩
      · exact ⟨_, info, .inr rfl, hraise hr⟩
  · exact hraise (bind_error.2 (.inl (bind_error.2 (.inl (if_pos (by omega))))))
  · rw [exec_des hat] at ht
    rcases finish_next.1 ht with hr | ⟨x, pos, hr, rfl⟩
    · cases hfault.symm.trans ((desBody_leaves hr).status.trans hat.1)
    · obtain rfl : x = .formatError := herr
      rw [hr] at hparses
      exact ⟨pos, hparses, rfl⟩

end Sys2Proof.Proofs
end

section
/-! PROOF. MacrosAreChains: a run of commands that are legal in `IDLE` and leave it ends as their bodies in sequence do, and the
body of a compound command is the bodies of its parts in sequence (R260, R261, R268, R269). -/

namespace Sys2Proof.Proofs

open Sys2Proof.Machine Sys2Proof.Safety

variable {s u : State} {i m : Instr} {is parts : List Instr} {f : State → Except Stop State} {r : Except Stop State}
  {o : Host.Outcome State Fault Refusal}

/-- A run ends as the answer of a body says: in its state, in the fault state with its cause and information, or it stops. -/
def EndsAs (o : Host.Outcome State Fault Refusal) : Except Stop State → Prop
  | .ok t => o = .next t
  | .error (.raise x info) => ∃ d v, o = .next (faultEntry x info d v)
  | .error (.broken e) => o = .fault e

/-- A command of a chain: it is legal in `IDLE` alone and leaves it (R271). -/
structure InChain (i : Instr) : Prop where
  legal : legalMode i = some .idle
  after : modeAfter i .idle = .idle

theorem InChain.ne_rst (h : InChain i) : i ≠ .rst := by
  rintro rfl
  cases h.legal

theorem InChain.modeLegal (h : InChain i) : modeLegal i .idle = true := by
  rw [Machine.modeLegal, h.legal]
  rfl

/-- A body that completes at rest leaves `READY` and `IDLE`. -/
theorem InChain.leaves_idle (h : InChain i) (hat : At .ready .idle s) (hr : bodyOf i s = .ok u) : At .ready .idle u := by
  obtain ⟨hs, hm⟩ := hat
  have hleaves := bodyOf_leaves (by rw [hm]; exact h.modeLegal) hr
  exact ⟨hleaves.status.trans hs, by rw [hleaves.mode, hm, h.after]⟩

theorem runAll_endsAs_cons (hi : InChain i) (his : .rst ∉ is) (hat : At .ready .idle s)
    (hrest : ∀ t, At .ready .idle t → EndsAs (runAll is t) (f t)) : EndsAs (runAll (i :: is) s) (bodyOf i s >>= f) := by
  rw [runAll, exec_eq_accept hi.ne_rst, accept_run hat.1 (by rw [hat.2]; exact hi.modeLegal)]
  match hr : bodyOf i s with
  | .ok t => exact hrest t (hi.leaves_idle hat hr)
  | .error (.raise x info) => exact ⟨_, _, runAll_ignored rfl his⟩
  | .error (.broken e) => rfl

theorem runAll_endsAs_singleton (hi : InChain i) (hat : At .ready .idle s) : EndsAs (runAll [i] s) (bodyOf i s) := by
  have h := runAll_endsAs_cons (f := pure) hi (is := []) nofun hat fun _ _ => rfl
  rwa [bind_pure] at h

/-- The commands made of others, and their parts (R260, R261, R268, R269). -/
abbrev MacroOf (m : Instr) (parts : List Instr) : Prop :=
  (m = .encode ∧ parts = [.dxFind, .dxSub, .fmBuild, .encRun]) ∨ (m = .decode ∧ parts = [.decRun, .dxExp]) ∨
    (m = .compress ∧ parts = [.encode, .ser]) ∨ (m = .decompress ∧ parts = [.des, .decode])

theorem MacroOf.inChain (h : MacroOf m parts) : InChain m := by
  rcases h with ⟨rfl, -⟩ | ⟨rfl, -⟩ | ⟨rfl, -⟩ | ⟨rfl, -⟩ <;> exact ⟨rfl, rfl⟩

theorem MacroOf.endsAs (h : MacroOf m parts) (hat : At .ready .idle s) : EndsAs (runAll parts s) (bodyOf m s) := by
  rcases h with ⟨rfl, rfl⟩ | ⟨rfl, rfl⟩ | ⟨rfl, rfl⟩ | ⟨rfl, rfl⟩
  · exact runAll_endsAs_cons ⟨rfl, rfl⟩ (by simp) hat fun a ha => runAll_endsAs_cons ⟨rfl, rfl⟩ (by simp) ha fun b hb =>
      runAll_endsAs_cons ⟨rfl, rfl⟩ (by simp) hb fun c hc => runAll_endsAs_singleton ⟨rfl, rfl⟩ hc
  all_goals exact runAll_endsAs_cons ⟨rfl, rfl⟩ (by simp) hat fun a ha => runAll_endsAs_singleton ⟨rfl, rfl⟩ ha

/-- Fault entry with the information read back from `ERRINFO` is the same. -/
theorem faultEntry_errInfo_toNat (x : Cause) (info : Nat) (d : Dest) (s : State) :
    faultEntry x (BitVec.ofNat 64 info).toNat d s = faultEntry x info d s := by
  simp only [faultEntry, BitVec.ofNat_toNat, BitVec.setWidth_eq]

/-- Settles O51: the chain ends as the compound command's body does, and acceptance ends with that body. -/
theorem macrosAreChains : Obligations.MacrosAreChains := by
  unfold Obligations.MacrosAreChains
  intro s m parts hat hparts
  have hm := MacroOf.inChain hparts
  have hexec : exec m s = finish s (destOf m) (bodyOf m s) := by
    rw [exec_eq_accept hm.ne_rst, accept_run hat.1 (by rw [hat.2]; exact hm.modeLegal)]
  have hends := MacroOf.endsAs hparts hat
  match hr : bodyOf m s with
  | .ok t =>
    rw [hr] at hexec hends
    have hready := (hm.leaves_idle hat hr).1
    refine ⟨fun v _ => by rw [hexec, hends]; rfl, fun v hv hfault => ?_⟩
    obtain rfl := Host.Outcome.next.inj (hends.symm.trans hv)
    cases hready.symm.trans hfault
  | .error (.raise x info) =>
    rw [hr] at hexec hends
    obtain ⟨d, w, hrun⟩ := hends
    refine ⟨fun v hv => ?_, fun v hv _ => ?_⟩
    · rw [hexec, hrun]
      exact iff_of_false (fun h => by cases h; cases hv) (fun h => by cases h; cases hv)
    · obtain rfl := Host.Outcome.next.inj (hrun.symm.trans hv)
      rw [faultEntry_err, faultEntry_errInfo, faultEntry_errInfo_toNat]
      exact hexec
  | .error (.broken e) =>
    rw [hr] at hexec hends
    refine ⟨fun v _ => by rw [hexec, hends]; rfl, fun v hv => ?_⟩
    cases hends.symm.trans hv

end Sys2Proof.Proofs
end

section
/-! PROOF. CompressDeterministic: what a session does depends on the registers and buffers it works on alone, so from states that
agree in them it ends alike (R174, R178, R263). -/

namespace Sys2Proof.Proofs

open Sys2Proof.Machine Sys2Proof.Safety

variable {α β γ δ : Type} {s t u : State}

/-! ### Two answers that agree -/

/-- Both operations complete, with answers in the relation `P`, or both stop for one reason. -/
def Alike (P : α → β → Prop) : Except Stop α → Except Stop β → Prop
  | .ok a, .ok b => P a b
  | .error e, .error e' => e = e'
  | _, _ => False

section
variable {P : α → β → Prop} {Q : γ → δ → Prop} {x : Except Stop α} {y : Except Stop β} {f : α → Except Stop γ}
  {g : β → Except Stop δ} {r : Except Stop γ} {r' : Except Stop δ}

theorem Alike.raise {e : Stop} : Alike P (.error e) (.error e) := rfl

/-- The rule of sequence. -/
theorem Alike.bind (h : Alike P x y) (hf : ∀ a b, P a b → Alike Q (f a) (g b)) : Alike Q (x >>= f) (y >>= g) := by
  match x, y with
  | .ok a, .ok b => exact hf a b h
  | .error _, .error _ => exact h

/-- The rule of a value both read alike. -/
theorem Alike.read {x : Except Stop α} {f : α → Except Stop γ} {g : α → Except Stop δ}
    (hf : ∀ a, Alike Q (f a) (g a)) : Alike Q (x >>= f) (x >>= g) := by
  match x with
  | .ok a => exact hf a
  | .error _ => rfl

/-- The rule of a choice both make alike. -/
theorem Alike.ite {c : Prop} [Decidable c] {q : Except Stop γ} {q' : Except Stop δ} (hr : Alike Q r r') (hq : Alike Q q q') :
    Alike Q (if c then r else q) (if c then r' else q') := by
  split
  · exact hr
  · exact hq

theorem Alike.imp {Q' : γ → δ → Prop} (h : Alike Q r r') (himp : ∀ a b, r = .ok a → r' = .ok b → Q a b → Q' a b) :
    Alike Q' r r' := by
  match r, r' with
  | .ok a, .ok b => exact himp a b rfl rfl h
  | .error _, .error _ => exact h

theorem Alike.of_ok {a : γ} (h : Alike Q r r') (hr : r = .ok a) : ∃ b, r' = .ok b ∧ Q a b := by
  subst hr
  match r' with
  | .ok b => exact ⟨b, rfl, h⟩

end

/-! ### A session in two surroundings -/

/-- The registers and buffers of `s` that a session works on, in the surroundings `r`; a session that does not read the stream
leaves the reader to the surroundings. -/
def within (reads : Bool) (r s : State) : State :=
  { r with
    mode := s.mode, low := s.low, high := s.high, acc := s.acc, nbits := s.nbits, pending := s.pending, total := s.total,
    sym := s.sym, ftab := s.ftab, bits := s.bits, cfg := s.cfg
    window := if reads then s.window else r.window
    rpos := if reads then s.rpos else r.rpos }

/-- In the surroundings `r` the operation does what it does elsewhere. -/
abbrev Local (reads : Bool) (r : State) (f : State → Except Stop State) (s : State) : Prop :=
  Alike (fun t u => u = within reads r t) (f s) (f (within reads r s))

variable {reads : Bool} {r : State}

/-- The rule of sequence. -/
theorem Alike.andThen {g : State → Except Stop State} {x y : Except Stop State}
    (h : Alike (fun t u => u = within reads r t) x y) (hg : ∀ t, Local reads r g t) :
    Alike (fun t u => u = within reads r t) (x >>= g) (y >>= g) :=
  h.bind fun t _ ht => ht ▸ hg t

/-! ### The bit channel (R131 to R136) -/

theorem appendByte_local (v : Nat) (s : State) : Local reads r (appendByte v) s :=
  .ite .raise <| .read fun _ => rfl

theorem writeBit_local (b : Bit) (s : State) : Local reads r (writeBit b) s :=
  .ite (appendByte_local _ s) <| .read fun _ => rfl

theorem writeBits_local (b : Bit) : ∀ (n : Nat) (s : State), Local reads r (writeBits n b) s
  | 0, _ => rfl
  | n + 1, s => (writeBit_local b s).andThen (writeBits_local b n)

theorem emit_local (b : Bit) (s : State) : Local reads r (emit b) s :=
  .bind (writeBit_local b s) <| by
    rintro t _ rfl
    exact .andThen (writeBits_local (~~~b) t.pending.toNat t) fun _ => rfl

theorem defer_local (s : State) : Local reads r defer s := .ite .raise rfl

theorem padByte_local (s : State) : Local reads r padByte s := .ite rfl (appendByte_local _ s)

theorem writerFinish_local (s : State) : Local reads r writerFinish s :=
  .andThen (defer_local s) fun t => .andThen (emit_local 1 t) padByte_local

theorem shiftWindow_local (s : State) : Local true r shiftWindow s :=
  .bind (P := fun p q : Bit × State => q = (p.1, within true r p.2)) (.ite .raise rfl) <| by
    rintro p _ rfl
    exact .read fun _ => rfl

theorem shiftWindows_local : ∀ (n : Nat) (s : State), Local true r (shiftWindows n) s
  | 0, _ => rfl
  | n + 1, s => .andThen (shiftWindow_local s) (shiftWindows_local n)

/-! ### The interval (R161 to R170) -/

theorem narrow_local (cs ce T : Nat) (s : State) : Local reads r (narrow cs ce T) s :=
  .read fun _ => .read fun _ => .read fun _ => .read fun _ => .read fun _ => .read fun _ => rfl

theorem scale_local (s : State) : Local reads r scale s := .read fun _ => .read fun _ => rfl

theorem lowerBounds_local (d : Nat) (s : State) : Local reads r (lowerBounds d) s := .read fun _ => .read fun _ => rfl

theorem lowerWindow_local (d : Nat) (s : State) : Local true r (lowerWindow d) s := .read fun _ => rfl

theorem encCase_local (k : RenormCase) (s : State) : Local reads r (encCase k) s :=
  match k with
  | .e1 => emit_local 0 s
  | .e2 => .andThen (emit_local 1 s) (lowerBounds_local half)
  | .e3 => .andThen (defer_local s) (lowerBounds_local firstQtr)
  | .stop => rfl

theorem renormEncLoop_local : ∀ (n : Nat) (s : State), Local reads r (renormEncLoop n) s
  | 0, _ => .ite rfl .raise
  | n + 1, s => .ite rfl <|
    .andThen (encCase_local (classify s.low s.high) s) fun t => .andThen (scale_local t) (renormEncLoop_local n)

theorem decCase_local (k : RenormCase) (s : State) : Local true r (decCase k) s :=
  match k with
  | .e1 => rfl
  | .e2 => .andThen (lowerBounds_local half s) (lowerWindow_local half)
  | .e3 => .andThen (lowerBounds_local firstQtr s) (lowerWindow_local firstQtr)
  | .stop => rfl

theorem renormDecLoop_local : ∀ (n : Nat) (s : State), Local true r (renormDecLoop n) s
  | 0, _ => .ite rfl .raise
  | n + 1, s => .ite rfl <|
    .andThen (decCase_local (classify s.low s.high) s) fun t => .andThen (scale_local t) fun u =>
    .andThen (shiftWindow_local u) (renormDecLoop_local n)

/-! ### Symbols (R172, R176) -/

theorem encodeSymbol_local (x : Sym) (s : State) : Local reads r (encodeSymbol x) s := by
  match h : findSym s.ftab x with
  | none =>
    have h' : findSym (within reads r s).ftab x = none := h
    rw [Local, encodeSymbol_of_none h, encodeSymbol_of_none h']
    rfl
  | some e =>
    have h' : findSym (within reads r s).ftab x = some e := h
    rw [Local, encodeSymbol_of_some h, encodeSymbol_of_some h']
    exact .andThen (narrow_local _ _ _ s) (renormEncLoop_local 24)

theorem encodeSymbols_local : ∀ (xs : List Sym) (s : State), Local reads r (encodeSymbols xs) s
  | [], _ => rfl
  | x :: xs, s => .andThen (encodeSymbol_local x s) (encodeSymbols_local xs)

theorem decodeSymbol_local (s : State) : Local true r decodeSymbol s := by
  refine .read fun target => ?_
  match findCum s.ftab target with
  | none => rfl
  | some e => exact .ite .raise <| .andThen (narrow_local _ _ _ { s with sym := s.sym ++ [e.sym] }) (renormDecLoop_local 24)

theorem decodeSymbols_local : ∀ (n : Nat) (s : State), Local true r (decodeSymbols n) s
  | 0, _ => rfl
  | n + 1, s => .andThen (decodeSymbol_local s) (decodeSymbols_local n)

/-! ### `ENC.RUN` and `DEC.RUN` (R174, R178) -/

theorem tableCheck_congr (hftab : u.ftab = s.ftab) (htotal : u.total = s.total) : tableCheck u = tableCheck s := by
  rw [tableCheck, tableCheck, hftab, htotal]

theorem encBeginBody_alike (hsym : u.sym = s.sym) (hftab : u.ftab = s.ftab) (htotal : u.total = s.total) (hcfg : u.cfg = s.cfg) :
    Alike (fun t v => v = within false v t) (encBeginBody s) (encBeginBody u) := by
  rw [encBeginBody, encBeginBody, tableCheck_congr hftab htotal]
  refine .read fun _ => ?_
  simp [Alike, within, intervalInit, writerInit, hsym, hftab, htotal, hcfg]

/-- The stream that `ENC.RUN` writes depends on the symbols, the table and the configuration. -/
theorem encRunBody_alike (hsym : u.sym = s.sym) (hftab : u.ftab = s.ftab) (htotal : u.total = s.total) (hcfg : u.cfg = s.cfg) :
    Alike (fun t v => v.bits = t.bits) (encRunBody s) (encRunBody u) := by
  by_cases h0 : s.sym = []
  · have hs : encRunBody s = .ok { s with bits := [] } := if_pos (List.length_eq_zero_iff.2 h0)
    have hu : encRunBody u = .ok { u with bits := [] } := if_pos (List.length_eq_zero_iff.2 (hsym.trans h0))
    rw [hs, hu]
    rfl
  · rw [encRunBody_of_ne_nil h0, encRunBody_of_ne_nil (hsym ▸ h0), hsym]
    refine (encBeginBody_alike hsym hftab htotal hcfg).bind fun t v hv => ?_
    rw [hv]
    refine (encodeSymbols_local s.sym t).bind ?_
    rintro t _ rfl
    refine (writerFinish_local t).bind ?_
    rintro t _ rfl
    rfl

/-- What `DEC.RUN` reads is the same in both states: the stream, the table and the configuration (R178). -/
structure SameStream (s u : State) : Prop where
  ftab : u.ftab = s.ftab
  total : u.total = s.total
  bits : u.bits = s.bits
  cfg : u.cfg = s.cfg

theorem decBeginBody_alike (h : SameStream s u) (hm : s.mode = .idle) (hm' : u.mode = .idle) (hclear : TransientsClear s)
    (hclear' : TransientsClear u) :
    Alike (fun t v => v = within true v t) (decBeginBody s) (decBeginBody u) := by
  obtain ⟨hftab, htotal, hbits, hcfg⟩ := h
  obtain ⟨hlow, hhigh, -, hacc, hnbits, hpending, -⟩ := hclear
  obtain ⟨hlow', hhigh', -, hacc', hnbits', hpending', -⟩ := hclear'
  have hstart : { u with sym := [], rpos := 0, window := 0 } = within true u { s with sym := [], rpos := 0, window := 0 } := by
    simp [within, *]
  rw [decBeginBody, decBeginBody, tableCheck_congr hftab htotal, readerInit, readerInit, hstart]
  refine .read fun _ => (shiftWindows_local 24 _).bind ?_
  rintro t _ rfl
  rfl

/-- At rest, the symbols that `DEC.RUN` finds depend on what it reads alone. -/
theorem decRunBody_alike (h : SameStream s u) (hm : s.mode = .idle) (hm' : u.mode = .idle) (hclear : TransientsClear s)
    (hclear' : TransientsClear u) : Alike (fun t v => v.sym = t.sym) (decRunBody s) (decRunBody u) := by
  rw [decRunBody, decRunBody, tableCheck_congr h.ftab h.total, h.total]
  refine .read fun _ => .ite rfl ((decBeginBody_alike h hm hm' hclear hclear').bind fun t v hv => ?_)
  rw [hv]
  refine (decodeSymbols_local _ t).bind ?_
  rintro t _ rfl
  rfl

end Sys2Proof.Proofs
end

section
/-! PROOF. CompressDeterministic: each part of `COMPRESS` does alike from states that agree in what it reads (R263). -/

namespace Sys2Proof.Proofs

open Sys2Proof.Machine Sys2Proof.Safety

variable {s t u : State}

theorem dxFindBody_alike (hcfg : u.cfg = s.cfg) (hibuf : u.ibuf = s.ibuf) :
    Alike (fun t v => v.cfg = t.cfg ∧ v.ibuf = t.ibuf ∧ v.dict = t.dict) (dxFindBody s) (dxFindBody u) := by
  have hfits (d : List (List Byte)) : dictFits u d = dictFits s d := by
    rw [dictFits, dictFits, State.capDictWords, State.capWordBytes, hcfg]
    rfl
  rw [dxFindBody, dxFindBody, hfits, hcfg, hibuf]
  exact .ite ⟨rfl, rfl, rfl⟩ .raise

theorem dxSubBody_alike (hcfg : u.cfg = s.cfg) (hibuf : u.ibuf = s.ibuf) (hdict : u.dict = s.dict) :
    Alike (fun t v => v.cfg = t.cfg ∧ v.dict = t.dict ∧ v.sym = t.sym) (dxSubBody s) (dxSubBody u) := by
  rw [dxSubBody, dxSubBody, State.capSym, State.capSym, hcfg, hibuf, hdict]
  exact .ite .raise ⟨rfl, rfl, rfl⟩

theorem fmBuildBody_alike (hcfg : u.cfg = s.cfg) (hdict : u.dict = s.dict) (hsym : u.sym = s.sym) :
    Alike (fun t v => v.cfg = t.cfg ∧ v.dict = t.dict ∧ v.sym = t.sym ∧ v.ftab = t.ftab ∧ v.total = t.total)
      (fmBuildBody s) (fmBuildBody u) := by
  rw [fmBuildBody, fmBuildBody, State.capFtab, State.capFtab, hcfg, hsym]
  exact .ite .raise <| .ite .raise ⟨rfl, hdict, rfl, rfl, rfl⟩

/-- `ENC.RUN` keeps dictionary, table and configuration (R174). -/
theorem encRunBody_keeps (h : encRunBody s = .ok t) :
    t.cfg = s.cfg ∧ t.dict = s.dict ∧ t.ftab = s.ftab ∧ t.total = s.total := by
  rcases encRunBody_ok h with ⟨-, rfl⟩ | ⟨-, u, v, hu, hv, ht⟩
  · exact ⟨rfl, rfl, rfl, rfl⟩
  · obtain ⟨-, rfl⟩ := encBeginBody_ok hu
    obtain ⟨w, hw, rfl⟩ := encEndBody_ok ht
    have hframe := ((encodeSymbols_frame hv).trans (.of_writer (writerFinish_frame hw))).1
    rw [hframe]
    exact ⟨rfl, rfl, rfl, rfl⟩

/-- Both states hold one artifact (R265). -/
def SameArtifact (t v : State) : Prop :=
  v.dict = t.dict ∧ v.ftab = t.ftab ∧ v.total = t.total ∧ v.bits = t.bits

theorem encodeBody_alike (hcfg : u.cfg = s.cfg) (hibuf : u.ibuf = s.ibuf) :
    Alike (fun t v => v.cfg = t.cfg ∧ SameArtifact t v) (encodeBody s) (encodeBody u) :=
  (dxFindBody_alike hcfg hibuf).bind fun _ _ ⟨hcfg, hibuf, hdict⟩ =>
  (dxSubBody_alike hcfg hibuf hdict).bind fun _ _ ⟨hcfg, hdict, hsym⟩ =>
  (fmBuildBody_alike hcfg hdict hsym).bind fun _ _ ⟨hcfg, hdict, hsym, hftab, htotal⟩ =>
  (encRunBody_alike hsym hftab htotal hcfg).imp fun t v ht hv hbits => by
    obtain ⟨hcfg_t, hdict_t, hftab_t, htotal_t⟩ := encRunBody_keeps ht
    obtain ⟨hcfg_v, hdict_v, hftab_v, htotal_v⟩ := encRunBody_keeps hv
    refine ⟨?_, ?_, ?_, ?_, hbits⟩
    · rw [hcfg_v, hcfg, hcfg_t]
    · rw [hdict_v, hdict, hdict_t]
    · rw [hftab_v, hftab, hftab_t]
    · rw [htotal_v, htotal, htotal_t]

theorem serBody_alike (hcfg : u.cfg = s.cfg) (h : SameArtifact s u) :
    Alike (fun t v => v.obuf = t.obuf ∧ SameArtifact t v) (serBody s) (serBody u) := by
  obtain ⟨hdict, hftab, htotal, hbits⟩ := h
  rw [serBody, serBody, serSize, serSize, State.capObuf, State.capObuf, hcfg, hdict, hftab, htotal, hbits]
  exact .ite .raise ⟨rfl, rfl, rfl, rfl, rfl⟩

theorem compressBody_alike (hcfg : u.cfg = s.cfg) (hibuf : u.ibuf = s.ibuf) :
    Alike (fun t v => v.obuf = t.obuf ∧ SameArtifact t v) (compressBody s) (compressBody u) :=
  (encodeBody_alike hcfg hibuf).bind fun _ _ ⟨hcfg, h⟩ => serBody_alike hcfg h

/-- What a fault of `COMPRESS` leaves of its destination set (R320). -/
theorem faultEntry_compress (x : Cause) (info : Nat) (s : State) :
    (faultEntry x info (destOf .compress) s).obuf = [] ∧ (faultEntry x info (destOf .compress) s).bits = [] ∧
    (faultEntry x info (destOf .compress) s).dict = [] := by
  simp [destOf, destUnion]

/-- Settles O54: both runs complete with one artifact, or fault for one reason, which leaves none. -/
theorem compressDeterministic : Obligations.CompressDeterministic := by
  unfold Obligations.CompressDeterministic
  intro s s' t t' hat hat' hibuf hcfg ht ht'
  have halike := compressBody_alike hcfg.symm hibuf.symm
  have hrun {s : State} (hat : At .ready .idle s) : exec .compress s = finish s (destOf .compress) (compressBody s) :=
    accept_run hat.1 (by rw [hat.2]; rfl)
  rw [hrun hat] at ht
  rw [hrun hat'] at ht'
  rcases finish_next.1 ht with hr | ⟨x, info, hr, rfl⟩ <;> rcases finish_next.1 ht' with hr' | ⟨x', info', hr', rfl⟩ <;>
    rw [hr, hr'] at halike
  · obtain ⟨hobuf, hdict, -, -, hbits⟩ := halike
    have hstatus := (compressBody_leaves hat.2 hr).status.trans hat.1
    have hstatus' := (compressBody_leaves hat'.2 hr').status.trans hat'.1
    exact ⟨hstatus.trans hstatus'.symm, hobuf.symm, hbits.symm, hdict.symm⟩
  · exact halike.elim
  · exact halike.elim
  · obtain ⟨hobuf, hbits, hdict⟩ := faultEntry_compress x info s
    obtain ⟨hobuf', hbits', hdict'⟩ := faultEntry_compress x' info' s'
    exact ⟨rfl, hobuf.trans hobuf'.symm, hbits.trans hbits'.symm, hdict.trans hdict'.symm⟩

end Sys2Proof.Proofs
end

section
/-! PROOF. DecodeCompletes: `DEC.RUN` leaves symbols of the table, each of which is expanded; and `DECOMPRESS` decodes what `DES`
gives back, in other surroundings (R261, R269). -/

namespace Sys2Proof.Proofs

open Sys2Proof.Machine Sys2Proof.Safety

variable {s t u : State} {dict : List (List Byte)} {x : Sym} {xs : List Sym} {words : List (List Byte)} {m : Nat}

/-! ### `DEC.RUN` in other surroundings -/

/-- `DEC.RUN` changes nothing but `SYM` (R178). -/
theorem decRunBody_frame (hat : At .ready .idle s) (hclear : TransientsClear s) (h : decRunBody s = .ok t) :
    t = { s with sym := t.sym } := by
  obtain ⟨-, ⟨-, rfl⟩ | ⟨h0, u, v, hu, hv, -⟩⟩ := decRunBody_ok h
  · rfl
  · have htotal : u.total = s.total := by rw [decBeginBody_frame hu]
    rw [htotal] at hv
    have hrun : exec .decRun s = .next t := accept_of_ok hat rfl h
    obtain rfl := Host.Outcome.next.inj ((decRun_of_decoded hat hclear h0 hu hv).symm.trans hrun)
    rfl

/-- At rest, with the same stream, table and configuration, `DEC.RUN` finds the same symbols. -/
theorem decRunBody_of_sameStream (h : SameStream s u) (hat : At .ready .idle s) (hat' : At .ready .idle u)
    (hclear : TransientsClear s) (hclear' : TransientsClear u) (hrun : decRunBody s = .ok t) :
    decRunBody u = .ok { u with sym := t.sym } := by
  obtain ⟨v, hv, hsym⟩ := (decRunBody_alike h hat.2 hat'.2 hclear hclear').of_ok hrun
  rw [hv, decRunBody_frame hat' hclear' hv, hsym]

/-! ### Expansion (R238) -/

/-- The bytes a symbol in range stands for (R238). -/
def wordOf (dict : List (List Byte)) (x : Sym) : List Byte :=
  if x.toNat < 256 then [BitVec.ofNat 8 x.toNat] else (dict[x.toNat - 256]?).getD []

theorem expands_wordOf (h : x.toNat < 256 + dict.length) : Expands dict x (wordOf dict x) := by
  rw [Expands, wordOf]
  split
  · rename_i hraw
    rw [List.map_singleton, BitVec.toNat_ofNat, Nat.mod_eq_of_lt hraw]
  · rw [List.getElem?_eq_getElem (by omega), Option.getD_some]

theorem length_wordOf_le (hm : 1 ≤ m) (hdict : ∀ w ∈ dict, w.length ≤ m) (x : Sym) : (wordOf dict x).length ≤ m := by
  rw [wordOf]
  split
  · exact hm
  · match hw : dict[x.toNat - 256]? with
    | none => exact Nat.zero_le m
    | some w => exact hdict w (List.mem_of_getElem? hw)

theorem length_flatten_wordOf_le (hm : 1 ≤ m) (hdict : ∀ w ∈ dict, w.length ≤ m) (xs : List Sym) :
    (xs.map (wordOf dict)).flatten.length ≤ xs.length * m := by
  have hsum := List.sum_le_card_nsmul ((xs.map (wordOf dict)).map List.length) m
    (List.forall_mem_map.2 (List.forall_mem_map.2 fun x _ => length_wordOf_le hm hdict x))
  simpa [List.length_flatten] using hsum

/-- `DECODE` expands the symbols that `DEC.RUN` finds (R261). -/
theorem decodeBody_of_expands (hrun : decRunBody s = .ok { s with sym := xs }) (hwords : List.Forall₂ (Expands s.dict) xs words)
    (hroom : words.flatten.length ≤ s.capObuf) : decodeBody s = .ok { s with sym := xs, obuf := words.flatten } := by
  have hexpand := expandFrom_append (more := []) hwords (out := []) (Nat.zero_le s.capObuf)
  rw [List.append_nil, List.nil_append, if_neg hroom.not_gt] at hexpand
  exact bind_ok.2 ⟨_, hrun, bind_ok.2 ⟨_, hexpand, rfl⟩⟩

/-- Settles O50: the symbols found are of the table, so in range; in the state that `DES` leaves they are the same. -/
theorem decodeCompletes : Obligations.DecodeCompletes := by
  unfold Obligations.DecodeCompletes
  intro s u m trailing hat hclear hwf hT hvalid hcap hrange hm hdict hroom hatu hclearu hcfg hibuf
  obtain ⟨hruns, -⟩ := decRunCompletes s hat hclear hT hvalid
  obtain ⟨t, hrun, hframe, hlen, htable⟩ := hruns hcap
  have hbody : decRunBody s = .ok { s with sym := t.sym } :=
    hframe ▸ body_of_next hat hrun (by rw [hframe]; exact hat.1)
  have hwords : List.Forall₂ (Expands s.dict) t.sym (t.sym.map (wordOf s.dict)) := by
    rw [List.forall₂_map_right_iff, List.forall₂_same]
    intro x hx
    obtain ⟨e, he, rfl⟩ := htable x hx
    exact expands_wordOf (hrange e he)
  have hbytes : (t.sym.map (wordOf s.dict)).flatten.length ≤ s.capObuf :=
    (length_flatten_wordOf_le hm hdict t.sym).trans (hlen ▸ hroom)
  obtain ⟨hdict_u, hftab_u, hbits_u⟩ := fits_of_cfg_eq hcfg hwf
  have hdes := desBody_of_artifact hdict_u hftab_u hbits_u hibuf
  have hbody_u := decRunBody_of_sameStream (s := s)
    (u := { u with dict := s.dict, ftab := s.ftab, total := s.total, bits := s.bits })
    ⟨rfl, rfl, rfl, hcfg⟩ hat hatu hclear hclearu hbody
  have hcap_u : u.capObuf = s.capObuf := by rw [State.capObuf, hcfg]; rfl
  exact ⟨_, _, accept_of_ok hat rfl (decodeBody_of_expands hbody hwords hbytes), rfl, hlen, rfl,
    accept_of_ok hatu rfl (bind_ok.2 ⟨_, hdes, decodeBody_of_expands hbody_u hwords (hbytes.trans_eq hcap_u.symm)⟩), rfl⟩

end Sys2Proof.Proofs
end

section
/-! PROOF. DecodeInvertsEncode, DecompressInvertsCompress: with the reference capacities each part of `ENCODE` completes on every
input below the bound, and the round trips of its parts are those of the whole (R240, R179 (g), R262, R270). -/

namespace Sys2Proof.Proofs

open Sys2Proof.Machine Sys2Proof.Safety

variable {s t : State} {dict : List (List Byte)} {input bits : List Byte}

/-! ### The dictionary is no larger than the input (R231 to R235) -/

theorem length_wordRuns_le : ∀ (input run : List Byte), (wordRuns run input).length ≤ run.length + input.length
  | [], run => by
    rw [wordRuns]
    split
    · exact Nat.zero_le _
    · rename_i hrun
      exact List.length_pos_iff.2 (by simpa using hrun)
  | c :: cs, run => by
    rw [wordRuns, List.length_cons]
    split
    · have := length_wordRuns_le cs (run ++ [c])
      rw [List.length_append, List.length_singleton] at this
      omega
    · have := length_wordRuns_le cs []
      rw [List.length_nil] at this
      split
      · omega
      · rename_i hrun
        have hpos : 0 < run.length := List.length_pos_iff.2 (by simpa using hrun)
        rw [List.length_cons]
        omega

theorem length_findDictionary_le (c : Config) (input : List Byte) : (findDictionary c input).length ≤ input.length := by
  rw [findDictionary]
  split
  · exact Nat.zero_le _
  · have hsub : rankedWords c input ⊆ tokens c input := fun w hw =>
      (List.mem_filter.1 ((mem_sortDistinct rankedBefore_connex).1 hw)).1
    have hruns := length_wordRuns_le input []
    rw [List.length_nil, Nat.zero_add] at hruns
    calc ((rankedWords c input).take c.dictMaxWords).length
      _ ≤ (rankedWords c input).length := List.length_take_le' _ _
      _ ≤ (tokens c input).length := ((rankedWords_nodup c input).subperm hsub).length_le
      _ ≤ (wordRuns [] input).length := List.length_filter_le _ _
      _ ≤ input.length := hruns

theorem length_le_of_mem_findDictionary {c : Config} {w : List Byte} (h : w ∈ findDictionary c input) :
    w.length ≤ input.length := length_le_of_qualifies ((findDictionary_isDictionary c input).qualifying w h)

/-! ### Substitution and expansion (R240) -/

theorem substitute_expands (hdict : dict.length + 256 ≤ 2 ^ 32) (input : List Byte) :
    (substitute dict input).length ≤ input.length ∧
    ∃ words, List.Forall₂ (Expands dict) (substitute dict input) words ∧ words.flatten = input := by
  obtain ⟨pieces, hcuts, hsyms⟩ := exists_cuts dict [] input
  rw [substitute, ← endsInRun_nil, ← hsyms, List.length_map]
  refine ⟨hcuts.few, pieces.map Prod.snd, ?_, hcuts.cover.symm⟩
  rw [List.forall₂_map_left_iff, List.forall₂_map_right_iff, List.forall₂_same]
  intro p hp
  obtain ⟨j, hj⟩ := List.mem_iff_getElem?.1 hp
  exact IsPiece.expands hdict (hcuts.pieces j p hj)

/-! ### `ENCODE` (R260) -/

/-- The state in which `ENCODE` runs the encoder: dictionary, symbols and table made of the input. -/
def prepared (s : State) : State :=
  fmBuilt { s with
    dict := findDictionary s.cfg s.ibuf
    sym := substitute (findDictionary s.cfg s.ibuf) s.ibuf }

/-- The state in which `ENCODE` completes with the bitstream `bits`. -/
def encoded (s : State) (bits : List Byte) : State := { prepared s with bits := bits }

theorem prepared_inTable : InTable (prepared s).ftab (prepared s).sym := fun _ => fmBuilt_symbols.2

section
variable (hat : At .ready .idle s) (hclear : TransientsClear s) (hcaps : ReferenceCaps s.cfg) (hlen : s.ibuf.length < maxTotal)

theorem cap_of_reference {c : Nat} (h : c = lengthLimit) : capOf c = 2 ^ 32 - 1 := by
  rw [h]
  decide

include hlen

theorem dictSymbols_fit : (findDictionary s.cfg s.ibuf).length + 256 ≤ 2 ^ 32 := by
  have hdict := length_findDictionary_le s.cfg s.ibuf
  rw [maxTotal_eq] at hlen
  omega

theorem length_prepared_sym_le : (prepared s).sym.length ≤ s.ibuf.length :=
  (substitute_expands (dictSymbols_fit hlen) s.ibuf).1

theorem prepared_sym_lt : (prepared s).sym.length < maxTotal := (length_prepared_sym_le hlen).trans_lt hlen

theorem prepared_total : (prepared s).total.toNat = (prepared s).sym.length := fmBuilt_total (prepared_sym_lt hlen)

theorem prepared_valid : ValidTable (prepared s).ftab (prepared s).total.toNat := fmBuilt_valid (prepared_sym_lt hlen)

theorem prepared_total_lt : (prepared s).total.toNat < maxTotal := (prepared_total hlen).trans_lt (prepared_sym_lt hlen)

theorem length_prepared_ftab_le : (prepared s).ftab.length ≤ s.ibuf.length := by
  rw [prepared, fmBuilt, buildEntries_length, distinctIds_length]
  exact (List.dedup_sublist _).length_le.trans (length_prepared_sym_le hlen)

include hcaps

theorem prepared_dictFits : dictFits s (prepared s).dict = true := by
  obtain ⟨-, -, hwords, hbytes, -⟩ := hcaps
  rw [dictFits_iff, State.capDictWords, State.capWordBytes, cap_of_reference hwords, cap_of_reference hbytes]
  rw [maxTotal_eq] at hlen
  refine ⟨?_, fun w hw => ?_⟩
  · have := length_findDictionary_le s.cfg s.ibuf
    exact this.trans (by omega)
  · have := length_le_of_mem_findDictionary hw
    omega

/-- `ENCODE` runs the encoder in the prepared state. -/
theorem encodeBody_of_encRunBody (h : encRunBody (prepared s) = .ok t) : encodeBody s = .ok t := by
  have hsym := length_prepared_sym_le hlen
  have hfind := dxFindBody_of_fits (prepared_dictFits hcaps hlen)
  obtain ⟨-, hcapSym, -, -, hcapFtab, -⟩ := hcaps
  have hlt := prepared_sym_lt hlen
  have hdedup := (List.dedup_sublist (prepared s).sym).length_le
  rw [maxTotal_eq] at hlen
  have hsub : (prepared s).sym.length ≤ s.capSym := by
    rw [State.capSym, cap_of_reference hcapSym]
    omega
  have htable : (prepared s).sym.dedup.length ≤ s.capFtab := by
    rw [State.capFtab, cap_of_reference hcapFtab]
    omega
  have hbuild := fmBuildBody_ok_iff.2 ⟨hlt, htable, rfl⟩
  exact bind_ok.2 ⟨_, hfind, bind_ok.2 ⟨_, dxSubBody_of_le hsub, bind_ok.2 ⟨_, hbuild, h⟩⟩⟩

/-- `BITS` has room for 24 bits a symbol. -/
theorem prepared_bits_fit : (24 * (prepared s).sym.length + 9) / 8 ≤ (prepared s).capBits := by
  obtain ⟨-, -, -, -, -, hcapBits, -⟩ := hcaps
  have hcap : (prepared s).capBits = 2 ^ 32 - 1 := cap_of_reference hcapBits
  have hlt := prepared_sym_lt hlen
  rw [maxTotal_eq] at hlt
  omega

theorem prepared_sym_fits : (prepared s).sym.length ≤ (prepared s).capSym := by
  obtain ⟨-, hcapSym, -⟩ := hcaps
  have hcap : (prepared s).capSym = 2 ^ 32 - 1 := cap_of_reference hcapSym
  have hlt := prepared_sym_lt hlen
  rw [maxTotal_eq] at hlt
  omega

include hat hclear

/-- `ENC.RUN` completes, with at most 24 bits a symbol. -/
theorem exists_encRun_prepared : ∃ bits : List Byte, bits.length ≤ 3 * s.ibuf.length + 2 ∧
    exec .encRun (prepared s) = .next (encoded s bits) := by
  obtain ⟨hnone, hsome⟩ := encRunCompletes (prepared s) hat hclear
  by_cases h0 : (prepared s).sym = []
  · exact ⟨[], Nat.zero_le _, hnone h0⟩
  · have hsym := length_prepared_sym_le hlen
    have hfits := prepared_bits_fit hcaps hlen
    have hlt := prepared_sym_lt hlen
    rw [maxTotal_eq] at hlt
    obtain ⟨t, ht, hframe, -, hlong⟩ :=
      hsome h0 (prepared_total_lt hlen) (prepared_valid hlen) prepared_inTable (by omega) hfits
    exact ⟨t.bits, by omega, ht.trans (congrArg _ hframe)⟩

/-- `ENCODE` completes; its bitstream is short, and `DEC.RUN` after it leaves the state as it is. -/
theorem exists_encoded : ∃ bits : List Byte, bits.length ≤ 3 * s.ibuf.length + 2 ∧
    encodeBody s = .ok (encoded s bits) ∧ decRunBody (encoded s bits) = .ok (encoded s bits) := by
  obtain ⟨bits, hshort, hrun⟩ := exists_encRun_prepared hat hclear hcaps hlen
  obtain ⟨t, u, ht, -, hu, hready, hsym⟩ := decRunInvertsEncRun (prepared s) hat hclear (prepared_total_lt hlen)
    (prepared_valid hlen) (prepared_total hlen).symm prepared_inTable (prepared_bits_fit hcaps hlen)
    (prepared_sym_fits hcaps hlen)
  obtain rfl := Host.Outcome.next.inj (hrun.symm.trans ht)
  have hdec : decRunBody (encoded s bits) = .ok u := body_of_next (s := encoded s bits) hat hu hready
  have hsame : u = encoded s bits := by
    have hframe := decRunBody_frame (s := encoded s bits) hat hclear hdec
    rw [hsym] at hframe
    exact hframe
  have henc : encRunBody (prepared s) = .ok (encoded s bits) := body_of_next (s := prepared s) hat hrun hat.1
  exact ⟨bits, hshort, encodeBody_of_encRunBody hcaps hlen henc, hsame ▸ hdec⟩

end

/-- Where `DEC.RUN` finds the symbols of an input, `DECODE` gives the input back (R261). -/
theorem decodeBody_of_prepared {d : State} (hlen : s.ibuf.length < maxTotal) (hcap : s.cfg.capObuf = lengthLimit)
    (hdict : d.dict = (prepared s).dict) (hcfg : d.cfg = s.cfg) (hrun : decRunBody d = .ok { d with sym := (prepared s).sym }) :
    decodeBody d = .ok { d with sym := (prepared s).sym, obuf := s.ibuf } := by
  obtain ⟨-, words, hwords, hflat⟩ := substitute_expands (dictSymbols_fit hlen) s.ibuf
  have hexpands : List.Forall₂ (Expands d.dict) (prepared s).sym words := by
    rw [hdict]
    exact hwords
  have hroom : words.flatten.length ≤ d.capObuf := by
    rw [hflat, State.capObuf, hcfg, cap_of_reference hcap]
    rw [maxTotal_eq] at hlen
    omega
  have hdec := decodeBody_of_expands hrun hexpands hroom
  rwa [hflat] at hdec

/-- Settles O52: the decoder inverts the encoder, and the expansion the substitution. -/
theorem decodeInvertsEncode : Obligations.DecodeInvertsEncode := by
  unfold Obligations.DecodeInvertsEncode
  intro s hat hclear hcaps hlen
  obtain ⟨bits, -, henc, hdec⟩ := exists_encoded hat hclear hcaps hlen
  obtain ⟨-, -, -, -, -, -, hcapObuf⟩ := hcaps
  have hdecode := decodeBody_of_prepared (d := encoded s bits) hlen hcapObuf rfl rfl hdec
  exact ⟨encoded s bits, _, accept_of_ok hat rfl henc, hat.1, rfl, rfl, prepared_total hlen, length_prepared_sym_le hlen,
    prepared_valid hlen, accept_of_ok (s := encoded s bits) hat rfl hdecode, hat.1, rfl, rfl⟩

/-! ### `COMPRESS` and `DECOMPRESS` (R268, R269) -/

/-- The artifact of an input below the bound fits the reference capacity of `OBUF` (R93). -/
theorem serSize_encoded_le (hwords : s.cfg.dictMaxWords = 25) (hlen : s.ibuf.length < maxTotal)
    (hbits : bits.length ≤ 3 * s.ibuf.length + 2) : serSize (encoded s bits) ≤ 2 ^ 32 - 1 := by
  have hfew : (prepared s).dict.length ≤ 25 := hwords ▸ (findDictionary_isDictionary s.cfg s.ibuf).few
  have hftab := length_prepared_ftab_le hlen
  have hdict := List.sum_le_card_nsmul ((prepared s).dict.map fun w => 4 + w.length) (4 + s.ibuf.length)
    (List.forall_mem_map.2 fun w hw => Nat.add_le_add_left (length_le_of_mem_findDictionary hw) 4)
  rw [List.length_map, smul_eq_mul] at hdict
  have hbytes := hdict.trans (Nat.mul_le_mul_right _ hfew)
  rw [maxTotal_eq] at hlen
  simp only [serSize, encoded]
  omega

/-- `DECOMPRESS` of the artifact gives the input back (R269, R270). -/
theorem decompressBody_of_encoded {d : State} (hat : At .ready .idle s) (hclear : TransientsClear s)
    (hcaps : ReferenceCaps s.cfg) (hlen : s.ibuf.length < maxTotal) (hbits : bits.length ≤ 3 * s.ibuf.length + 2)
    (hrun : decRunBody (encoded s bits) = .ok (encoded s bits)) (hat' : At .ready .idle d) (hclear' : TransientsClear d)
    (hcfg : d.cfg = s.cfg)
    (hibuf : d.ibuf = serialize (prepared s).dict (prepared s).ftab (prepared s).total bits) :
    decompressBody d = .ok { d with
      dict := (prepared s).dict, ftab := (prepared s).ftab, total := (prepared s).total, bits := bits,
      sym := (prepared s).sym, obuf := s.ibuf } := by
  have hdict := prepared_dictFits hcaps hlen
  have hftab := length_prepared_ftab_le hlen
  have hlt := hlen
  rw [maxTotal_eq] at hlt
  obtain ⟨-, -, -, -, hcapFtab, hcapBits, hcapObuf⟩ := hcaps
  have hdict_d : dictFits d (prepared s).dict = true := by
    rw [dictFits, State.capDictWords, State.capWordBytes, hcfg]
    exact hdict
  have hftab_d : (prepared s).ftab.length ≤ d.capFtab := by
    rw [State.capFtab, hcfg, cap_of_reference hcapFtab]
    omega
  have hbits_d : bits.length ≤ d.capBits := by
    rw [State.capBits, hcfg, cap_of_reference hcapBits]
    omega
  have hdes := desBody_of_artifact hdict_d hftab_d hbits_d (hibuf.trans (List.append_nil _).symm)
  have hdec := decRunBody_of_sameStream (s := encoded s bits)
    (u := { d with dict := (prepared s).dict, ftab := (prepared s).ftab, total := (prepared s).total, bits := bits })
    ⟨rfl, rfl, rfl, hcfg⟩ hat hat' hclear hclear' hrun
  exact bind_ok.2 ⟨_, hdes, decodeBody_of_prepared hlen hcapObuf rfl hcfg hdec⟩

/-- Settles O53: `DES` gives back what `SER` wrote, and `DECODE` what `ENCODE` was given. -/
theorem decompressInvertsCompress : Obligations.DecompressInvertsCompress := by
  unfold Obligations.DecompressInvertsCompress
  intro s hat hclear hcaps hmax hlen
  obtain ⟨bits, hshort, henc, hrun⟩ := exists_encoded hat hclear hcaps hlen
  obtain ⟨-, -, -, -, -, -, hcapObuf⟩ := id hcaps
  have hcap : s.capObuf = 2 ^ 32 - 1 := cap_of_reference hcapObuf
  have hser := serBody_of_fits (s := encoded s bits) ((serSize_encoded_le hmax hlen hshort).trans_eq hcap.symm)
  have hdecompress := decompressBody_of_encoded (d := { encoded s bits with
      obuf := serialize (prepared s).dict (prepared s).ftab (prepared s).total bits
      ibuf := serialize (prepared s).dict (prepared s).ftab (prepared s).total bits })
    hat hclear hcaps hlen hshort hrun hat hclear rfl rfl
  exact ⟨_, _, accept_of_ok hat rfl (bind_ok.2 ⟨_, henc, hser⟩), hat.1, accept_of_ok hat rfl hdecompress, hat.1, rfl⟩

end Sys2Proof.Proofs
end

section
/-! PROOF. NopChangesNothing: `NOP` comes through acceptance like every command but `RST` (R99), and its body writes nothing. -/

namespace Sys2Proof.Proofs

open Sys2Proof.Machine Sys2Proof.Safety

/-- Settles O2: in `READY` the command is legal in every `MODE` and its body answers the state it was given; in the fault state
the command is ignored. -/
theorem nopChangesNothing : Obligations.NopChangesNothing := by
  unfold Obligations.NopChangesNothing
  intro s
  cases hs : s.status with
  | ready => exact accept_of_ok (body := .ok) ⟨hs, rfl⟩ rfl rfl
  | fault => exact accept_ignored hs

end Sys2Proof.Proofs
end

section
/-! PROOF. FaultEntryEffect, FaultStateIsSticky, IllegalCommandRaised, FaultsArePrecise: what fault entry writes (R320), what leads
to it (R315, R324), and that nothing but a reset leads out of it (R321). -/

namespace Sys2Proof.Proofs

open Sys2Proof.Machine Sys2Proof.Safety

variable {s t : State} {i : Instr} {m : Mode} {w : Command}

/-! ### Fault entry (R320) -/

/-- Of a session's own set only `SYM` in `DEC` and `BITS` in `ENC` come to the destination set of a command (R320). -/
theorem destUnion_sessionDest_sym (d : Dest) (m : Mode) :
    (destUnion d (sessionDest m)).sym = true ↔ d.sym = true ∨ m = .dec := by
  cases m <;> simp [destUnion, sessionDest]

theorem destUnion_sessionDest_bits (d : Dest) (m : Mode) :
    (destUnion d (sessionDest m)).bits = true ↔ d.bits = true ∨ m = .enc := by
  cases m <;> simp [destUnion, sessionDest]

theorem destUnion_sessionDest_rest (d : Dest) (m : Mode) :
    (destUnion d (sessionDest m)).dict = d.dict ∧ (destUnion d (sessionDest m)).ftab = d.ftab ∧
    (destUnion d (sessionDest m)).total = d.total ∧ (destUnion d (sessionDest m)).obuf = d.obuf := by
  cases m <;> simp [destUnion, sessionDest]

/-- Settles O3: the destination set is the command's with the session's own, and every other field is a law of fault entry. -/
theorem faultEntryEffect : Obligations.FaultEntryEffect := by
  unfold Obligations.FaultEntryEffect
  rintro x info d s t rfl
  obtain ⟨hdict, hftab, htotal, hobuf⟩ := destUnion_sessionDest_rest d s.mode
  refine ⟨rfl, rfl, rfl, rfl, ⟨rfl, rfl, rfl, rfl, rfl, rfl, rfl, rfl⟩, ?_, ?_, ?_, ?_, ?_, ?_, rfl, rfl, rfl⟩
  · simp only [faultEntry_sym, destUnion_sessionDest_sym]
  · simp only [faultEntry_bits, destUnion_sessionDest_bits]
  · rw [faultEntry_dict, hdict]
  · rw [faultEntry_ftab, hftab]
  · rw [faultEntry_total, htotal]
  · rw [faultEntry_obuf, hobuf]

/-! ### The fault state (R321) -/

/-- In the fault state a host load is ignored (R72). -/
theorem hostLoad_in_fault {loaded : State} {fits : Bool} (hs : s.status = .fault) : hostLoad s fits loaded = s := by
  simp [hostLoad, hs]

/-- In the fault state a command is ignored, but for `RST`. -/
theorem exec_in_fault (hs : s.status = .fault) (hi : i ≠ .rst) : exec i s = .next s := by
  rw [exec_eq_accept hi, accept_ignored hs]

/-- In the fault state a word is ignored, whether it is a command or none, but for the word of `RST`. -/
theorem runCommand_in_fault (hs : s.status = .fault) (hw : w ≠ 0x00000001) : runCommand w s = .next s := by
  unfold runCommand
  split
  · rename_i i hd
    exact exec_in_fault hs fun hrst => hw (word_of_rst (hrst ▸ hd))
  · rw [acceptIllegal, if_pos hs]

/-- Only register 0 shows `STATE` (R38). -/
theorem hostReadReg_setStatus {n : Nat} (hn : n ≠ 0) (s : State) (r : RunState) :
    hostReadReg { s with status := r } n = hostReadReg s n := by
  unfold hostReadReg
  split
  · exact absurd rfl hn
  all_goals rfl

theorem hostRead_setStatus {p : Place} (hp : p ≠ .reg 0) (s : State) (r : RunState) :
    hostRead { s with status := r } p = hostRead s p := by
  cases p with
  | reg n => exact hostReadReg_setStatus (fun hn => hp (congrArg Place.reg hn)) s r
  | ftab j f => cases f <;> rfl
  | _ => rfl

/-- Settles O5: a command comes through acceptance and a load through `hostLoad`, and both ignore it in the fault state. -/
theorem faultStateIsSticky : Obligations.FaultStateIsSticky := by
  unfold Obligations.FaultStateIsSticky
  intro s hs
  refine ⟨fun i => exec_in_fault hs, fun e hreset hrst => ?_, step_of_port_nil, ?_, fun p hp => (hostRead_setStatus hp s _).symm⟩
  · by_cases hload : ∀ w, e ≠ .command w
    · obtain ⟨fits, loaded, hrun⟩ := runEvent_eq_hostLoad hload hreset s
      rw [hrun, hostLoad_in_fault hs]
    · obtain ⟨w, rfl⟩ : ∃ w, e = .command w := by simpa using hload
      exact runCommand_in_fault hs fun hw => hrst (congrArg HostEvent.command hw)
  · rw [hostRead, hostReadReg, hs]
    rfl

/-! ### Illegal commands (R315) -/

/-- A word that matches no row is no command (R98). -/
theorem runCommand_of_no_row (hs : s.status = .ready) (hw : ∀ r ∈ rows, w &&& r.mask ≠ r.pattern) :
    runCommand w s = .next (faultEntry .illegalCommand w.toNat {} s) := by
  unfold runCommand
  split
  · rename_i i hd
    obtain ⟨r, hrow, -⟩ := (decodeWord_ok_iff w i).1 hd
    obtain ⟨hr, hmatch⟩ := rowOf_spec hrow
    exact absurd hmatch (hw r hr)
  · simp [acceptIllegal, hs]

/-- A command is refused in every `MODE` but its legal one (R99). -/
theorem exec_of_illegal_mode (hs : s.status = .ready) (hl : legalMode i = some m) (hm : s.mode ≠ m) :
    exec i s = .next (faultEntry .illegalCommand (encodeWord i).toNat {} s) := by
  have hi : i ≠ .rst := by
    rintro rfl
    cases hl
  have hillegal : modeLegal i s.mode = false := Bool.eq_false_iff.2 fun h => hm (mode_of_legal hl h)
  simp [exec_eq_accept hi, accept, hs, hillegal]

/-- `DEC.SYM` is refused where all symbols are decoded (R176). -/
theorem decSymBody_of_total_le (h : s.total.toNat ≤ s.sym.length) :
    decSymBody s = .error (.raise .illegalCommand (encodeWord .decSym).toNat) := if_pos h

/-- Settles O6: the decoder finds no row, acceptance refuses the mode, or the body refuses the symbol; the word of a command is
the word it was decoded from. -/
theorem illegalCommandRaised : Obligations.IllegalCommandRaised := by
  unfold Obligations.IllegalCommandRaised
  refine fun s w hs => ⟨runCommand_of_no_row hs, fun i m hd hl hm => ?_, ?_⟩
  · obtain ⟨-, rfl⟩ := decodeWord_ok_iff_encodeWord.1 hd
    exact (runEvent_command_of_decode hd s).trans (exec_of_illegal_mode hs hl hm)
  · rintro rfl hm hall
    have hd : decodeWord (encodeWord .decSym) = .ok .decSym := decodeEncode .decSym rfl
    exact (runEvent_command_of_decode hd s).trans (accept_of_raise ⟨hs, hm⟩ rfl (decSymBody_of_total_le hall))

/-! ### Faulting commands (R324) -/

/-- Every command's faults have a cause (R310). -/
theorem bodyOf_raisesCause (i : Instr) (s : State) : RaisesCause (bodyOf i s) := by
  cases i with
  | nop | rst | decEnd => trivial
  | encBegin => exact encBeginBody_raisesCause s
  | encSym x => exact encodeSymbol_raisesCause x s
  | encEnd => exact encEndBody_raisesCause s
  | encRun => exact encRunBody_raisesCause s
  | bwBit b => exact writeBit_raisesCause b s
  | bwEmit b => exact emit_raisesCause b s
  | bwDefer => exact defer_raisesCause s
  | decBegin => exact decBeginBody_raisesCause s
  | decSym => exact decSymBody_raisesCause s
  | decRun => exact decRunBody_raisesCause s
  | brBit => exact brBitBody_raisesCause s
  | fmBuild => exact fmBuildBody_raisesCause s
  | fmCheck => exact fmCheckBody_raisesCause s
  | dxFind => exact dxFindBody_raisesCause s
  | dxSub => exact dxSubBody_raisesCause s
  | dxExp => exact dxExpBody_raisesCause s
  | encode => exact encodeBody_raisesCause s
  | decode => exact decodeBody_raisesCause s
  | ser => exact serBody_raisesCause s
  | des => exact desBody_raisesCause s
  | compress => exact compressBody_raisesCause s
  | decompress => exact decompressBody_raisesCause s

/-- Settles O4: a body that completes keeps `READY`, so the fault is acceptance's own or raised in the body; both enter the fault
state from the state accepted. -/
theorem faultsArePrecise : Obligations.FaultsArePrecise := by
  unfold Obligations.FaultsArePrecise
  intro i s t hs ht hfault
  by_cases hi : i = .rst
  · subst hi
    cases ht
    cases hfault
  · rw [exec_eq_accept hi] at ht
    rcases accept_next.1 ht with ⟨hs', -⟩ | ⟨-, hl, hr | ⟨x, info, hr, rfl⟩⟩ | ⟨-, hl, rfl⟩
    · cases hs.symm.trans hs'
    · cases ((bodyOf_leaves hl hr).status.trans hs).symm.trans hfault
    · have hcause := bodyOf_raisesCause i s
      rw [hr] at hcause
      exact ⟨x, info, destOf i, hcause, rfl, fun h => (nomatch hl.symm.trans h), fun _ => by cases i <;> rfl⟩
    · exact ⟨.illegalCommand, _, {}, nofun, rfl, fun _ => rfl, fun h => (nomatch hl.symm.trans h)⟩

end Sys2Proof.Proofs
end

section
/-! PROOF. DxExpCorrupt: the symbols in range are expanded, and the first one beyond the dictionary ends the command (R238, R312). -/

namespace Sys2Proof.Proofs

open Sys2Proof.Machine Sys2Proof.Safety

variable {dict : List (List Byte)} {x : Sym}

theorem length_wordOf (dict : List (List Byte)) (x : Sym) :
    (wordOf dict x).length = if x.toNat < 256 then 1 else ((dict[x.toNat - 256]?).getD []).length := by
  rw [wordOf]
  split <;> rfl

/-- A symbol beyond the dictionary stands for no bytes (R238). -/
theorem expandSymbol_of_beyond (h : 256 + dict.length ≤ x.toNat) : expandSymbol dict x = none := by
  rw [expandSymbol, dictBase, if_neg (by omega), List.getElem?_eq_none (by omega)]

/-- Settles O45: the symbols in range have room, and the next one stands for nothing. -/
theorem dxExpCorrupt : Obligations.DxExpCorrupt := by
  unfold Obligations.DxExpCorrupt
  intro s good rest x hat hsym hgood hx hroom
  have hwords : List.Forall₂ (Expands s.dict) good (good.map (wordOf s.dict)) := by
    rw [List.forall₂_map_right_iff, List.forall₂_same]
    exact fun y hy => expands_wordOf (hgood y hy)
  have hbytes : (good.map (wordOf s.dict)).flatten.length ≤ s.capObuf := by
    simpa only [List.length_flatten, List.map_map, Function.comp_def, length_wordOf] using hroom
  have hexpand := expandFrom_append (more := x :: rest) hwords (out := []) (Nat.zero_le s.capObuf)
  rw [← hsym, List.nil_append, if_neg hbytes.not_gt, expandFrom, expandSymbol_of_beyond hx] at hexpand
  exact accept_of_raise hat rfl (bind_error.2 (.inl hexpand))

end Sys2Proof.Proofs
end

section
/-! PROOF. CommandFrame: the registers and buffers that each command's body writes where it completes (`_writes`), and what
acceptance adds to it: nothing in the fault state, fault entry for a command that faults. -/

namespace Sys2Proof.Proofs

open Sys2Proof.Machine Sys2Proof.Safety

variable {s t u : State} {b : Bit} {f g : State → State} {P : Prop}

/-! ### Bodies that write named registers and buffers -/

theorem encBeginBody_writes (h : encBeginBody s = .ok t) : t = { s with
    low := t.low, high := t.high, acc := t.acc, nbits := t.nbits, pending := t.pending, bits := t.bits, mode := t.mode } := by
  obtain ⟨-, rfl⟩ := encBeginBody_ok h
  rfl

/-- The end of a session clears the transient registers, whatever the writer left in them (R51, R173). -/
theorem encEndBody_writes (h : encEndBody s = .ok t) : t = { transientClear s with bits := t.bits, mode := t.mode } := by
  obtain ⟨u, hu, rfl⟩ := encEndBody_ok h
  rw [(writerFinish_frame hu).1]
  rfl

theorem writeBit_writes (h : writeBit b s = .ok t) : t = { s with acc := t.acc, nbits := t.nbits, bits := t.bits } := by
  obtain ⟨-, ⟨-, -, rfl⟩ | ⟨-, rfl⟩⟩ := writeBit_ok h
  · rfl
  · rfl

theorem defer_writes (h : defer s = .ok t) : t = { s with pending := t.pending } := by
  obtain ⟨-, rfl⟩ := defer_ok h
  rfl

theorem decBeginBody_writes (h : decBeginBody s = .ok t) : t = { s with
    low := t.low, high := t.high, window := t.window, rpos := t.rpos, sym := t.sym, mode := t.mode } := by
  rw [decBeginBody_frame h]

theorem decodeSymbol_writes (h : decodeSymbol s = .ok t) : t = { s with
    low := t.low, high := t.high, window := t.window, rpos := t.rpos, sym := t.sym } := by
  obtain ⟨-, e, -, -, -, -, hframe⟩ := decodeSymbol_ok h
  rw [hframe]

theorem decEndBody_writes (h : decEndBody s = .ok t) : t = { transientClear s with mode := t.mode } := by
  obtain rfl := Except.ok.inj h
  rfl

theorem brBitBody_writes (h : brBitBody s = .ok t) : t = { s with rbit := t.rbit, rpos := t.rpos } := by
  obtain ⟨⟨bit, u⟩, hr, h⟩ := bind_ok.1 h
  obtain ⟨-, hr⟩ := readBit_ok hr
  obtain ⟨-, rfl⟩ := Prod.mk.inj hr
  obtain rfl := Except.ok.inj h
  rfl

theorem fmBuildBody_writes (h : fmBuildBody s = .ok t) : t = { s with ftab := t.ftab, total := t.total } := by
  obtain ⟨-, -, rfl⟩ := fmBuildBody_ok h
  rfl

theorem dxFindBody_writes (h : dxFindBody s = .ok t) : t = { s with dict := t.dict } := by
  obtain ⟨-, rfl⟩ := dxFindBody_ok h
  rfl

theorem dxSubBody_writes (h : dxSubBody s = .ok t) : t = { s with sym := t.sym } := by
  obtain ⟨-, rfl⟩ := dxSubBody_ok h
  rfl

theorem dxExpBody_writes (h : dxExpBody s = .ok t) : t = { s with obuf := t.obuf } := by
  obtain ⟨out, -, rfl⟩ := dxExpBody_ok h
  rfl

theorem serBody_writes (h : serBody s = .ok t) : t = { s with obuf := t.obuf } := by
  obtain ⟨-, rfl⟩ := serBody_ok h
  rfl

/-! ### Bodies that run a whole session -/

/-- The transient registers stay as they were or are cleared (R51), and then `f` writes its buffers. -/
def RunFrame (f : State → State) (s t : State) : Prop := ∃ r, (r = s ∨ r = transientClear s) ∧ t = f r

/-- The same frame with the writes spelled otherwise. -/
theorem RunFrame.imp (h : RunFrame f s t) (hfg : ∀ r, t = f r → t = g r) : RunFrame g s t := by
  obtain ⟨r, hr, ht⟩ := h
  exact ⟨r, hr, hfg r ht⟩

/-- More is written after the session. -/
theorem RunFrame.andThen (h : RunFrame f s u) (ht : t = g u) : RunFrame (g ∘ f) s t := by
  obtain ⟨r, hr, rfl⟩ := h
  exact ⟨r, hr, ht⟩

/-- Buffers are written before the session. -/
theorem RunFrame.after (h : RunFrame f u t) (hu : u = g s)
    (hg : transientClear (g s) = g (transientClear s) := by rfl) : RunFrame (f ∘ g) s t := by
  subst hu
  obtain ⟨r, rfl | rfl, ht⟩ := h
  · exact ⟨s, .inl rfl, ht⟩
  · exact ⟨transientClear s, .inr rfl, by rw [ht, hg]; rfl⟩

theorem encRunBody_writes (hm : s.mode = .idle) (h : encRunBody s = .ok t) :
    RunFrame (fun r => { r with bits := t.bits }) s t := by
  rcases encRunBody_ok h with ⟨-, rfl⟩ | ⟨-, u, v, hu, hv, ht⟩
  · exact ⟨s, .inl rfl, rfl⟩
  · refine ⟨transientClear s, .inr rfl, ?_⟩
    have hframe := encEndBody_writes ht
    obtain ⟨-, rfl⟩ := encBeginBody_ok hu
    rw [(encodeSymbols_frame hv).1, (encEndBody_leaves ht).mode, ← hm] at hframe
    exact hframe

theorem decRunBody_writes (hm : s.mode = .idle) (h : decRunBody s = .ok t) :
    RunFrame (fun r => { r with sym := t.sym }) s t := by
  obtain ⟨-, ⟨-, rfl⟩ | ⟨-, u, v, hu, hv, ht⟩⟩ := decRunBody_ok h
  · exact ⟨s, .inl rfl, rfl⟩
  · refine ⟨transientClear s, .inr rfl, ?_⟩
    obtain rfl := Except.ok.inj ht
    rw [decodeSymbols_frame hv, decBeginBody_frame hu, ← hm]
    rfl

theorem encodeBody_writes (hm : s.mode = .idle) (h : encodeBody s = .ok t) :
    RunFrame (fun r => { r with dict := t.dict, sym := t.sym, ftab := t.ftab, total := t.total, bits := t.bits }) s t := by
  obtain ⟨a, b, c, ha, hb, hc, ht⟩ := encodeBody_ok h
  have hprepared : c = { s with dict := c.dict, sym := c.sym, ftab := c.ftab, total := c.total } := by
    rw [fmBuildBody_writes hc, dxSubBody_writes hb, dxFindBody_writes ha]
  have hidle : c.mode = .idle := by
    rw [hprepared]
    exact hm
  refine ((encRunBody_writes hidle ht).after
    (g := fun r => { r with dict := c.dict, sym := c.sym, ftab := c.ftab, total := c.total }) hprepared).imp fun r hr => ?_
  rw [hr]
  rfl

theorem decodeBody_writes (hm : s.mode = .idle) (h : decodeBody s = .ok t) :
    RunFrame (fun r => { r with sym := t.sym, obuf := t.obuf }) s t := by
  obtain ⟨a, ha, ht⟩ := bind_ok.1 h
  refine ((decRunBody_writes hm ha).andThen (g := fun r => { r with obuf := t.obuf }) (dxExpBody_writes ht)).imp fun r hr => ?_
  rw [hr]
  rfl

theorem compressBody_writes (hm : s.mode = .idle) (h : compressBody s = .ok t) :
    RunFrame (fun r => { r with
      dict := t.dict, sym := t.sym, ftab := t.ftab, total := t.total, bits := t.bits, obuf := t.obuf }) s t := by
  obtain ⟨a, ha, ht⟩ := bind_ok.1 h
  refine ((encodeBody_writes hm ha).andThen (g := fun r => { r with obuf := t.obuf }) (serBody_writes ht)).imp fun r hr => ?_
  rw [hr]
  rfl

theorem decompressBody_writes (hm : s.mode = .idle) (h : decompressBody s = .ok t) :
    RunFrame (fun r => { r with
      dict := t.dict, ftab := t.ftab, total := t.total, bits := t.bits, sym := t.sym, obuf := t.obuf }) s t := by
  obtain ⟨a, ha, ht⟩ := bind_ok.1 h
  obtain ⟨hparsed, -⟩ := desBody_ok ha
  have hidle : a.mode = .idle := (desBody_leaves ha).mode.trans hm
  refine ((decodeBody_writes hidle ht).after
    (g := fun r => { r with dict := a.dict, ftab := a.ftab, total := a.total, bits := a.bits }) hparsed).imp fun r hr => ?_
  rw [hr]
  rfl

/-! ### The commands -/

/-- `IBUF`, the configuration and the port are kept. -/
abbrev KeepsInput (s t : State) : Prop := t.ibuf = s.ibuf ∧ t.cfg = s.cfg ∧ t.port = s.port

/-- The frame of a command that leads from `s` to `t`, with what it writes where it completes. -/
def Framed (s t : State) (writes : Prop) : Prop :=
  t.ibuf = s.ibuf ∧ t.cfg = s.cfg ∧ t.port = s.port ∧ (s.status = .fault → t = s) ∧
  (s.status = .ready → t.status = .ready → writes)

theorem Framed.of_ignored (hs : s.status = .fault) : Framed s s P :=
  ⟨rfl, rfl, rfl, fun _ => rfl, fun h => (nomatch hs.symm.trans h)⟩

theorem Framed.of_faultEntry {x : Cause} {info : Nat} {d : Dest} (hs : s.status = .ready) :
    Framed s (faultEntry x info d s) P :=
  ⟨rfl, rfl, rfl, fun h => (nomatch hs.symm.trans h), nofun⟩

theorem Framed.of_completes (hs : s.status = .ready) (hk : KeepsInput s t) (h : P) : Framed s t P := by
  obtain ⟨hibuf, hcfg, hport⟩ := hk
  exact ⟨hibuf, hcfg, hport, fun hf => (nomatch hs.symm.trans hf), fun _ _ => h⟩

theorem Framed.of_eq (hs : s.status = .ready) (h : t = u) (hu : KeepsInput s u := by exact ⟨rfl, rfl, rfl⟩) :
    Framed s t (t = u) :=
  .of_completes hs (h ▸ hu) h

theorem Framed.of_run (hs : s.status = .ready) (h : RunFrame f s t)
    (hf : ∀ r, KeepsInput r (f r) := by exact fun _ => ⟨rfl, rfl, rfl⟩) : Framed s t (RunFrame f s t) := by
  refine .of_completes hs ?_ h
  obtain ⟨r, rfl | rfl, rfl⟩ := h
  · exact hf r
  · exact hf (transientClear s)

/-- Settles O8: the body of a command that completes writes what its rule names, and fault entry keeps the rest. -/
theorem commandFrame : Obligations.CommandFrame := by
  unfold Obligations.CommandFrame
  intro i s t hi ht
  change Framed s t _
  rw [exec_eq_accept hi] at ht
  rcases accept_next.1 ht with ⟨hs, rfl⟩ | ⟨hs, hl, h | ⟨x, info, -, rfl⟩⟩ | ⟨hs, -, rfl⟩
  · exact .of_ignored hs
  · cases i with
    | nop => exact .of_eq hs (Except.ok.inj h).symm
    | rst => exact absurd rfl hi
    | encBegin => exact .of_eq hs (encBeginBody_writes h)
    | encSym x => exact .of_eq hs (encodeSymbol_ok h).1.1
    | encEnd => exact .of_eq hs (encEndBody_writes h)
    | encRun => exact .of_run hs (encRunBody_writes (mode_of_legal rfl hl) h)
    | bwBit b => exact .of_eq hs (writeBit_writes h)
    | bwEmit b => exact .of_eq hs (emit_frame h).1
    | bwDefer => exact .of_eq hs (defer_writes h)
    | decBegin => exact .of_eq hs (decBeginBody_writes h)
    | decSym => exact .of_eq hs (decodeSymbol_writes (decSymBody_ok h))
    | decEnd => exact .of_eq hs (decEndBody_writes h)
    | decRun => exact .of_run hs (decRunBody_writes (mode_of_legal rfl hl) h)
    | brBit => exact .of_eq hs (brBitBody_writes h)
    | fmBuild => exact .of_eq hs (fmBuildBody_writes h)
    | fmCheck => exact .of_eq hs (fmCheckBody_ok h).2
    | dxFind => exact .of_eq hs (dxFindBody_writes h)
    | dxSub => exact .of_eq hs (dxSubBody_writes h)
    | dxExp => exact .of_eq hs (dxExpBody_writes h)
    | encode => exact .of_run hs (encodeBody_writes (mode_of_legal rfl hl) h)
    | decode => exact .of_run hs (decodeBody_writes (mode_of_legal rfl hl) h)
    | ser => exact .of_eq hs (serBody_writes h)
    | des => exact .of_eq hs (desBody_ok h).1
    | compress => exact .of_run hs (compressBody_writes (mode_of_legal rfl hl) h)
    | decompress => exact .of_run hs (decompressBody_writes (mode_of_legal rfl hl) h)
  · exact .of_faultEntry hs
  · exact .of_faultEntry hs

end Sys2Proof.Proofs
end
